-- ==== Sys2Proof/Word.lean ====
section
/-! DEFINITION. The word types of the core (spec/00_scope.md R5 to R15). -/

namespace Sys2Proof

/-- A symbol, `SYM_W = 8` bits (R5). -/
abbrev Sym := BitVec 8

/-- A byte of a compressed stream (R15). -/
abbrev Byte := BitVec 8

/-- A count of the frequency table, `CNT_W = 32` bits (R6). -/
abbrev Count := BitVec 32

/-- The frequency of a tree node, `FREQ_W = 40` bits (R7). -/
abbrev Freq := BitVec 40

/-- A node index, `IDX_W = 9` bits (R8). -/
abbrev Idx := BitVec 9

/-- The register `NXT`, `IDX_W + 1 = 10` bits (10_state.md R26). -/
abbrev NextIdx := BitVec 10

/-- A command word, `CMD_W = 48` bits (R12, 30_encoding.md R80). -/
abbrev CmdWord := BitVec 48

/-- A response word, `RSP_W = 327` bits (R12, 30_encoding.md R84). -/
abbrev RspWord := BitVec 327

/-- The stored field of a code, `CODE_MAX = 255` bits (R9, 10_state.md R28). -/
abbrev CodeField := BitVec 255

/-- A bitstring `b_0 b_1 … b_(n-1)`, `b_0` first (R14). -/
abbrev Bits := List Bool

end Sys2Proof
end

