-- ==== Sys2Proof/Config.lean ====
section
/-! DEFINITION. What is fixed when the hardware is built (spec/00_scope.md R5 to R12). No free value is needed: the
spec leaves no value of a run open. -/

namespace Sys2Proof.Config

/-- `NSYM = 2^SYM_W`, the size of the alphabet (R5). -/
abbrev nsym : Nat := 256

/-- `NNODE = 2*NSYM - 1`, the number of node slots (R8). -/
abbrev nnode : Nat := 511

/-- `CODE_MAX`, the greatest code length in bits (R9). -/
abbrev codeMax : Nat := 255

/-- `2^CNT_W - 1`, the greatest count (R6). -/
abbrev countMax : Count := 0xFFFFFFFF#32

/-- How the packer computes the pad length (R11). -/
inductive PadMode where
  /-- `(8 - L mod 8) mod 8`, 0 to 7. -/
  | normalized
  /-- `8 - (L mod 8)`, 1 to 8. -/
  | reference
  deriving DecidableEq, Repr

/-- The parameters a model takes as arguments (R10, R11). A capacity `none` is infinite. -/
structure Params where
  /-- `PBUF_BITS`, the capacity of the packer's payload buffer in bits (R10). -/
  pbufBits : Option Nat
  /-- `UBUF_BYTES`, the capacity of the unpacker's input buffer in bytes (R10). -/
  ubufBytes : Option Nat
  /-- `PAD_MODE` (R11). -/
  padMode : PadMode
  deriving DecidableEq, Repr

/-- This hardware's parameters (R10, R11). -/
def thisHardware : Params :=
  { pbufBits := some 524288, ubufBytes := some 65538, padMode := .normalized }

/-- The bound every build keeps: `UBUF_BYTES >= ceil(PBUF_BITS / 8) + 2` (R10). -/
def Params.admissible (p : Params) : Bool :=
  match p.ubufBytes, p.pbufBits with
  | none, _ => true
  | some _, none => false
  | some u, some b => decide ((b + 7) / 8 + 2 ≤ u)

end Sys2Proof.Config
end

