-- ==== Sys2Proof/Syntax.lean ====
section
/-! DEFINITION. The commands (spec/30_encoding.md R83), one constructor for each row of spec/opcode_table.json, and the
assembler's terms, whose operands are numbers not yet known to fit their fields (R95, R96). -/

namespace Sys2Proof

/-- A command with its operands (R81, R83). The operand types carry the field widths of R81, so a field a command
does not use (R82) has no place here. -/
inductive Instr where
  /-- 0x00 -/
  | nop
  /-- 0x01 -/
  | rst
  /-- 0x02 -/
  | sts
  /-- 0x10 -/
  | cnt (s : Sym)
  /-- 0x11 -/
  | fwr (s : Sym) (c : Count)
  /-- 0x12 -/
  | frd (s : Sym)
  /-- 0x20 -/
  | bld
  /-- 0x21 -/
  | nrd (i : Idx)
  /-- 0x30 -/
  | gen
  /-- 0x31 -/
  | trd (s : Sym)
  /-- 0x40 -/
  | pks (s : Sym)
  /-- 0x41 -/
  | pke
  /-- 0x50 -/
  | upb (b : Byte)
  /-- 0x51 -/
  | upe
  /-- 0x60 -/
  | dec
  deriving DecidableEq, Repr

/-- A command as the assembler reads it: the operands are natural numbers (R95). -/
inductive AsmCommand where
  | nop
  | rst
  | sts
  | cnt (s : Nat)
  | fwr (s c : Nat)
  | frd (s : Nat)
  | bld
  | nrd (i : Nat)
  | gen
  | trd (s : Nat)
  | pks (s : Nat)
  | pke
  | upb (b : Nat)
  | upe
  | dec
  deriving DecidableEq, Repr

/-- The pseudo-commands (R96). -/
inductive Pseudo where
  | count (S : List Sym)
  | table (S : List Sym)
  | pack (S : List Sym)
  | compress (S : List Sym)
  | loadfreq (F : List (Sym × Count))
  | unpack (B : List Byte)
  | decompress (B : List Byte)
  deriving DecidableEq, Repr

end Sys2Proof
end

