-- ==== Sys2Proof/Decode.lean ====
section
/-! DEFINITION. The command word `CMD48`: its fields, the decoder and the encoder (spec/30_encoding.md R80 to R83, R87,
R97). Decoding is total: a reserved `op` is rejected by its value. -/

namespace Sys2Proof

/-- `w[47:40]` (R80). -/
def CmdWord.op (w : CmdWord) : BitVec 8 := w.extractLsb' 40 8

/-- `w[39:32]` (R80). -/
def CmdWord.a (w : CmdWord) : BitVec 8 := w.extractLsb' 32 8

/-- `w[31:0]` (R80). -/
def CmdWord.d (w : CmdWord) : BitVec 32 := w.extractLsb' 0 32

/-- The symbol operand, `a[SYM_W-1:0]` (R81). -/
def CmdWord.sym (w : CmdWord) : Sym := CmdWord.a w

/-- The byte operand, `a[7:0]` (R81). -/
def CmdWord.byte (w : CmdWord) : Byte := CmdWord.a w

/-- The count operand, `d[CNT_W-1:0]` (R81). -/
def CmdWord.count (w : CmdWord) : Count := CmdWord.d w

/-- The node index operand, `d[IDX_W-1:0]` (R81). -/
def CmdWord.idx (w : CmdWord) : Idx := (CmdWord.d w).setWidth 9

/-- What a command word says: a command, or a reserved `op` (R87). -/
inductive Decoded where
  | instr (i : Instr)
  /-- A reserved `op`, one of the 241 values of R87. -/
  | reserved (op : BitVec 8)
  deriving DecidableEq, Repr

/-- The opcode map (R83), `op` alone telling commands apart (R97). -/
def decode (w : CmdWord) : Decoded :=
  match (CmdWord.op w).toNat with
  | 0x00 => .instr .nop
  | 0x01 => .instr .rst
  | 0x02 => .instr .sts
  | 0x10 => .instr (.cnt (CmdWord.sym w))
  | 0x11 => .instr (.fwr (CmdWord.sym w) (CmdWord.count w))
  | 0x12 => .instr (.frd (CmdWord.sym w))
  | 0x20 => .instr .bld
  | 0x21 => .instr (.nrd (CmdWord.idx w))
  | 0x30 => .instr .gen
  | 0x31 => .instr (.trd (CmdWord.sym w))
  | 0x40 => .instr (.pks (CmdWord.sym w))
  | 0x41 => .instr .pke
  | 0x50 => .instr (.upb (CmdWord.byte w))
  | 0x51 => .instr .upe
  | 0x60 => .instr .dec
  | _ => .reserved (CmdWord.op w)

/-- The word `op, a, d` (R80). -/
def cmd48 (op a : BitVec 8) (d : BitVec 32) : CmdWord := op ++ a ++ d

/-- The canonical encoding: 0 in every field and bit a command does not use (R97). -/
def encode : Instr → CmdWord
  | .nop => cmd48 0x00 0 0
  | .rst => cmd48 0x01 0 0
  | .sts => cmd48 0x02 0 0
  | .cnt s => cmd48 0x10 s 0
  | .fwr s c => cmd48 0x11 s c
  | .frd s => cmd48 0x12 s 0
  | .bld => cmd48 0x20 0 0
  | .nrd i => cmd48 0x21 0 (i.setWidth 32)
  | .gen => cmd48 0x30 0 0
  | .trd s => cmd48 0x31 s 0
  | .pks s => cmd48 0x40 s 0
  | .pke => cmd48 0x41 0 0
  | .upb b => cmd48 0x50 b 0
  | .upe => cmd48 0x51 0 0
  | .dec => cmd48 0x60 0 0

/-- The bits of a command word that a command looks at: `op` and the fields R82 says it uses (R81, R82). -/
def usedBits : Instr → CmdWord
  | .nop | .rst | .sts | .bld | .gen | .pke | .upe | .dec => cmd48 0xFF 0 0
  | .cnt _ | .frd _ | .trd _ | .pks _ | .upb _ => cmd48 0xFF 0xFF 0
  | .nrd _ => cmd48 0xFF 0 0x1FF
  | .fwr _ _ => cmd48 0xFF 0xFF 0xFFFFFFFF

/-- A command word that is the canonical encoding of a command (R97). -/
def canonicalWord (w : CmdWord) : Bool :=
  match decode w with
  | .instr i => w &&& usedBits i == w
  | .reserved _ => false

/-- The command in a word numbered as spec/opcode_table.json numbers it. The transport is one 48-bit parallel word
(20_memory.md R63), so bit `k` of the table is `w[k]`. Bits at and above `nbits` are 0. -/
def decodeTableWord (nbits w : Nat) : Option Instr :=
  if nbits ≤ 48 then
    match decode (BitVec.ofNat 48 (w % 2 ^ nbits)) with
    | .instr i => some i
    | .reserved _ => none
  else none

end Sys2Proof
end

