-- ==== Sys2Proof/Machine/Bits.lean ====
section
/-! DEFINITION. Bitstrings, bytes and codes in fields: byte and bit order (spec/00_scope.md R14, R15, 10_state.md R28,
20_memory.md R61). -/

namespace Sys2Proof.Machine

/-- `bits8(v)`: the bits of a byte, most significant first (R15). -/
def bits8 (v : Byte) : Bits :=
  [v.getLsbD 7, v.getLsbD 6, v.getLsbD 5, v.getLsbD 4, v.getLsbD 3, v.getLsbD 2, v.getLsbD 1, v.getLsbD 0]

/-- The unsigned value of a bitstring, first bit most significant (R13, R15). -/
def bitsVal (b : Bits) : Nat := b.foldl (fun acc x => 2 * acc + x.toNat) 0

/-- `byte(b_0..b_7)`, the inverse of `bits8` (R15). -/
def byteOf (b : Bits) : Byte := BitVec.ofNat 8 (bitsVal b)

/-- `"0"^k` (R14). -/
def zeros (k : Nat) : Bits := List.replicate k false

/-- `x[i..j]` (R14). -/
def slice (x : Bits) (i j : Nat) : Bits := (x.drop i).take (j - i)

/-- The stored field of a code: bit `b_i` is field bit `CODE_MAX-1-i`, the bits below the code are 0 (10_state.md
R28). -/
def codeField (c : Bits) : CodeField :=
  BitVec.ofNat 255 (bitsVal (c.take Config.codeMax ++ zeros (Config.codeMax - c.length)))

/-- Mark the last element of a frame (30_encoding.md R94). -/
def frame {α : Type} : List α → List (α × Bool)
  | [] => []
  | [v] => [(v, true)]
  | v :: w :: vs => (v, false) :: frame (w :: vs)

end Sys2Proof.Machine
end

