-- ==== Sys2Proof/Machine/Table.lean ====
section
/-! DEFINITION. Tables held sparsely: the tables `FT`, `NODE` and `CT` (spec/20_memory.md R60) as lists of key and value in
one canonical form, keys strictly rising. An unlisted key reads as the table's empty element. -/

namespace Sys2Proof.Machine

/-- A table by index. -/
abbrev Table (α : Type) := List (Nat × α)

/-- The element listed under a key, if one is (R65: one whole element). -/
def Table.get? {α : Type} : Table α → Nat → Option α
  | [], _ => none
  | (j, v) :: t, k => if j = k then some v else Table.get? t k

/-- Write one element, keeping the keys in rising order. -/
def Table.insert {α : Type} : Table α → Nat → α → Table α
  | [], k, v => [(k, v)]
  | (j, w) :: t, k, v =>
    if k < j then (k, v) :: (j, w) :: t
    else if j = k then (k, v) :: t
    else (j, w) :: Table.insert t k v

/-- Make an element empty. -/
def Table.erase {α : Type} : Table α → Nat → Table α
  | [], _ => []
  | (j, w) :: t, k => if j = k then Table.erase t k else (j, w) :: Table.erase t k

/-- Keys strictly rise. -/
def Table.rising {α : Type} : Table α → Bool
  | [] => true
  | [_] => true
  | (i, _) :: (j, w) :: t => decide (i < j) && Table.rising ((j, w) :: t)

/-- The canonical form: keys strictly rise and lie below the table's size, and no element is the empty one. -/
def Table.wf {α : Type} (size : Nat) (empty : α → Bool) (t : Table α) : Bool :=
  t.rising && t.all (fun e => decide (e.1 < size) && !empty e.2)

end Sys2Proof.Machine
end

