-- ==== Sys2Proof/Machine/State.lean ====
section
/-! DEFINITION. The state of the core (spec/10_state.md R22 to R38, R45), its reset values (R43) and the reasons a step can
stop. -/

namespace Sys2Proof.Machine

/-- A node of the tree store, a slot with `v = 1` (R24). A slot with `v = 0` has all fields 0 and is absent
(93_implementation_defined.md U10). -/
inductive Node where
  /-- `leaf = 1`: a frequency and a symbol. `l` and `r` are 0. -/
  | leaf (freq : Freq) (sym : Sym)
  /-- `leaf = 0`: a frequency and the indices of the two children. `sym` is 0. -/
  | internal (freq : Freq) (l r : Idx)
  deriving DecidableEq, Repr

/-- Which child of a stacked node comes next (R36, 42_code_table_generator.md R160). -/
inductive Phase where
  | L
  | R
  | UP
  deriving DecidableEq, Repr

/-- A valid entry of the inverse code table: a code and the symbol it stands for (R31). -/
structure IctEntry where
  code : Bits
  sym : Sym
  deriving DecidableEq, Repr

/-- A response word by its fields (30_encoding.md R84). A field not named is 0. -/
structure Response where
  st : BitVec 4 := 0
  f : BitVec 2 := 0
  x : Idx := 0
  y : Idx := 0
  d : BitVec 40 := 0
  len : BitVec 8 := 0
  code : CodeField := 0
  deriving DecidableEq, Repr

/-- The nine kinds of synchronous error (60_exceptions.md R250). They are no faults of the model: raising one is a
next state. -/
inductive ErrorKind where
  | emptyAlphabet
  | missingCode
  | corruptHeader
  | corruptPadding
  | undecodableTail
  | countOverflow
  | bufferOverflow
  | noTree
  | illegalCommand
  deriving DecidableEq, Repr

/-- What the host does next at the ports (30_encoding.md R92, R93, 60_exceptions.md R274). -/
inductive HostEvent where
  /-- A command word is presented and every `ready` is raised: what is pending is transferred, and the command is
  accepted and completes. -/
  | command (w : CmdWord)
  /-- A command word is presented, every `ready` raised until it is accepted. Then the sinks take `taken` elements of
  it and every `ready` is held low. -/
  | commandHeld (w : CmdWord) (taken : Nat)
  /-- Every `ready` is raised: what is pending is transferred. -/
  | ready
  /-- The input `rst` is asserted, at any time (70_reset_and_hazards.md R290). Asserted for longer, it comes again. -/
  | rst
  deriving DecidableEq, Repr

/-- The reasons the model stops. -/
inductive Fault where
  /-- Raised by `GEN` when `TREE_V = 1` but the slots reached from `ROOT` are no tree of depth at most `CODE_MAX`. No
  reachable state is such (R44(a)), and the spec gives the traversal no meaning there. SAFE: the model stops. -/
  | malformedTree
  deriving DecidableEq, Repr

/-- The reasons the model gives no meaning. -/
inductive Refusal where
  /-- An arm of `exec` that has no meaning yet. Raised by no arm now. SAFE. -/
  | notModelled (mnemonic : String)
  deriving DecidableEq, Repr

/-- The state of the core and of its ports. -/
structure State where
  /-- `FT`, the frequency table (R23). An unlisted symbol has count 0. -/
  ft : Table Count
  /-- `NODE`, the tree store (R24). An unlisted slot has `v = 0`. -/
  node : Table Node
  /-- `INQ`, the queued slots in rising order (R25). Scratch. -/
  inq : List Nat
  /-- `ROOT` (R26). -/
  root : Idx
  /-- `NXT` (R26). -/
  nxt : NextIdx
  /-- `TREE_V` (R27). -/
  treeV : Bool
  /-- `CT`, the code table (R28). An unlisted symbol has `v = 0`. -/
  ct : Table Bits
  /-- `ICT`, the inverse code table (R31). -/
  ict : List IctEntry
  /-- `TBL_V` (R29). -/
  tblV : Bool
  /-- `PBUF`, the payload (R32). -/
  pbuf : Bits
  /-- `UBUF`, the bytes given to the unpacker (R33). -/
  ubuf : List Byte
  /-- `EBITS`, the encoded bitstring not yet decoded (R34). -/
  ebits : Bits
  /-- `CAND`, the decoder's candidate (R35). Scratch. -/
  cand : Bits
  /-- The `DEAD` flag of `CAND` (R35, 45_symbol_decoder.md R216). Scratch. -/
  dead : Bool
  /-- `DPOS`, the decoder's position in `EBITS` (R35). Scratch. -/
  dpos : Nat
  /-- `STK`, the traversal stack, top first (R36). Scratch. -/
  stk : List (Idx × Phase)
  /-- `PATH`, the edge labels from the root (R36). Scratch. -/
  path : Bits
  /-- `ERR`, the latched error code (R37). -/
  err : BitVec 4
  /-- `BUSY` (R45). -/
  busy : Bool
  /-- The core is in reset: `rst` is 1, or its tables are still being cleared after it (70_reset_and_hazards.md R290,
  60_exceptions.md R272). -/
  inReset : Bool
  /-- `BOUT`, the history of the byte sink: `(byte, last)` (R38). -/
  bout : List (Byte × Bool)
  /-- `SOUT`, the history of the symbol sink: `(symbol, last)` (R38). -/
  sout : List (Sym × Bool)
  /-- The responses the host has taken, oldest first (R19, R304). The model's own field. -/
  rsps : List Response
  /-- The response presented and not yet taken (R93). The model's own field. -/
  rspPort : Option Response
  /-- The elements presented to the byte sink and not yet taken (R93). The model's own field. -/
  boPort : List (Byte × Bool)
  /-- The elements presented to the symbol sink and not yet taken (R93). The model's own field. -/
  soPort : List (Sym × Bool)
  /-- What the host does next. The model's own field: it is input, not core state (R42). -/
  host : List HostEvent
  deriving DecidableEq, Repr

/-- The machine right after the reset at power-on, when `cmd_ready` first becomes 1 (R43, 70_reset_and_hazards.md R291).
`NXT` is `NSYM`, everything else is 0 or empty. -/
def State.reset : State where
  ft := []
  node := []
  inq := []
  root := 0
  nxt := 256
  treeV := false
  ct := []
  ict := []
  tblV := false
  pbuf := []
  ubuf := []
  ebits := []
  cand := []
  dead := false
  dpos := 0
  stk := []
  path := []
  err := 0
  busy := false
  inReset := false
  bout := []
  sout := []
  rsps := []
  rspPort := none
  boPort := []
  soPort := []
  host := []

end Sys2Proof.Machine
end

