-- ==== Sys2Proof/Machine/Ops.lean ====
section
/-! DEFINITION. The shared operations: answering a command, raising an error, the halt gate, emitting to a sink, writing
a store, returning to the reset state (spec/00_scope.md R16, 60_exceptions.md R256, R257, R265). -/

namespace Sys2Proof.Machine

/-- The outcome type of a step. -/
abbrev Out := Host.Outcome State Fault Refusal

/-- The code of an error, the value of `st` and of `ERR` (60_exceptions.md R250). -/
def errCode : ErrorKind → BitVec 4
  | .emptyAlphabet => 1
  | .missingCode => 2
  | .corruptHeader => 3
  | .corruptPadding => 4
  | .undecodableTail => 5
  | .countOverflow => 8
  | .bufferOverflow => 9
  | .noTree => 10
  | .illegalCommand => 11

/-- The status `Halted` (30_encoding.md R85). -/
def haltedStatus : BitVec 4 := 15

/-- `respond(...)`: answer the command (R16, R84). -/
def respond (r : Response) (s : State) : State := { s with rsps := s.rsps ++ [r] }

/-- `raise E`: latch the code, answer with it, and nothing else (60_exceptions.md R256). This is taking an exception,
shared by every command that raises. -/
def raise (e : ErrorKind) (s : State) : State := respond { st := errCode e } { s with err := errCode e }

/-- A refused command: no change but the answer `Halted` (60_exceptions.md R257). -/
def refuseHalted (s : State) : State := respond { st := haltedStatus } s

/-- The halt gate: while `ERR != 0` the command is refused (60_exceptions.md R257, 46_system.md R230). -/
def haltGate (s : State) (k : Out) : Out := if s.err = 0 then k else .next (refuseHalted s)

/-- `emit_byte` for each element of a frame, in order (R16, 10_state.md R38). -/
def emitBytes (v : List Byte) (s : State) : State := { s with bout := s.bout ++ frame v }

/-- `emit_sym` for each element of a frame, in order (R16, 10_state.md R38). -/
def emitSyms (v : List Sym) (s : State) : State := { s with sout := s.sout ++ frame v }

/-- `FT[sym]` (10_state.md R23). -/
def count (ft : Table Count) (a : Sym) : Count := (ft.get? a.toNat).getD 0

/-- `FT` with `FT[sym]` written. A count of 0 is no entry (10_state.md R23, 40_frequency_counter.md R113). -/
def writeCount (ft : Table Count) (a : Sym) (c : Count) : Table Count :=
  if c = 0 then ft.erase a.toNat else ft.insert a.toNat c

/-- `FT[sym] <- c`. -/
def setCount (a : Sym) (c : Count) (s : State) : State := { s with ft := writeCount s.ft a c }

/-- `CT[sym].code`, `none` when `CT[sym].v = 0` (10_state.md R28). -/
def codeOf (ct : Table Bits) (a : Sym) : Option Bits := ct.get? a.toNat

/-- `lookup(ICT, c)`: the symbol of the entry equal to `c`, `none` for the empty bitstring and for one longer than
`CODE_MAX` (10_state.md R31). -/
def lookup (ict : List IctEntry) (c : Bits) : Option Sym :=
  if c.length = 0 ∨ Config.codeMax < c.length then none
  else (ict.find? (fun e => e.code == c)).map IctEntry.sym

/-- Write the tree store (`NODE`, `INQ`, `NXT`), `ROOT` and `TREE_V` (41_tree_builder.md R131). -/
def storeTree (node : Table Node) (inq : List Nat) (nxt : NextIdx) (root : Idx) (s : State) : State :=
  { s with node := node, inq := inq, nxt := nxt, root := root, treeV := true }

/-- Write both code tables and `TBL_V`, the traversal scratch left empty (42_code_table_generator.md R151, 10_state.md
R36). -/
def storeTables (ct : Table Bits) (ict : List IctEntry) (s : State) : State :=
  { s with ct := ct, ict := ict, tblV := true, stk := [], path := [] }

/-- `PBUF <- v` (10_state.md R32). -/
def setPbuf (v : Bits) (s : State) : State := { s with pbuf := v }

/-- `UBUF <- v` (10_state.md R33). -/
def setUbuf (v : List Byte) (s : State) : State := { s with ubuf := v }

/-- `EBITS <- v` (10_state.md R34). -/
def setEbits (v : Bits) (s : State) : State := { s with ebits := v }

/-- What `DEC` leaves in its scratch registers when it completes (45_symbol_decoder.md R211). -/
def setScan (pos : Nat) (s : State) : State := { s with cand := [], dead := false, dpos := pos }

/-- Every piece of state at its reset value but what has left the core and what the host does next (10_state.md R43,
R38, 60_exceptions.md R265). The one operation behind the command `RST` and the input `rst` (70_reset_and_hazards.md
R291). -/
def toReset (s : State) : State :=
  { State.reset with bout := s.bout, sout := s.sout, rsps := s.rsps, host := s.host }

end Sys2Proof.Machine
end

