-- ==== Sys2Proof/Machine/BitPacker.lean ====
section
/-! DEFINITION. Unit 4, BitPacker: `PKS`, `PKE` (spec/43_bit_packer.md R170 to R178). -/

namespace Sys2Proof.Machine

/-- `padlen(L)` (R174). -/
def padlen : Config.PadMode → Nat → Nat
  | .normalized, L => (8 - L % 8) % 8
  | .reference, L => 8 - L % 8

/-- The payload would pass the capacity `PBUF_BITS` (R172). An infinite one is never passed. -/
def overPbuf (p : Config.Params) (n : Nat) : Bool :=
  match p.pbufBits with
  | none => false
  | some cap => decide (cap < n)

/-- The stream's bits: header, payload, zero pad (R173, 20_memory.md R62). -/
def streamBits (m : Config.PadMode) (P : Bits) : Bits :=
  bits8 (BitVec.ofNat 8 (padlen m P.length)) ++ P ++ zeros (padlen m P.length)

/-- Serialisation: group `k` is `S[8k .. 8k+8]`, its first bit the byte's bit 7 (R175). -/
def toBytes (S : Bits) : List Byte := (List.range (S.length / 8)).map (fun k => byteOf (slice S (8 * k) (8 * k + 8)))

/-- The bytes of the stream of a payload (R173). -/
def packStream (m : Config.PadMode) (P : Bits) : List Byte := toBytes (streamBits m P)

/-- `PKS s` for given parameters (R171): `MissingCode`, then `BufferOverflow`, else the code is appended. -/
def packSymbol (p : Config.Params) (a : Sym) (s : State) : Out :=
  haltGate s <|
    match codeOf s.ct a with
    | none => .next (raise .missingCode s)
    | some c =>
      if overPbuf p (s.pbuf.length + c.length) then .next (raise .bufferOverflow s)
      else .next (respond { d := BitVec.ofNat 40 (s.pbuf ++ c).length } (setPbuf (s.pbuf ++ c) s))

/-- `PKE` for given parameters (R173). -/
def packEnd (p : Config.Params) (s : State) : Out :=
  haltGate s <|
    .next (respond
      { x := BitVec.ofNat 9 (padlen p.padMode s.pbuf.length)
        d := BitVec.ofNat 40 (packStream p.padMode s.pbuf).length }
      (setPbuf [] (emitBytes (packStream p.padMode s.pbuf) s)))

/-- `PKS s` (R171). -/
def execPks (a : Sym) (s : State) : Out := packSymbol Config.thisHardware a s

/-- `PKE` (R173). -/
def execPke (s : State) : Out := packEnd Config.thisHardware s

end Sys2Proof.Machine
end

