-- ==== Sys2Proof/Machine/BitUnpacker.lean ====
section
/-! DEFINITION. Unit 5, BitUnpacker: `UPB`, `UPE` (spec/44_bit_unpacker.md R190 to R196). -/

namespace Sys2Proof.Machine

/-- `UBUF` holds `UBUF_BYTES` bytes (R191). An infinite buffer is never full. -/
def ubufFull (p : Config.Params) (n : Nat) : Bool :=
  match p.ubufBytes with
  | none => false
  | some cap => n == cap

/-- The bits of a byte sequence (R192). -/
def bytesBits (B : List Byte) : Bits := B.flatMap bits8

/-- Strip header and padding: the header's value and the encoded bits, or the error (R192 to R194). -/
def unpackStream (B : List Byte) : Except ErrorKind (Nat × Bits) :=
  let T := bytesBits B
  if T.length < 8 then .error .corruptHeader
  else
    let pad := bitsVal (slice T 0 8)
    let rest := slice T 8 T.length
    if rest.length < pad then .error .corruptPadding else .ok (pad, slice rest 0 (rest.length - pad))

/-- `UPB b` for given parameters (R191). -/
def giveByte (p : Config.Params) (b : Byte) (s : State) : Out :=
  haltGate s <|
    if ubufFull p s.ubuf.length then .next (raise .bufferOverflow s)
    else .next (respond { d := BitVec.ofNat 40 (s.ubuf ++ [b]).length } (setUbuf (s.ubuf ++ [b]) s))

/-- `UPB b` (R191). -/
def execUpb (b : Byte) (s : State) : Out := giveByte Config.thisHardware b s

/-- `UPE` (R192): `CorruptHeader`, then `CorruptPadding`, else `EBITS` is replaced (R195) and `UBUF` emptied. -/
def execUpe (s : State) : Out :=
  haltGate s <|
    match unpackStream s.ubuf with
    | .error e => .next (raise e s)
    | .ok (pad, bits) =>
      .next (respond { x := BitVec.ofNat 9 pad, d := BitVec.ofNat 40 bits.length } (setUbuf [] (setEbits bits s)))

end Sys2Proof.Machine
end

