-- ==== Sys2Proof/Machine/Flags.lean ====
section
/-! DEFINITION. The flags, the status register and the response word (spec/10_state.md R39, R40, 30_encoding.md R84,
60_exceptions.md R263). -/

namespace Sys2Proof.Machine

/-- The core is halted: `ERR != 0` (10_state.md R40, 60_exceptions.md R257). -/
def halted (s : State) : Bool := s.err != 0

/-- The output `err_o` (60_exceptions.md R263). -/
def errO (s : State) : Bool := halted s

/-- `STATUS`: bits 3:0 `ERR`, bit 4 `TREE_V`, bit 5 `TBL_V`, the rest 0 (10_state.md R39). -/
def statusReg (s : State) : BitVec 40 :=
  (0#34 : BitVec 34) ++ BitVec.ofBool s.tblV ++ BitVec.ofBool s.treeV ++ s.err

/-- The flag `f[0]` of a read, `f[1]` being 0 (30_encoding.md R84). -/
def validFlag (v : Bool) : BitVec 2 := (BitVec.ofBool v).setWidth 2

/-- The symbol is present in the frequency table (10_state.md R23). -/
def present (c : Count) : Bool := c != 0

/-- The response word `RSP327` (30_encoding.md R84). -/
def Response.toWord (r : Response) : RspWord := r.st ++ r.f ++ r.x ++ r.y ++ r.d ++ r.len ++ r.code

end Sys2Proof.Machine
end

