-- ==== Sys2Proof/Machine/Operands.lean ====
section
/-! DEFINITION. The operand forms: a table element named by a command's operand (spec/20_memory.md R65, R67, R68). The
symbol operand indexes `FT` and `CT` (`count`, `codeOf` in Ops.lean), the index operand indexes `NODE`. -/

namespace Sys2Proof.Machine

/-- `NODE[i]` as far as it holds a node, by a 9-bit index. The value 511 names no slot (R68). -/
def nodeAt (node : Table Node) (i : Idx) : Option Node :=
  if Config.nnode ≤ i.toNat then none else node.get? i.toNat

/-- The frequency of a node (10_state.md R24). -/
def Node.freq : Node → Freq
  | .leaf f _ => f
  | .internal f _ _ => f

/-- `NODE[i].freq`, 0 in an empty slot (10_state.md R24, R43). -/
def freqAt (node : Table Node) (i : Nat) : Freq := ((node.get? i).map Node.freq).getD 0

/-- The answer to a read of a node slot (41_tree_builder.md R139): a leaf shows its symbol in `x`, an internal node its
children in `x` and `y`, an empty slot shows nothing. -/
def nodeResponse : Option Node → Response
  | none => {}
  | some (.leaf f a) => { f := 3, x := a.setWidth 9, d := f }
  | some (.internal f l r) => { f := 1, x := l, y := r, d := f }

end Sys2Proof.Machine
end

