-- ==== Sys2Proof/Machine/CodeTableGenerator.lean ====
section
/-! DEFINITION. Unit 3, CodeTableGenerator: `GEN`, `TRD` (spec/42_code_table_generator.md R150 to R160). -/

namespace Sys2Proof.Machine

/-- The two tables `GEN` writes, always together (R154). -/
structure CodeTables where
  ct : Table Bits
  ict : List IctEntry
  deriving DecidableEq, Repr

/-- `clear_tables()` (R154). -/
def clearTables : CodeTables := { ct := [], ict := [] }

/-- `assign(s, c)` (R154). -/
def assign (t : CodeTables) (e : Sym × Bits) : CodeTables where
  ct := t.ct.insert e.1.toNat e.2
  ict := t.ict ++ [{ code := e.2, sym := e.1 }]

/-- `walk(n, path)` (R152): the assignments in pre-order, left before right. The first argument is the stack's free
entries (R36): the traversal of a tree needs at most `CODE_MAX + 1`. `none` where the slots are no such tree. -/
def walk (node : Table Node) : Nat → Idx → Bits → Option (List (Sym × Bits))
  | 0, _, _ => none
  | k + 1, n, path =>
    match nodeAt node n with
    | none => none
    | some (.leaf _ a) => some [(a, path)]
    | some (.internal _ l r) =>
      match walk node k l (path ++ [false]) with
      | none => none
      | some x =>
        match walk node k r (path ++ [true]) with
        | none => none
        | some y => some (x ++ y)

/-- The assignments of a tree. A root that is a leaf gets the code `"0"` (R153). -/
def assignments (node : Table Node) (root : Idx) : Option (List (Sym × Bits)) :=
  match nodeAt node root with
  | some (.leaf _ a) => some [(a, [false])]
  | _ => walk node (Config.codeMax + 1) root []

/-- Both tables, cleared and then written in order (R151, R154). -/
def tablesOf (as : List (Sym × Bits)) : CodeTables := as.foldl assign clearTables

/-- `GEN` (R151): `NoTree` before anything is written, else both tables. -/
def execGen (s : State) : Out :=
  haltGate s <|
    if s.treeV = false then .next (raise .noTree s)
    else
      match assignments s.node s.root with
      | none => .fault .malformedTree
      | some as =>
        .next (respond { d := BitVec.ofNat 40 (tablesOf as).ct.length }
          (storeTables (tablesOf as).ct (tablesOf as).ict s))

/-- The answer to a read of a code entry (R155). -/
def codeResponse : Option Bits → Response
  | none => {}
  | some c => { f := 1, len := BitVec.ofNat 8 c.length, code := codeField c }

/-- `TRD s` (R155): a symbol without a code is no error. -/
def execTrd (a : Sym) (s : State) : Out := haltGate s (.next (respond (codeResponse (codeOf s.ct a)) s))

end Sys2Proof.Machine
end

