-- ==== Sys2Proof/Machine/FrequencyCounter.lean ====
section
/-! DEFINITION. Unit 1, FrequencyCounter: `CNT`, `FWR`, `FRD` (spec/40_frequency_counter.md R110 to R116). -/

namespace Sys2Proof.Machine

/-- `CNT s` (R111): `CountOverflow` at `2^CNT_W - 1` (R112), else one more. -/
def execCnt (a : Sym) (s : State) : Out :=
  haltGate s <|
    if count s.ft a = Config.countMax then .next (raise .countOverflow s)
    else .next (respond { d := (count s.ft a + 1).setWidth 40 } (setCount a (count s.ft a + 1) s))

/-- `FWR s, c` (R113). -/
def execFwr (a : Sym) (c : Count) (s : State) : Out := haltGate s (.next (respond {} (setCount a c s)))

/-- `FRD s` (R114). -/
def execFrd (a : Sym) (s : State) : Out :=
  haltGate s (.next (respond { f := validFlag (present (count s.ft a)), d := (count s.ft a).setWidth 40 } s))

end Sys2Proof.Machine
end

