-- ==== Sys2Proof/Machine/SymbolDecoder.lean ====
section
/-! DEFINITION. Unit 6, SymbolDecoder: `DEC` (spec/45_symbol_decoder.md R210 to R219). -/

namespace Sys2Proof.Machine

/-- The decoder's loop over the bits not yet taken: the candidate at the end and the symbols matched (R211). The
candidate is unbounded (R216). -/
def scan (ict : List IctEntry) : Bits → Bits → List Sym → Bits × List Sym
  | [], cand, out => (cand, out)
  | b :: bs, cand, out =>
    match lookup ict (cand ++ [b]) with
    | some m => scan ict bs [] (out ++ [m])
    | none => scan ict bs (cand ++ [b]) out

/-- `DEC` (R211): all of `EBITS`, or `UndecodableTail` and nothing emitted (R213, R214). -/
def execDec (s : State) : Out :=
  haltGate s <|
    match scan s.ict s.ebits [] [] with
    | ([], out) =>
      .next (respond { d := BitVec.ofNat 40 out.length }
        (setEbits [] (setScan s.ebits.length (emitSyms out s))))
    | (_ :: _, _) => .next (raise .undecodableTail s)

end Sys2Proof.Machine
end

