-- ==== Sys2Proof/Machine/System.lean ====
section
/-! DEFINITION. The system commands `NOP`, `RST`, `STS` and a reserved `op` (spec/46_system.md R230 to R233). -/

namespace Sys2Proof.Machine

/-- `NOP` (R231): also while halted. -/
def execNop (s : State) : Out := .next (respond {} s)

/-- `RST` (R232): every piece of state to its reset value, also while halted. -/
def execRst (s : State) : Out := .next (respond {} (toReset s))

/-- `STS` (R233): also while halted. -/
def execSts (s : State) : Out := .next (respond { d := statusReg s } s)

/-- A command word with a reserved `op` (60_exceptions.md R261, 30_encoding.md R87): refused while halted, else
`IllegalCommand`. -/
def execReserved (_op : BitVec 8) (s : State) : Out := haltGate s (.next (raise .illegalCommand s))

end Sys2Proof.Machine
end

