-- ==== Sys2Proof/Machine/TreeBuilder.lean ====
section
/-! DEFINITION. Unit 2, TreeBuilder: `BLD`, `NRD` (spec/41_tree_builder.md R130 to R142). -/

namespace Sys2Proof.Machine

/-- What the merge engine writes: `NODE`, `INQ` and `NXT` (R130). -/
structure Engine where
  node : Table Node
  inq : List Nat
  nxt : NextIdx
  deriving DecidableEq, Repr

/-- The symbols with a count above 0, in ascending order (10_state.md R23). -/
def presentSyms (ft : Table Count) : Table Count := ft.filter (fun e => e.2 != 0)

/-- `FT[s] = 0` for every `s` (R132). -/
def noSymbol (ft : Table Count) : Bool := (presentSyms ft).isEmpty

/-- `seed()` (R133): one leaf a present symbol, each queued, every other slot empty. -/
def seed (ft : Table Count) : Engine where
  node := (presentSyms ft).map (fun e => (e.1, .leaf (e.2.setWidth 40) (BitVec.ofNat 8 e.1)))
  inq := (presentSyms ft).map Prod.fst
  nxt := 256

/-- The key order `(freq, index)`, lexicographic (00_scope.md R18). -/
def keyLt (node : Table Node) (i j : Nat) : Bool :=
  decide (freqAt node i < freqAt node j) || (freqAt node i == freqAt node j && decide (i < j))

/-- The queued slot whose key is lowest (R134, R138). -/
def lowest (node : Table Node) : List Nat → Option Nat
  | [] => none
  | i :: q =>
    match lowest node q with
    | none => some i
    | some j => if keyLt node j i then some j else some i

/-- `INQ[i] <- 1`, the queued slots staying in rising order (10_state.md R25). -/
def enqueue (i : Nat) : List Nat → List Nat
  | [] => [i]
  | j :: q => if i < j then i :: j :: q else if i = j then j :: q else j :: enqueue i q

/-- A pop: the slot with the lowest key leaves the queue (R134). -/
def pop (e : Engine) : Option (Nat × Engine) :=
  match lowest e.node e.inq with
  | none => none
  | some p => some (p, { e with inq := e.inq.erase p })

/-- The push of a merge: `NODE[NXT]` becomes the parent of `p` and `q` and is queued (R134). -/
def push (p q : Nat) (e : Engine) : Engine where
  node := e.node.insert e.nxt.toNat
    (.internal (freqAt e.node p + freqAt e.node q) (BitVec.ofNat 9 p) (BitVec.ofNat 9 q))
  inq := enqueue e.nxt.toNat e.inq
  nxt := e.nxt + 1

/-- `merge()` (R134): two pops and a push. It is called with at least two slots queued, so both pops succeed. -/
def merge (e : Engine) : Engine :=
  match pop e with
  | none => e
  | some (p, e₁) =>
    match pop e₁ with
    | none => e
    | some (q, e₂) => push p q e₂

/-- `while (number of i with INQ[i] = 1) > 1 do merge()` (R131). Each merge makes the queue shorter by one (R135), so
the queue's length is fuel enough. -/
def mergeAll : Nat → Engine → Engine
  | 0, e => e
  | k + 1, e => if 1 < e.inq.length then mergeAll k (merge e) else e

/-- The whole build, a function of `FT` alone (R140). -/
def build (ft : Table Count) : Engine := mergeAll (seed ft).inq.length (seed ft)

/-- The one slot still queued (R135). -/
def rootOf (e : Engine) : Nat := e.inq.headD 0

/-- `BLD` (R131): `EmptyAlphabet` before anything is written (R132), else the tree. -/
def execBld (s : State) : Out :=
  haltGate s <|
    if noSymbol s.ft then .next (raise .emptyAlphabet s)
    else
      let e := build s.ft
      .next (respond { x := BitVec.ofNat 9 (rootOf e), d := freqAt e.node (rootOf e) }
        (storeTree e.node e.inq e.nxt (BitVec.ofNat 9 (rootOf e)) s))

/-- `NRD i` (R139). -/
def execNrd (i : Idx) (s : State) : Out := haltGate s (.next (respond (nodeResponse (nodeAt s.node i)) s))

end Sys2Proof.Machine
end

