-- ==== Sys2Proof/Machine/Dispatch.lean ====
section
/-! DEFINITION. Dispatch of a decoded command to its meaning (spec/46_system.md R230). -/

namespace Sys2Proof.Machine

def exec (i : Instr) (s : State) : Host.Outcome State Fault Refusal :=
  match i with
  | .nop => Sys2Proof.Machine.execNop s
  | .rst => Sys2Proof.Machine.execRst s
  | .sts => Sys2Proof.Machine.execSts s
  | .cnt a => Sys2Proof.Machine.execCnt a s
  | .fwr a c => Sys2Proof.Machine.execFwr a c s
  | .frd a => Sys2Proof.Machine.execFrd a s
  | .bld => Sys2Proof.Machine.execBld s
  | .nrd n => Sys2Proof.Machine.execNrd n s
  | .gen => Sys2Proof.Machine.execGen s
  | .trd a => Sys2Proof.Machine.execTrd a s
  | .pks a => Sys2Proof.Machine.execPks a s
  | .pke => Sys2Proof.Machine.execPke s
  | .upb b => Sys2Proof.Machine.execUpb b s
  | .upe => Sys2Proof.Machine.execUpe s
  | .dec => Sys2Proof.Machine.execDec s

end Sys2Proof.Machine
end

