-- ==== Sys2Proof/Machine/Ports.lean ====
section
/-! DEFINITION. The ports: what is presented and not yet taken, `BUSY`, and the input `rst` (spec/30_encoding.md R92 to
R94, 60_exceptions.md R274, 70_reset_and_hazards.md R290 to R292, R302). -/

namespace Sys2Proof.Machine

/-- The output `cmd_ready`: not `BUSY` and not in reset (R92, 70_reset_and_hazards.md R290). -/
def cmdReady (s : State) : Bool := !s.busy && !s.inReset

/-- The output `rsp_valid` (R92). -/
def rspValid (s : State) : Bool := s.rspPort.isSome

/-- The output `bo_valid` (R92). -/
def boValid (s : State) : Bool := !s.boPort.isEmpty

/-- The output `so_valid` (R92). -/
def soValid (s : State) : Bool := !s.soPort.isEmpty

/-- Continue with the next state of an outcome. -/
def mapNext (f : State → State) : Out → Out
  | .next t => .next (f t)
  | .fault r => .fault r
  | .refused r => .refused r

/-- The command that took `s` to `t` is still in progress: the sinks have taken `taken` of its elements, the rest and
the response are presented and wait, and `BUSY = 1` (R93). -/
def holdBack (s : State) (taken : Nat) (t : State) : State :=
  { t with
    bout := s.bout ++ (t.bout.drop s.bout.length).take taken
    boPort := (t.bout.drop s.bout.length).drop taken
    sout := s.sout ++ (t.sout.drop s.sout.length).take taken
    soPort := (t.sout.drop s.sout.length).drop taken
    rsps := s.rsps
    rspPort := (t.rsps.drop s.rsps.length).head?
    busy := true }

/-- Every `ready` is raised: everything pending is transferred, then `BUSY = 0` (R93). -/
def completeTransfers (s : State) : State :=
  { s with
    bout := s.bout ++ s.boPort
    boPort := []
    sout := s.sout ++ s.soPort
    soPort := []
    rsps := s.rsps ++ s.rspPort.toList
    rspPort := none
    busy := false }

/-- The input `rst` (R290, R291): the reset state, in reset. A command in progress is abandoned: its response and the
sink elements not yet taken never come, those taken stay taken (R292). DESIGN CHOICE (log entry 19): the tables read as
cleared from here on, not edge by edge, which nothing shows while `cmd_ready = 0`. -/
def resetInput (s : State) : State := { toReset s with inReset := true }

/-- `rst` is 0 again and the tables are cleared: the core leaves reset and changes nothing else (R290, R291). -/
def endReset (s : State) : State := { s with inReset := false }

/-- What happens while a command word is presented and `cmd_ready = 0` (R93, 60_exceptions.md R274): a core in reset
leaves it, a busy core gets every `ready` and completes. The word stays presented. -/
def becomeReady (s : State) : State := if s.inReset then endReset s else completeTransfers s

/-- The host's next event is done. -/
def nextEvents (rest : List HostEvent) (s : State) : State := { s with host := rest }

end Sys2Proof.Machine
end

