-- ==== Sys2Proof/Machine/Fetch.lean ====
section
/-! DEFINITION. Taking a command word and one host event (spec/46_system.md R230, 20_memory.md R71, 30_encoding.md R93). -/

namespace Sys2Proof.Machine

/-- Dispatch of an accepted command word (R230): a command, or a reserved `op`. -/
def runWord (w : CmdWord) (s : State) : Out :=
  match decode w with
  | .instr i => exec i s
  | .reserved op => execReserved op s

/-- One host event. `rst` and `ready` are taken at once, whatever the core does. A command word is accepted when
`cmd_ready = 1`; until then it stays presented and the core becomes ready, so no event waits for ever. With no event a core
in reset leaves it, and else the core idles or stays busy (60_exceptions.md R272, 93_implementation_defined.md U9). DESIGN
CHOICE (log entries 1, 8, 9 and 19): the events, and that becoming ready takes one step. -/
def hostStep (s : State) : Out :=
  match s.host with
  | [] => .next (endReset s)
  | .command w :: rest =>
    if cmdReady s then runWord w (nextEvents rest s) else .next (becomeReady s)
  | .commandHeld w k :: rest =>
    if cmdReady s then mapNext (holdBack (nextEvents rest s) k) (runWord w (nextEvents rest s))
    else .next (becomeReady s)
  | .ready :: rest => .next (completeTransfers (nextEvents rest s))
  | .rst :: rest => .next (resetInput (nextEvents rest s))

/-- The host presents a command word next, all `ready` raised, and the command port is free. -/
def presentWord (w : CmdWord) (s : State) : State :=
  { s with host := .command w :: s.host, busy := false, inReset := false }

end Sys2Proof.Machine
end

