-- ==== Sys2Proof/Machine/Step.lean ====
section
/-! DEFINITION. One step: the host's next event, a command being one atomic step (spec/00_scope.md R19). -/

namespace Sys2Proof.Machine

/-- One step of the core and its ports. -/
def step : State → Host.Outcome State Fault Refusal := hostStep

/-- The state with one command word, numbered as spec/opcode_table.json numbers it, presented as the host's next
command. -/
def State.withFetchWord (s : State) (nbits w : Nat) : State :=
  presentWord (BitVec.ofNat 48 (w % 2 ^ nbits)) s

end Sys2Proof.Machine
end

