-- ==== Sys2Proof/WellFormed.lean ====
section
/-! DEFINITION. Well-formedness. A term of `Instr` is well-formed by its types (each operand has exactly the width of its
field, spec/30_encoding.md R81), so the checks stand where a term can be wrong: an assembler command, whose operands are
numbers (R95), and a command word (R87, R97: `canonicalWord` in Decode.lean). -/

namespace Sys2Proof

/-- Every operand fits its field: a symbol or byte at most 255, a count at most `2^32 - 1`, an index at most 511
(R95). -/
def AsmCommand.wellFormed : AsmCommand → Bool
  | .nop | .rst | .sts | .bld | .gen | .pke | .upe | .dec => true
  | .cnt s | .frd s | .trd s | .pks s => decide (s ≤ 255)
  | .upb b => decide (b ≤ 255)
  | .fwr s c => decide (s ≤ 255) && decide (c ≤ 4294967295)
  | .nrd i => decide (i ≤ 511)

/-- A command is well-formed when its canonical word is one: it decodes, and every bit it does not use is 0 (R97). -/
def Instr.wellFormed (i : Instr) : Bool := canonicalWord (encode i)

end Sys2Proof
end

