-- ==== Sys2Proof/Machine/Assembler.lean ====
section
/-! DEFINITION. The assembler: operand ranges, canonical words, the text form, and the pseudo-commands (spec/30_encoding.md
R95 to R97). It is no hardware; it is how a host writes its commands. Text is read as character codes. -/

namespace Sys2Proof.Machine

/-- The command an assembler command stands for, when every operand fits its field (R95). -/
def asmInstr (c : AsmCommand) : Option Instr :=
  if c.wellFormed then
    match c with
    | .nop => some .nop
    | .rst => some .rst
    | .sts => some .sts
    | .cnt s => some (.cnt (BitVec.ofNat 8 s))
    | .fwr s c => some (.fwr (BitVec.ofNat 8 s) (BitVec.ofNat 32 c))
    | .frd s => some (.frd (BitVec.ofNat 8 s))
    | .bld => some .bld
    | .nrd i => some (.nrd (BitVec.ofNat 9 i))
    | .gen => some .gen
    | .trd s => some (.trd (BitVec.ofNat 8 s))
    | .pks s => some (.pks (BitVec.ofNat 8 s))
    | .pke => some .pke
    | .upb b => some (.upb (BitVec.ofNat 8 b))
    | .upe => some .upe
    | .dec => some .dec
  else none

/-- The word of an assembler command: canonical, or an assembly error and no word (R95). -/
def assemble (c : AsmCommand) : Option CmdWord := (asmInstr c).map encode

/-- An operand as written: a number, or one character in single quotes, which only a symbol or byte may be (R95). -/
inductive AsmOperand where
  | number (n : Nat)
  | character (n : Nat)
  deriving DecidableEq, Repr

/-- The value of a symbol or byte operand (R95). -/
def AsmOperand.symbol : AsmOperand → Nat
  | .number n => n
  | .character n => n

/-- The value of a count or index operand (R95). -/
def AsmOperand.plain : AsmOperand → Option Nat
  | .number n => some n
  | .character _ => none

/-- A mnemonic with its operands in the order of R83's operand column (R95). -/
def asmOf (mnemonic : List Nat) (ops : List AsmOperand) : Option AsmCommand :=
  match mnemonic, ops with
  | [0x4E, 0x4F, 0x50], [] => some .nop
  | [0x52, 0x53, 0x54], [] => some .rst
  | [0x53, 0x54, 0x53], [] => some .sts
  | [0x43, 0x4E, 0x54], [s] => some (.cnt s.symbol)
  | [0x46, 0x57, 0x52], [s, c] => c.plain.map (.fwr s.symbol)
  | [0x46, 0x52, 0x44], [s] => some (.frd s.symbol)
  | [0x42, 0x4C, 0x44], [] => some .bld
  | [0x4E, 0x52, 0x44], [i] => i.plain.map .nrd
  | [0x47, 0x45, 0x4E], [] => some .gen
  | [0x54, 0x52, 0x44], [s] => some (.trd s.symbol)
  | [0x50, 0x4B, 0x53], [s] => some (.pks s.symbol)
  | [0x50, 0x4B, 0x45], [] => some .pke
  | [0x55, 0x50, 0x42], [b] => some (.upb b.symbol)
  | [0x55, 0x50, 0x45], [] => some .upe
  | [0x44, 0x45, 0x43], [] => some .dec
  | _, _ => none

/-- A blank: space or tab. DESIGN CHOICE (log entry 14). -/
def isBlank (c : Nat) : Bool := c == 0x20 || c == 0x09

/-- Drop leading blanks. -/
def skipBlanks : List Nat → List Nat
  | [] => []
  | c :: cs => if isBlank c then skipBlanks cs else c :: cs

/-- Nothing is left on the line but blanks and a comment (R95). -/
def atEnd (cs : List Nat) : Bool :=
  match skipBlanks cs with
  | [] => true
  | c :: _ => c == 0x3B

/-- A leading run of upper case letters and what follows it (R95). -/
def takeLetters : List Nat → List Nat × List Nat
  | [] => ([], [])
  | c :: cs => if 0x41 ≤ c ∧ c ≤ 0x5A then (c :: (takeLetters cs).1, (takeLetters cs).2) else ([], c :: cs)

/-- The value of a digit in a base. -/
def digitVal (base c : Nat) : Option Nat :=
  let v :=
    if 0x30 ≤ c ∧ c ≤ 0x39 then c - 0x30
    else if 0x41 ≤ c ∧ c ≤ 0x46 then c - 0x41 + 10
    else if 0x61 ≤ c ∧ c ≤ 0x66 then c - 0x61 + 10
    else 99
  if v < base then some v else none

/-- The leading digits in a base, added to an accumulator, and what follows them. -/
def takeDigits (base : Nat) : Nat → List Nat → Nat × List Nat
  | acc, [] => (acc, [])
  | acc, c :: cs =>
    match digitVal base c with
    | some v => takeDigits base (acc * base + v) cs
    | none => (acc, c :: cs)

/-- A number of at least one digit in a base. -/
def takeNumber (base : Nat) (cs : List Nat) : Option (Nat × List Nat) :=
  match cs with
  | [] => none
  | c :: _ => if (digitVal base c).isSome then some (takeDigits base 0 cs) else none

/-- One operand: `0x` and hexadecimal, decimal, or an ASCII character in single quotes (R95). DESIGN CHOICE (log entry 14):
a `;` in single quotes is the character 0x3B and starts no comment, and hexadecimal digits are of either case. -/
def takeOperand (cs : List Nat) : Option (AsmOperand × List Nat) :=
  match cs with
  | 0x27 :: c :: 0x27 :: rest => if c < 128 then some (.character c, rest) else none
  | 0x30 :: 0x78 :: rest => (takeNumber 16 rest).map (fun r => (.number r.1, r.2))
  | _ => (takeNumber 10 cs).map (fun r => (.number r.1, r.2))

/-- Operands separated by commas (R95); the first argument bounds their number. -/
def takeOperands : Nat → List Nat → Option (List AsmOperand)
  | 0, _ => none
  | k + 1, cs =>
    match takeOperand (skipBlanks cs) with
    | none => none
    | some (o, rest) =>
      match skipBlanks rest with
      | 0x2C :: more => (takeOperands k more).map (o :: ·)
      | _ => if atEnd rest then some [o] else none

/-- What a line of assembler text says (R95). -/
inductive AsmLine where
  /-- Blank, or only a comment: no command and no error. DESIGN CHOICE (log entry 14). -/
  | empty
  | command (w : CmdWord)
  /-- An assembly error: no command word. -/
  | error
  deriving DecidableEq, Repr

/-- The line's operands: none when nothing is left. -/
def lineOperands (cs : List Nat) : Option (List AsmOperand) :=
  if atEnd cs then some [] else takeOperands 3 cs

/-- Between a mnemonic and an operand stands a blank. DESIGN CHOICE (log entry 14). -/
def separated (cs : List Nat) : Bool :=
  match cs with
  | [] => true
  | c :: _ => isBlank c || c == 0x3B

/-- Assemble one line, given as character codes (R95). DESIGN CHOICE (log entry 14): blanks before the mnemonic are skipped,
and a line of blanks alone is no command and no error. -/
def assembleLine (line : List Nat) : AsmLine :=
  if atEnd line then .empty
  else
    let (m, rest) := takeLetters (skipBlanks line)
    if separated rest then
      match (lineOperands rest).bind (fun ops => (asmOf m ops).bind assemble) with
      | some w => .command w
      | none => .error
    else .error

/-- The character codes of a text. -/
def codes (text : String) : List Nat := text.toList.map Char.toNat

/-- The commands a pseudo-command expands to (R96). -/
def expand : Pseudo → List Instr
  | .count S => S.map .cnt
  | .table S => S.map .cnt ++ [.bld, .gen]
  | .pack S => S.map .pks ++ [.pke]
  | .compress S => [.rst] ++ (S.map .cnt ++ [.bld, .gen]) ++ (S.map .pks ++ [.pke])
  | .loadfreq F => F.map (fun e => .fwr e.1 e.2)
  | .unpack B => B.map .upb ++ [.upe]
  | .decompress B => B.map .upb ++ [.upe] ++ [.dec]

end Sys2Proof.Machine
end

