-- ==== Sys2Proof/Machine/MergeEngine.lean ====
section
/-! DEFINITION. The merge engine as a state machine (spec/41_tree_builder.md R137), over the scratch state `INQ`, `NXT` of
State. It is the hardware's micro-steps of one `BLD` that has passed the halt gate. `exec` does not use it. -/

namespace Sys2Proof.Machine

/-- The engine's states, with the popped slots in `pop2` and `push` (R137). -/
inductive BldState where
  | idle
  | seed
  | test
  | pop1
  | pop2 (p : Nat)
  | push (p q : Nat)
  | done
  | fail
  deriving DecidableEq, Repr

/-- The engine's part of the state. -/
def engineOf (s : State) : Engine := { node := s.node, inq := s.inq, nxt := s.nxt }

/-- Write the engine's part of the state. -/
def putEngine (e : Engine) (s : State) : State := { s with node := e.node, inq := e.inq, nxt := e.nxt }

/-- One micro-step (R137). A pop from an empty queue, which no run reaches, waits. -/
def bldMicro : BldState → State → BldState × State
  | .idle, s => if noSymbol s.ft then (.fail, s) else (.seed, s)
  | .seed, s => (.test, putEngine (seed s.ft) s)
  | .test, s => if 1 < s.inq.length then (.pop1, s) else (.done, s)
  | .pop1, s =>
    match pop (engineOf s) with
    | none => (.pop1, s)
    | some (p, e) => (.pop2 p, putEngine e s)
  | .pop2 p, s =>
    match pop (engineOf s) with
    | none => (.pop2 p, s)
    | some (q, e) => (.push p q, putEngine e s)
  | .push p q, s => (.test, putEngine (push p q (engineOf s)) s)
  | .done, s =>
    (.idle, respond { x := BitVec.ofNat 9 (rootOf (engineOf s)), d := freqAt s.node (rootOf (engineOf s)) }
      { s with root := BitVec.ofNat 9 (rootOf (engineOf s)), treeV := true })
  | .fail, s => (.idle, raise .emptyAlphabet s)

/-- At most that many micro-steps, until the engine is idle again. -/
def runBld : Nat → BldState → State → Option State
  | 0, _, _ => none
  | k + 1, b, s =>
    match bldMicro b s with
    | (.idle, t) => some t
    | (b', t) => runBld k b' t

end Sys2Proof.Machine
end

