-- ==== Sys2Proof/Machine/PrefixFsm.lean ====
section
/-! DEFINITION. The prefix-match state machine (spec/45_symbol_decoder.md R215) with the hardware's bounded candidate and its
flag `DEAD` (R216), over the scratch state `CAND`, `DEAD`, `DPOS` of State. It is the hardware's micro-steps of one `DEC`
that has passed the halt gate. `exec` does not use it. -/

namespace Sys2Proof.Machine

/-- The machine's states, with the symbols matched so far, `OUT` (R215). -/
inductive DecState where
  | idle
  | test (out : List Sym)
  | shift (out : List Sym)
  | matching (out : List Sym)
  | emit (out : List Sym) (m : Sym)
  | finish (out : List Sym)
  | flush (out : List Sym)
  | fail
  deriving DecidableEq, Repr

/-- Take the bit `EBITS[DPOS]`. A bit that arrives at a full candidate sets `DEAD` (R215, R216). -/
def shiftBit (s : State) : State :=
  if s.dead ∨ Config.codeMax ≤ s.cand.length then { s with dead := true, dpos := s.dpos + 1 }
  else { s with cand := s.cand ++ [s.ebits.getD s.dpos false], dpos := s.dpos + 1 }

/-- One micro-step (R215). -/
def decMicro : DecState → State → DecState × State
  | .idle, s => (.test [], { s with cand := [], dpos := 0, dead := false })
  | .test out, s => if s.dpos < s.ebits.length then (.shift out, s) else (.finish out, s)
  | .shift out, s => (.matching out, shiftBit s)
  | .matching out, s =>
    match if s.dead then none else lookup s.ict s.cand with
    | some m => (.emit out m, s)
    | none => (.test out, s)
  | .emit out m, s => (.test (out ++ [m]), { s with cand := [] })
  | .finish out, s => if s.cand = [] ∧ s.dead = false then (.flush out, s) else (.fail, s)
  | .flush out, s => (.idle, respond { d := BitVec.ofNat 40 out.length } (setEbits [] (emitSyms out s)))
  | .fail, s => (.idle, raise .undecodableTail s)

/-- At most that many micro-steps, until the machine is idle again. -/
def runDec : Nat → DecState → State → Option State
  | 0, _, _ => none
  | k + 1, d, s =>
    match decMicro d s with
    | (.idle, t) => some t
    | (d', t) => runDec k d' t

/-- The state without the scratch registers (10_state.md R22). -/
def clearScratch (s : State) : State :=
  { s with inq := [], cand := [], dead := false, dpos := 0, stk := [], path := [] }

end Sys2Proof.Machine
end

