-- ==== Sys2Proof/Machine/Traversal.lean ====
section
/-! DEFINITION. The generator as a state machine (spec/42_code_table_generator.md R160), over the scratch state `STK`, `PATH`
of State. It is the hardware's micro-steps of one `GEN` that has passed the halt gate. `exec` does not use it. -/

namespace Sys2Proof.Machine

/-- The generator's states (R160). -/
inductive GenState where
  | idle
  | clear
  | one
  | step
  | done
  | fail
  deriving DecidableEq, Repr

/-- `assign(s, c)` on the state (R154). -/
def assignIn (a : Sym) (c : Bits) (s : State) : State :=
  { s with
    ct := (assign { ct := s.ct, ict := s.ict } (a, c)).ct
    ict := (assign { ct := s.ct, ict := s.ict } (a, c)).ict }

/-- Pop the stack, and drop the last bit of `PATH` if the stack is not empty then (R160). -/
def popStack (rest : List (Idx × Phase)) (s : State) : GenState × State :=
  match rest with
  | [] => (.done, { s with stk := [] })
  | _ :: _ => (.step, { s with stk := rest, path := s.path.dropLast })

/-- Replace the top by its next phase and push a child (R160). A full stack, which no run reaches, waits. -/
def pushChild (n : Idx) (ph : Phase) (rest : List (Idx × Phase)) (child : Idx) (bit : Bool) (s : State) :
    GenState × State :=
  if Config.codeMax < (rest.length + 1) then (.step, s)
  else (.step, { s with stk := (child, .L) :: (n, ph) :: rest, path := s.path ++ [bit] })

/-- The state `G_STEP` (R160). An empty slot, which no run reaches, waits. -/
def genStep (s : State) : GenState × State :=
  match s.stk with
  | [] => (.done, s)
  | (n, ph) :: rest =>
    match nodeAt s.node n with
    | none => (.step, s)
    | some (.leaf _ a) => popStack rest (assignIn a s.path s)
    | some (.internal _ l r) =>
      match ph with
      | .L => pushChild n .R rest l false s
      | .R => pushChild n .UP rest r true s
      | .UP => popStack rest s

/-- The root is a leaf (R151). -/
def rootLeaf (s : State) : Option Sym :=
  match nodeAt s.node s.root with
  | some (.leaf _ a) => some a
  | _ => none

/-- One micro-step (R160). -/
def genMicro : GenState → State → GenState × State
  | .idle, s => if s.treeV then (.clear, s) else (.fail, s)
  | .clear, s =>
    match rootLeaf s with
    | some _ => (.one, { s with ct := [], ict := [], stk := [], path := [] })
    | none => (.step, { s with ct := [], ict := [], stk := [(s.root, .L)], path := [] })
  | .one, s =>
    match rootLeaf s with
    | some a => (.done, assignIn a [false] s)
    | none => (.one, s)
  | .step, s => genStep s
  | .done, s => (.idle, respond { d := BitVec.ofNat 40 s.ct.length } { s with tblV := true })
  | .fail, s => (.idle, raise .noTree s)

/-- At most that many micro-steps, until the generator is idle again. -/
def runGen : Nat → GenState → State → Option State
  | 0, _, _ => none
  | k + 1, g, s =>
    match genMicro g s with
    | (.idle, t) => some t
    | (g', t) => runGen k g' t

end Sys2Proof.Machine
end

