-- ==== Sys2Proof/Machine/Run.lean ====
section
/-! DEFINITION. A run of commands, for statements about command sequences (spec/70_reset_and_hazards.md R304). -/

namespace Sys2Proof.Machine

/-- The commands of a sequence one after another, stopping at the first outcome that is no next state. -/
def runInstrs : List Instr → State → Out
  | [], s => .next s
  | i :: is, s =>
    match exec i s with
    | .next t => runInstrs is t
    | .fault r => .fault r
    | .refused r => .refused r

end Sys2Proof.Machine
end

