-- ==== Sys2Proof/Safety.lean ====
section
/-! DEFINITION. What holds in every reachable state (spec/10_state.md R44, R30) and what a run gone wrong is
(70_reset_and_hazards.md R304), in the terms claims use. -/

namespace Sys2Proof.Machine

/-- A binary tree over slots: a leaf's slot is its symbol (10_state.md R24). -/
inductive Shape where
  | leaf (slot : Nat)
  | branch (slot : Nat) (l r : Shape)

/-- The slot at the top. -/
def Shape.slot : Shape → Nat
  | .leaf i => i
  | .branch i _ _ => i

/-- Every slot of a tree, in pre-order. -/
def Shape.slots : Shape → List Nat
  | .leaf i => [i]
  | .branch i l r => i :: (l.slots ++ r.slots)

/-- The slots of the leaves, left to right. -/
def Shape.leaves : Shape → List Nat
  | .leaf i => [i]
  | .branch _ l r => l.leaves ++ r.leaves

/-- The tree stands in the node store: leaves in the slots `0..255` with their symbol, internal nodes in `256..510`
with the two children in lower slots and the sum of their frequencies, no sum wrapping (10_state.md R24, R44(a),
00_scope.md R7, 41_tree_builder.md R141). -/
def Shape.In (node : Table Node) : Shape → Prop
  | .leaf i => i < 256 ∧ ∃ f, node.get? i = some (.leaf f (BitVec.ofNat 8 i))
  | .branch i l r =>
    256 ≤ i ∧ i < 511 ∧ l.slot < i ∧ r.slot < i ∧
    (∃ f, node.get? i = some (.internal f (BitVec.ofNat 9 l.slot) (BitVec.ofNat 9 r.slot)) ∧
      f.toNat = (freqAt node l.slot).toNat + (freqAt node r.slot).toNat) ∧
    Shape.In node l ∧ Shape.In node r

/-- The slots with `v = 1` are exactly those of one binary tree with its top in `ROOT`, none of them shared
(R44(a), 41_tree_builder.md R141). -/
def TreeOk (node : Table Node) (root : Idx) : Prop :=
  ∃ t : Shape, t.In node ∧ t.slot = root.toNat ∧ t.slots.Nodup ∧ ∀ i, (node.get? i).isSome ↔ i ∈ t.slots

/-- Every code has length `1..CODE_MAX` (R44(c), 42_code_table_generator.md R157). -/
def CodesBounded (ct : Table Bits) : Prop :=
  ∀ a c, codeOf ct a = some c → 1 ≤ c.length ∧ c.length ≤ Config.codeMax

/-- No code is a prefix of another symbol's code (R44(c), 42_code_table_generator.md R156). -/
def PrefixFree (ct : Table Bits) : Prop :=
  ∀ a b c d, codeOf ct a = some c → codeOf ct b = some d → a ≠ b → ¬ c <+: d

/-- `ICT` is the exact inverse of `CT` (10_state.md R30). -/
def ExactInverse (ct : Table Bits) (ict : List IctEntry) : Prop :=
  ∀ a c, lookup ict c = some a ↔ codeOf ct a = some c

/-- The canonical form of `FT`: keys rise, each is a symbol, no count 0 is listed (10_state.md R23). -/
abbrev ftWf (ft : Table Count) : Prop := ft.wf Config.nsym (fun c => c == 0) = true

/-- The canonical form of `NODE` (10_state.md R24). -/
abbrev nodeWf (node : Table Node) : Prop := node.wf Config.nnode (fun _ => false) = true

/-- The canonical form of `CT` (10_state.md R28). -/
abbrev ctWf (ct : Table Bits) : Prop := ct.wf Config.nsym (fun _ => false) = true

/-- The table of 10_state.md R43: what every piece of state the core has reads as after reset, the sinks aside. -/
structure HasResetValues (t : State) : Prop where
  ft : ∀ a, count t.ft a = 0
  node : ∀ i, t.node.get? i = none
  inq : t.inq = []
  root : t.root = 0
  nxt : t.nxt.toNat = Config.nsym
  treeV : t.treeV = false
  ct : ∀ a, codeOf t.ct a = none
  ict : ∀ c, lookup t.ict c = none
  tblV : t.tblV = false
  pbuf : t.pbuf = []
  ubuf : t.ubuf = []
  ebits : t.ebits = []
  cand : t.cand = [] ∧ t.dead = false
  dpos : t.dpos = 0
  stk : t.stk = [] ∧ t.path = []
  err : t.err = 0
  busy : t.busy = false

/-- What holds in every reachable state (10_state.md R44, R30, and the model's own port fields). -/
structure CoreInv (s : State) : Prop where
  ft : ftWf s.ft
  node : nodeWf s.node
  ct : ctWf s.ct
  /-- No tree, no node. -/
  noTree : s.treeV = false → s.node = []
  /-- R44(a). -/
  tree : s.treeV = true → TreeOk s.node s.root
  /-- R44(b). -/
  noTables : s.tblV = false → s.ct = [] ∧ s.ict = []
  /-- R44(c). -/
  tables : s.tblV = true → s.ct ≠ []
  codes : CodesBounded s.ct
  prefixFree : PrefixFree s.ct
  /-- R30. -/
  inverse : ExactInverse s.ct s.ict
  /-- R31: at most `NSYM` entries. -/
  ictSize : s.ict.length ≤ Config.nsym
  /-- R44(d), R32. -/
  pbuf : s.pbuf.length ≤ 524288
  /-- R44(d), R33. -/
  ubuf : s.ubuf.length ≤ 65538
  /-- R34. -/
  ebits : s.ebits.length ≤ 8 * (65538 - 1)
  /-- R44(e). -/
  err : s.err = 0 ∨ ∃ e, s.err = errCode e
  /-- R44(f). -/
  nxt : Config.nsym ≤ s.nxt.toNat ∧ s.nxt.toNat ≤ Config.nnode
  /-- Nothing waits at a port between commands (30_encoding.md R93). -/
  idle : s.busy = false → s.rspPort = none ∧ s.boPort = [] ∧ s.soPort = []
  /-- A command in progress has a response waiting (30_encoding.md R93). -/
  waiting : s.busy = true → s.rspPort.isSome = true
  /-- No command is in progress in reset (70_reset_and_hazards.md R292). -/
  abandoned : s.inReset = true → s.busy = false

/-- The errors a command can raise (60_exceptions.md R250, the column "raised by"). -/
def raisedBy : Instr → List ErrorKind
  | .cnt _ => [.countOverflow]
  | .bld => [.emptyAlphabet]
  | .gen => [.noTree]
  | .pks _ => [.missingCode, .bufferOverflow]
  | .upb _ => [.bufferOverflow]
  | .upe => [.corruptHeader, .corruptPadding]
  | .dec => [.undecodableTail]
  | .nop | .rst | .sts | .fwr _ _ | .frd _ | .nrd _ | .trd _ | .pke => []

/-- Commands executed also while the core is halted (46_system.md R230). -/
def runsHalted : Instr → Bool
  | .nop | .rst | .sts => true
  | .cnt _ | .fwr _ _ | .frd _ | .bld | .nrd _ | .gen | .trd _ | .pks _ | .pke | .upb _ | .upe | .dec => false

/-- The command words the 15 rows of the opcode map define, by `op` (30_encoding.md R83). -/
def definedOps : List (BitVec 8) :=
  [0x00, 0x01, 0x02, 0x10, 0x11, 0x12, 0x20, 0x21, 0x30, 0x31, 0x40, 0x41, 0x50, 0x51, 0x60]

/-- The host's next event asks for a reset: `rst`, or a command word that is `RST` and is accepted (60_exceptions.md
R265). -/
def asksReset (s : State) : Bool :=
  match s.host with
  | .rst :: _ => true
  | .command w :: _ => cmdReady s && decide (decode w = .instr .rst)
  | .commandHeld w _ :: _ => cmdReady s && decide (decode w = .instr .rst)
  | _ => false

/-- A run has gone wrong when some response has `st != 0` (70_reset_and_hazards.md R304). -/
def goneWrong (s : State) : Bool := s.rsps.any (fun r => r.st != 0)

/-- The slot reached from `n` by a path: left at 0, right at 1 (30_encoding.md R91). -/
def follow (node : Table Node) : Idx → Bits → Option Idx
  | n, [] => some n
  | n, b :: bs =>
    match nodeAt node n with
    | some (.internal _ l r) => follow node (if b then r else l) bs
    | _ => none

/-- The codes of a symbol sequence, joined (43_bit_packer.md R170). `none` if a symbol has no code. -/
def payloadOf (ct : Table Bits) : List Sym → Option Bits
  | [] => some []
  | a :: as =>
    match codeOf ct a, payloadOf ct as with
    | some c, some p => some (c ++ p)
    | _, _ => none

end Sys2Proof.Machine
end

