-- ==== Sys2Proof/Certificates/Slice0/Obligations.lean ====
section
/-! DEFINITION. The statements for the provers, each with the rule of spec/ it formalises. Reads go through the model's own
accessors: `count` for `FT`, `Table.get?` and `nodeAt` for `NODE`, `codeOf` for `CT`, `lookup` for `ICT`. A next state is
written as the old state with the changed fields, so each such statement is the command's frame as well. -/

open Sys2Proof Sys2Proof.Machine

/-! ### Encoding (30_encoding.md) -/

/-- Words written out in 95_test_vectors.md (V30 series, P1, P4) decode to the commands they stand for (R80, R81, R83). -/
def Obligations.SpecWordsDecode : Prop :=
  decode 0x000000000000 = .instr .nop ∧
  decode 0x010000000000 = .instr .rst ∧
  decode 0x116100000005 = .instr (.fwr 0x61 5) ∧
  decode 0x210000000102 = .instr (.nrd 258) ∧
  decode 0x00FFFFFFFFFF = .instr .nop ∧
  decode 0x1007DEADBEEF = .instr (.cnt 0x07) ∧
  decode 0x20ABCDEF0123 = .instr .bld ∧
  decode 0x2100FFFFFE07 = .instr (.nrd 7) ∧
  decode 0x300000000000 = .instr .gen ∧
  decode 0x312A00000000 = .instr (.trd 0x2A) ∧
  decode 0x400700000000 = .instr (.pks 0x07) ∧
  decode 0x50E000000000 = .instr (.upb 0xE0) ∧
  decode 0x600000000000 = .instr .dec ∧
  decode 0x61FFFFFFFFFF = .reserved 0x61

/-- For every command, the decoder reads its canonical word back with every operand, and that word is canonical (R80,
R81, R83, R97). -/
def Obligations.DecodeInvertsEncode : Prop :=
  ∀ i : Instr, decode (encode i) = .instr i ∧ i.wellFormed = true

/-- R82: two words with the same `op` that agree on the fields their command uses decode to the same thing, whatever the
other bits are. -/
def Obligations.UnusedFieldsIgnored : Prop :=
  ∀ w v : CmdWord, CmdWord.op w = CmdWord.op v →
    (∀ i, decode w = .instr i → w &&& usedBits i = v &&& usedBits i) → decode w = decode v

/-- R87 and R261: a reserved `op` is rejected by its value; it raises `IllegalCommand` unless the core is halted, and is
refused if it is. -/
def Obligations.ReservedOpsRaiseIllegalCommand : Prop :=
  ∀ w : CmdWord, CmdWord.op w ∉ definedOps →
    decode w = .reserved (CmdWord.op w) ∧
    ∀ s : State,
      (s.err = 0 → runWord w s = .next { s with err := 11, rsps := s.rsps ++ [{ st := 11 }] }) ∧
      (s.err ≠ 0 → runWord w s = .next { s with rsps := s.rsps ++ [{ st := 15 }] })

/-- R97: the canonical words are exactly the encodings. -/
def Obligations.CanonicalWordsAreEncodings : Prop :=
  ∀ w : CmdWord, canonicalWord w = true ↔ ∃ i, w = encode i

/-- R84: every field of a response stands in its bits of the response word. -/
def Obligations.ResponseWordLayout : Prop :=
  ∀ r : Response,
    r.toWord.extractLsb' 323 4 = r.st ∧ r.toWord.extractLsb' 321 2 = r.f ∧ r.toWord.extractLsb' 312 9 = r.x ∧
    r.toWord.extractLsb' 303 9 = r.y ∧ r.toWord.extractLsb' 263 40 = r.d ∧ r.toWord.extractLsb' 255 8 = r.len ∧
    r.toWord.extractLsb' 0 255 = r.code

/-- R95: the assembler refuses exactly the operands that do not fit, and what it makes is canonical and carries the
operands' values. -/
def Obligations.AssemblerChecksOperands : Prop :=
  ∀ c : AsmCommand,
    (assemble c = none ↔ c.wellFormed = false) ∧
    ∀ w, assemble c = some w → canonicalWord w = true ∧ CmdWord.op w ∈ definedOps ∧
      (∀ n, c = .cnt n → decode w = .instr (.cnt (BitVec.ofNat 8 n)) ∧ n < 256) ∧
      (∀ n, c = .frd n → decode w = .instr (.frd (BitVec.ofNat 8 n)) ∧ n < 256) ∧
      (∀ n, c = .trd n → decode w = .instr (.trd (BitVec.ofNat 8 n)) ∧ n < 256) ∧
      (∀ n, c = .pks n → decode w = .instr (.pks (BitVec.ofNat 8 n)) ∧ n < 256) ∧
      (∀ n, c = .upb n → decode w = .instr (.upb (BitVec.ofNat 8 n)) ∧ n < 256) ∧
      (∀ n k, c = .fwr n k →
        decode w = .instr (.fwr (BitVec.ofNat 8 n) (BitVec.ofNat 32 k)) ∧ n < 256 ∧ k < 2 ^ 32) ∧
      (∀ n, c = .nrd n → decode w = .instr (.nrd (BitVec.ofNat 9 n)) ∧ n < 512)

/-! ### The step, the ports and reset (46_system.md R230, 30_encoding.md R93, 70_reset_and_hazards.md) -/

/-- A step with a command word presented and `cmd_ready = 1` (not `BUSY` and not in reset, R92) runs the decoded command,
the event taken off the host's list (R230). -/
def Obligations.StepRunsDecodedCommand : Prop :=
  ∀ (s : State) (w : CmdWord) (rest : List HostEvent), s.host = .command w :: rest → s.busy = false →
    s.inReset = false →
    (∀ i, decode w = .instr i → step s = exec i { s with host := rest }) ∧
    (∀ op, decode w = .reserved op → step s = execReserved op { s with host := rest })

/-- Outside reset and with nothing from the host the core keeps all state (R272). While `BUSY = 1` it accepts no command
(R45, R93): a command word presented then stays presented, and what is pending is transferred, `BUSY` becoming 0, since the
host raises every `ready` (R274). In reset it accepts none either (R230, R290): it leaves reset and keeps all else. That a
step with no event is a next state, that a host with a command word raises every `ready`, and that leaving reset is one step
are the model's choices (log entries 8, 9 and 19). -/
def Obligations.IdleAndBusyKeepState : Prop :=
  ∀ s : State,
    (s.host = [] → s.inReset = false → step s = .next s) ∧
    (∀ w rest, (s.host = .command w :: rest ∨ ∃ k, s.host = .commandHeld w k :: rest) → s.busy = true →
      s.inReset = false →
      step s = .next { s with
        bout := s.bout ++ s.boPort, boPort := [], sout := s.sout ++ s.soPort, soPort := []
        rsps := s.rsps ++ s.rspPort.toList, rspPort := none, busy := false }) ∧
    (∀ w rest, (s.host = [] ∨ s.host = .command w :: rest ∨ ∃ k, s.host = .commandHeld w k :: rest) →
      s.inReset = true → step s = .next { s with inReset := false })

/-- R43: the values after reset, at power-on, after the command `RST` and, when `cmd_ready` first becomes 1, after the input
`rst`, from any state. The sinks are empty at power-on and untouched by the other two. -/
def Obligations.ResetValues : Prop :=
  HasResetValues State.reset ∧ State.reset.bout = [] ∧ State.reset.sout = [] ∧
  (∀ s : State, ∃ t, exec .rst s = .next t ∧ HasResetValues t ∧ t.bout = s.bout ∧ t.sout = s.sout) ∧
  (∀ (s : State) (rest : List HostEvent), s.host = .rst :: rest →
    ∃ t, step s = .next t ∧ cmdReady t = false ∧ t.bout = s.bout ∧ t.sout = s.sout ∧
      ∀ u, step t = .next u → cmdReady u = true → HasResetValues u ∧ u.bout = s.bout ∧ u.sout = s.sout)

/-- R291: the input `rst`, taken at any time, also while `BUSY = 1` or in reset, is not answered and puts the core in reset,
where its `ready` and `valid` outputs are 0. When `cmd_ready` first becomes 1 the core has the reset values and is in the
state the command `RST` leaves; the only difference is that `RST` is answered. -/
def Obligations.RstInputEqualsRstCommand : Prop :=
  ∀ (s : State) (rest : List HostEvent), s.host = .rst :: rest →
    ∃ t, step s = .next t ∧ t.rsps = s.rsps ∧ t.host = rest ∧
      cmdReady t = false ∧ rspValid t = false ∧ boValid t = false ∧ soValid t = false ∧
      ∀ u, step t = .next u → cmdReady u = true →
        HasResetValues u ∧ u.rsps = s.rsps ∧ u.host = rest ∧
          exec .rst { s with host := rest } = .next { u with rsps := u.rsps ++ [{}] }

/-- R93: a command whose transfers are held up loses nothing. When every `ready` is raised, by itself or with the next
command word, the state is the one the command reaches at once. That the host's holding of `ready` comes as events is the
model's choice (log entries 1 and 9). -/
def Obligations.HeldCommandLosesNothing : Prop :=
  ∀ (s : State) (w : CmdWord) (k : Nat) (rest : List HostEvent) (t : State),
    s.busy = false → s.inReset = false → s.rspPort = none → s.boPort = [] → s.soPort = [] →
    step { s with host := .command w :: rest } = .next t →
    (∃ u, step { s with host := .commandHeld w k :: .ready :: rest } = .next u ∧ u.busy = true ∧ step u = .next t) ∧
    ((∃ v more, rest = .command v :: more ∨ ∃ j, rest = .commandHeld v j :: more) →
      ∃ u, step { s with host := .commandHeld w k :: rest } = .next u ∧ u.busy = true ∧ step u = .next t)

/-- R292: `rst` in mid-command abandons the command. Its response never comes, of its sink elements exactly those already
taken stay, and the state is the reset state, in reset. That an event says how many were taken, and that the reset values
hold from here on, are the model's choices (log entries 9, 10 and 19). -/
def Obligations.ResetAbandonsCommand : Prop :=
  ∀ (s : State) (w : CmdWord) (k : Nat) (rest : List HostEvent) (t : State), s.busy = false → s.inReset = false →
    step { s with host := .command w :: rest } = .next t →
    ∃ u, step { s with host := .commandHeld w k :: .rst :: rest } = .next u ∧
      step u = .next { State.reset with
        bout := s.bout ++ (t.bout.drop s.bout.length).take k
        sout := s.sout ++ (t.sout.drop s.sout.length).take k
        rsps := s.rsps
        inReset := true
        host := rest }

/-- R38: nothing that has left the core is taken back, by any step, a reset among them. That the answers are kept as a
history like the sinks is the model's choice (log entry 2). -/
def Obligations.WhatLeftTheCoreStays : Prop :=
  ∀ s t : State, step s = .next t → s.bout <+: t.bout ∧ s.sout <+: t.sout ∧ s.rsps <+: t.rsps

/-! ### System commands and faults (46_system.md, 60_exceptions.md) -/

/-- R231: `NOP` answers an all-zero response and changes nothing, in any state. -/
def Obligations.NopDoesNothing : Prop :=
  (∀ w : CmdWord, CmdWord.op w = 0x00 → decode w = .instr .nop) ∧
  ∀ s : State, exec .nop s = .next { s with rsps := s.rsps ++ [{}] }

/-- R232: `RST` sets every piece of state to its reset value, keeps what has left the core, and answers, in any state. -/
def Obligations.RstRestoresReset : Prop :=
  (∀ w : CmdWord, CmdWord.op w = 0x01 → decode w = .instr .rst) ∧
  ∀ s : State, exec .rst s =
    .next { State.reset with bout := s.bout, sout := s.sout, rsps := s.rsps ++ [{}], host := s.host }

/-- R233: `STS` answers `TBL_V * 32 + TREE_V * 16 + ERR` and changes nothing, in any state. -/
def Obligations.StsReadsStatus : Prop :=
  (∀ w : CmdWord, CmdWord.op w = 0x02 → decode w = .instr .sts) ∧
  ∀ s : State, ∃ v : BitVec 40, exec .sts s = .next { s with rsps := s.rsps ++ [{ d := v }] } ∧
    v.toNat = s.tblV.toNat * 32 + s.treeV.toNat * 16 + s.err.toNat

/-- R257: while `ERR != 0` every command but `NOP`, `RST` and `STS`, defined or reserved, is refused: answered with
`st = 15` and nothing else changed. -/
def Obligations.HaltedCommandsRefused : Prop :=
  ∀ s : State, s.err ≠ 0 →
    (∀ i, runsHalted i = false → exec i s = .next { s with rsps := s.rsps ++ [{ st := 15 }] }) ∧
    (∀ op, execReserved op s = .next { s with rsps := s.rsps ++ [{ st := 15 }] })

/-- R256 and R250: a command of a core that is not halted either completes with `st = 0` and no error, or raises one of
the errors listed for it, and then only `ERR` is changed and the code answered. -/
def Obligations.FaultsWriteOnlyErr : Prop :=
  ∀ (i : Instr) (s t : State), s.err = 0 → exec i s = .next t →
    (t.err = 0 ∧ ∃ r : Response, r.st = 0 ∧ t.rsps = s.rsps ++ [r]) ∨
    (∃ e ∈ raisedBy i, t = { s with err := errCode e, rsps := s.rsps ++ [{ st := errCode e }] })

/-- R84, R85, R274: every command is answered by exactly one response, whose status is one of those listed and whose
other fields are 0 when the status is not 0. -/
def Obligations.OneResponsePerCommand : Prop :=
  ∀ (i : Instr) (s t : State), exec i s = .next t →
    ∃ r : Response, t.rsps = s.rsps ++ [r] ∧ (r.st ≠ 0 → r = { st := r.st }) ∧
      (r.st = 0 ∨ (r.st = 15 ∧ s.err ≠ 0) ∨ ∃ e ∈ raisedBy i, r.st = errCode e)

/-- R265, R266: a latched error is neither cleared nor overwritten by any step but a reset. -/
def Obligations.OnlyResetClearsErr : Prop :=
  ∀ s t : State, step s = .next t → s.err ≠ 0 → asksReset s = false → t.err = s.err

/-- R296: `CNT` and `FWR` change `FT` only, `BLD` the tree only, `GEN` the code tables only (each besides its answer, its
error and its own scratch). -/
def Obligations.StoresAreIndependent : Prop :=
  ∀ s t : State,
    (∀ a, exec (.cnt a) s = .next t → t = { s with ft := t.ft, err := t.err, rsps := t.rsps }) ∧
    (∀ a c, exec (.fwr a c) s = .next t → t = { s with ft := t.ft, rsps := t.rsps }) ∧
    (exec .bld s = .next t → t = { s with
      node := t.node, inq := t.inq, root := t.root, nxt := t.nxt, treeV := t.treeV, err := t.err, rsps := t.rsps }) ∧
    (exec .gen s = .next t → t = { s with
      ct := t.ct, ict := t.ict, tblV := t.tblV, stk := t.stk, path := t.path, err := t.err, rsps := t.rsps })

/-! ### Unit 1 (40_frequency_counter.md) -/

/-- R111: `CNT s` below the greatest count adds one to `FT[s]`, answers the new count, and changes no other count. -/
def Obligations.CntCountsOne : Prop :=
  ∀ (s : State) (a : Sym), s.err = 0 → (count s.ft a).toNat ≠ 2 ^ 32 - 1 →
    ∃ ft d, exec (.cnt a) s = .next { s with ft := ft, rsps := s.rsps ++ [{ d := d }] } ∧
      d.toNat = (count s.ft a).toNat + 1 ∧ (count ft a).toNat = (count s.ft a).toNat + 1 ∧
      ∀ b, b ≠ a → count ft b = count s.ft b

/-- R112: `CNT s` at `2^32 - 1` raises `CountOverflow` and changes no count. -/
def Obligations.CntOverflowFaults : Prop :=
  ∀ (s : State) (a : Sym), s.err = 0 → (count s.ft a).toNat = 2 ^ 32 - 1 →
    exec (.cnt a) s = .next { s with err := 8, rsps := s.rsps ++ [{ st := 8 }] }

/-- R113: `FWR s, c` sets `FT[s]` to `c` (0 included) and no other count. -/
def Obligations.FwrSetsCount : Prop :=
  (∀ w : CmdWord, CmdWord.op w = 0x11 → decode w = .instr (.fwr (CmdWord.a w) (CmdWord.d w))) ∧
  ∀ (s : State) (a : Sym) (c : Count), s.err = 0 →
    ∃ ft, exec (.fwr a c) s = .next { s with ft := ft, rsps := s.rsps ++ [{}] } ∧ count ft a = c ∧
      ∀ b, b ≠ a → count ft b = count s.ft b

/-- R114: `FRD s` answers the count and whether it is above 0. -/
def Obligations.FrdReadsCount : Prop :=
  (∀ w : CmdWord, CmdWord.op w = 0x12 → decode w = .instr (.frd (CmdWord.a w))) ∧
  ∀ (s : State) (a : Sym), s.err = 0 →
    ∃ f d, exec (.frd a) s = .next { s with rsps := s.rsps ++ [{ f := f, d := d }] } ∧
      d.toNat = (count s.ft a).toNat ∧ f = if 0 < (count s.ft a).toNat then 1 else 0

/-- R110: counting a sequence from an all-zero table gives each symbol's number of occurrences, and touches nothing
else. -/
def Obligations.CountingGivesOccurrences : Prop :=
  ∀ (S : List Sym) (s : State), s.err = 0 → (∀ a, count s.ft a = 0) → (∀ a, S.count a < 2 ^ 32) →
    ∃ t, runInstrs (S.map .cnt) s = .next t ∧ (∀ a, (count t.ft a).toNat = S.count a) ∧
      t = { s with ft := t.ft, rsps := t.rsps } ∧ t.rsps.length = s.rsps.length + S.length

/-! ### Unit 2 (41_tree_builder.md) -/

/-- R132: `BLD` with no symbol present raises `EmptyAlphabet` and writes nothing. -/
def Obligations.BldEmptyAlphabetFaults : Prop :=
  ∀ s : State, ftWf s.ft → s.err = 0 → (∀ a, count s.ft a = 0) →
    exec .bld s = .next { s with err := 1, rsps := s.rsps ++ [{ st := 1 }] }

/-- R131, R133, R135, R136, R141: `BLD` with `L >= 1` symbols present completes. It leaves one tree, whose leaves are the
present symbols with their counts; `ROOT`, `NXT` and the queue are as R135 says, the root's frequency is the sum of all
counts, and `ROOT` and that frequency are the answer. -/
def Obligations.BldBuildsTree : Prop :=
  ∀ s : State, ftWf s.ft → s.err = 0 → (∃ a, count s.ft a ≠ 0) →
    ∃ node nxt root d,
      exec .bld s = .next { s with
        node := node, inq := [root.toNat], nxt := nxt, root := root, treeV := true
        rsps := s.rsps ++ [{ x := root, d := d }] } ∧
      TreeOk node root ∧ nodeWf node ∧
      (∀ a, nodeAt node (a.setWidth 9) =
        if count s.ft a = 0 then none else some (.leaf ((count s.ft a).setWidth 40) a)) ∧
      d = freqAt node root.toNat ∧
      d.toNat = ((List.range 256).map (fun k => (count s.ft (BitVec.ofNat 8 k)).toNat)).sum ∧
      nxt.toNat + 1 = 256 + ((List.range 256).filter (fun k => count s.ft (BitVec.ofNat 8 k) != 0)).length ∧
      (((List.range 256).filter (fun k => count s.ft (BitVec.ofNat 8 k) != 0)).length = 1 →
        ∃ a, root = a.setWidth 9 ∧ count s.ft a ≠ 0) ∧
      (2 ≤ ((List.range 256).filter (fun k => count s.ft (BitVec.ofNat 8 k) != 0)).length →
        root.toNat + 2 = 256 + ((List.range 256).filter (fun k => count s.ft (BitVec.ofNat 8 k) != 0)).length)

/-- R134: a merge pops the two queued slots with the lowest keys in order (frequency, then index), makes them left and
right child of the node in slot `NXT` with the sum of their frequencies, and queues that slot. -/
def Obligations.MergeTakesTheTwoLowest : Prop :=
  ∀ e : Engine, e.inq.Nodup → 1 < e.inq.length → (∀ i ∈ e.inq, i < e.nxt.toNat) → e.nxt.toNat < 511 →
    ∃ p q, p ∈ e.inq ∧ q ∈ e.inq ∧ p ≠ q ∧
      (∀ j ∈ e.inq, j ≠ p → (freqAt e.node p).toNat < (freqAt e.node j).toNat ∨
        ((freqAt e.node p).toNat = (freqAt e.node j).toNat ∧ p < j)) ∧
      (∀ j ∈ e.inq, j ≠ p → j ≠ q → (freqAt e.node q).toNat < (freqAt e.node j).toNat ∨
        ((freqAt e.node q).toNat = (freqAt e.node j).toNat ∧ q < j)) ∧
      (∀ i, (merge e).node.get? i = if i = e.nxt.toNat then
          some (.internal (freqAt e.node p + freqAt e.node q) (BitVec.ofNat 9 p) (BitVec.ofNat 9 q))
        else e.node.get? i) ∧
      (∀ i, i ∈ (merge e).inq ↔ i = e.nxt.toNat ∨ (i ∈ e.inq ∧ i ≠ p ∧ i ≠ q)) ∧
      (merge e).nxt.toNat = e.nxt.toNat + 1

/-- R140: two builds from equal frequency tables, in any two cores, give equal `NODE`, `ROOT` and `NXT`. -/
def Obligations.BldIsAFunctionOfCounts : Prop :=
  ∀ s₁ s₂ t₁ t₂ : State, ftWf s₁.ft → ftWf s₂.ft → (∀ a, count s₁.ft a = count s₂.ft a) →
    s₁.err = 0 → s₂.err = 0 → (∃ a, count s₁.ft a ≠ 0) → exec .bld s₁ = .next t₁ → exec .bld s₂ = .next t₂ →
    t₁.node = t₂.node ∧ t₁.root = t₂.root ∧ t₁.nxt = t₂.nxt ∧ t₁.inq = t₂.inq

/-- R139, R68: `NRD i` answers the record of the slot: a leaf, an internal node, or all 0 for an empty slot and for the
index 511, which names no slot. -/
def Obligations.NrdReadsSlot : Prop :=
  (∀ w : CmdWord, CmdWord.op w = 0x21 → decode w = .instr (.nrd ((CmdWord.d w).extractLsb' 0 9))) ∧
  ∀ (s : State) (i : Idx), s.err = 0 →
    ∃ r : Response, exec (.nrd i) s = .next { s with rsps := s.rsps ++ [r] } ∧
      (i.toNat = 511 → r = {}) ∧
      (i.toNat < 511 → s.node.get? i.toNat = none → r = {}) ∧
      (∀ f a, i.toNat < 511 → s.node.get? i.toNat = some (.leaf f a) →
        r = { f := 3, x := a.setWidth 9, y := 0, d := f }) ∧
      (∀ f l r', i.toNat < 511 → s.node.get? i.toNat = some (.internal f l r') →
        r = { f := 1, x := l, y := r', d := f })

/-- R137, R305: the merge engine's state machine, started after the halt gate, ends within 1024 micro-steps (seeding, then
at most 255 merges of two pops and one push) in the state `BLD` leaves. -/
def Obligations.MergeEngineRefinesBld : Prop :=
  ∀ s : State, ftWf s.ft → s.err = 0 → ∃ t, exec .bld s = .next t ∧ runBld 1024 .idle s = some t

/-! ### Unit 3 (42_code_table_generator.md) -/

/-- R260: `GEN` with no tree built raises `NoTree` and writes nothing. -/
def Obligations.GenNoTreeFaults : Prop :=
  ∀ s : State, s.err = 0 → s.treeV = false →
    exec .gen s = .next { s with err := 10, rsps := s.rsps ++ [{ st := 10 }] }

/-- R151, R154, R156, R157: `GEN` on a tree completes. It writes both tables and `TBL_V`: codes of length `1..CODE_MAX`,
none a prefix of another, exactly for the symbols that have a leaf, `ICT` the exact inverse, and answers their number.
That the scratch `STK` and `PATH` are left empty is the model's choice (log entry 7). -/
def Obligations.GenWritesTables : Prop :=
  ∀ s : State, s.err = 0 → s.treeV = true → TreeOk s.node s.root →
    ∃ ct ict d,
      exec .gen s = .next { s with
        ct := ct, ict := ict, tblV := true, stk := [], path := [], rsps := s.rsps ++ [{ d := d }] } ∧
      ctWf ct ∧ CodesBounded ct ∧ PrefixFree ct ∧ ExactInverse ct ict ∧
      (∀ a, (codeOf ct a).isSome ↔ ∃ f, s.node.get? a.toNat = some (.leaf f a)) ∧
      d.toNat = ((List.range 256).filter (fun k => (codeOf ct (BitVec.ofNat 8 k)).isSome)).length

/-- R153: when the root is a leaf, its symbol gets the code `"0"` and no other symbol a code. -/
def Obligations.OneLeafTreeGetsCodeZero : Prop :=
  ∀ (s : State) (f : Freq) (a : Sym), s.err = 0 → s.treeV = true → nodeAt s.node s.root = some (.leaf f a) →
    ∃ t, exec .gen s = .next t ∧ codeOf t.ct a = some [false] ∧ (∀ b, b ≠ a → codeOf t.ct b = none) ∧
      (∀ c b, lookup t.ict c = some b ↔ c = [false] ∧ b = a)

/-- R152, R91: on a tree whose root is an internal node, the code of a symbol spells the way from the root to the
symbol's leaf, left at 0 and right at 1. -/
def Obligations.CodesSpellPaths : Prop :=
  ∀ (s t : State) (f : Freq) (l r : Idx), s.err = 0 → s.treeV = true → TreeOk s.node s.root →
    nodeAt s.node s.root = some (.internal f l r) → exec .gen s = .next t →
    ∀ a c, codeOf t.ct a = some c → follow s.node s.root c = some (a.setWidth 9)

/-- R157: on a tree with at least two leaves the code is complete: every infinite bit sequence has exactly one symbol's
code as a prefix. -/
def Obligations.CodeIsComplete : Prop :=
  ∀ (s t : State) (f : Freq) (l r : Idx), s.err = 0 → s.treeV = true → TreeOk s.node s.root →
    nodeAt s.node s.root = some (.internal f l r) → exec .gen s = .next t →
    ∀ bits : Nat → Bool, ∃! a, ∃ c, codeOf t.ct a = some c ∧ c = (List.range c.length).map bits

/-- R159: equal frequency tables give equal code tables, in any core. -/
def Obligations.TablesAreAFunctionOfCounts : Prop :=
  ∀ s₁ s₂ t₁ t₂ : State, ftWf s₁.ft → ftWf s₂.ft → (∀ a, count s₁.ft a = count s₂.ft a) →
    s₁.err = 0 → s₂.err = 0 → (∃ a, count s₁.ft a ≠ 0) →
    runInstrs [.bld, .gen] s₁ = .next t₁ → runInstrs [.bld, .gen] s₂ = .next t₂ →
    t₁.ct = t₂.ct ∧ t₁.ict = t₂.ict

/-- R158, the two sums: after `BLD` and `GEN` the total of count times code length over
all symbols is the sum of the frequencies of the internal nodes when two or more symbols are present, and the count of
the one symbol when one is. -/
def Obligations.TotalLengthIsInternalSum : Prop :=
  ∀ s : State, ftWf s.ft → s.err = 0 → (∃ a, count s.ft a ≠ 0) →
    ∃ t, runInstrs [.bld, .gen] s = .next t ∧
      (2 ≤ ((List.range 256).filter (fun k => count s.ft (BitVec.ofNat 8 k) != 0)).length →
        ((List.range 256).map (fun k => (count s.ft (BitVec.ofNat 8 k)).toNat *
            ((codeOf t.ct (BitVec.ofNat 8 k)).getD []).length)).sum =
          ((List.range 255).map (fun j => (freqAt t.node (256 + j)).toNat)).sum) ∧
      (∀ a, (∀ b, count s.ft b ≠ 0 ↔ b = a) →
        ((List.range 256).map (fun k => (count s.ft (BitVec.ofNat 8 k)).toNat *
            ((codeOf t.ct (BitVec.ofNat 8 k)).getD []).length)).sum = (count s.ft a).toNat)

/-- R158, Huffman's theorem: for the counts `BLD` reads, no prefix code over the present symbols with codes of length at
least 1 has a smaller total length than the code `GEN` makes. -/
def Obligations.CodesAreOptimal : Prop :=
  ∀ s : State, ftWf s.ft → s.err = 0 → (∃ a, count s.ft a ≠ 0) →
    ∃ t, runInstrs [.bld, .gen] s = .next t ∧
      ∀ code : Sym → Bits, (∀ a, count s.ft a ≠ 0 → 1 ≤ (code a).length) →
        (∀ a b, count s.ft a ≠ 0 → count s.ft b ≠ 0 → a ≠ b → ¬ code a <+: code b) →
        ((List.range 256).map (fun k => (count s.ft (BitVec.ofNat 8 k)).toNat *
            ((codeOf t.ct (BitVec.ofNat 8 k)).getD []).length)).sum ≤
          ((List.range 256).map (fun k => (count s.ft (BitVec.ofNat 8 k)).toNat *
            (code (BitVec.ofNat 8 k)).length)).sum

/-- R155: `TRD s` answers validity, length and the left-aligned code field, all 0 for a symbol without a code. -/
def Obligations.TrdReadsCode : Prop :=
  (∀ w : CmdWord, CmdWord.op w = 0x31 → decode w = .instr (.trd (CmdWord.a w))) ∧
  ∀ (s : State) (a : Sym), s.err = 0 → CodesBounded s.ct →
    ∃ r : Response, exec (.trd a) s = .next { s with rsps := s.rsps ++ [r] } ∧
      (codeOf s.ct a = none → r = {}) ∧
      (∀ c, codeOf s.ct a = some c → r = { f := 1, len := r.len, code := r.code } ∧ r.len.toNat = c.length ∧
        ∀ i, i < 255 → r.code.getLsbD (254 - i) = c.getD i false)

/-- R160, R305: the generator's state machine, started after the halt gate, ends in the state `GEN` leaves, whenever `GEN`
completes or raises; on a tree with `L` leaves `GEN` completes and the machine ends within `3 * (2 * L - 1) + 3`
micro-steps. -/
def Obligations.TraversalRefinesGen : Prop :=
  (∀ s t : State, s.err = 0 → exec .gen s = .next t → ∃ n, runGen n .idle s = some t) ∧
  ∀ s : State, s.err = 0 → s.treeV = true → TreeOk s.node s.root →
    ∃ t, exec .gen s = .next t ∧
      runGen (3 * (2 * ((List.range 256).filter (fun k => (s.node.get? k).isSome)).length - 1) + 3) .idle s = some t

/-! ### Unit 4 (43_bit_packer.md) -/

/-- R171: `PKS s` with a code that fits appends it to the payload and answers the new length. -/
def Obligations.PksAppendsCode : Prop :=
  ∀ (s : State) (a : Sym) (c : Bits), s.err = 0 → codeOf s.ct a = some c → s.pbuf.length + c.length ≤ 524288 →
    ∃ d, exec (.pks a) s = .next { s with pbuf := s.pbuf ++ c, rsps := s.rsps ++ [{ d := d }] } ∧
      d.toNat = s.pbuf.length + c.length

/-- R171, R172, R252: `PKS s` of a symbol without a code raises `MissingCode`, and else a code that would pass the
capacity, whatever it is, raises `BufferOverflow`; the payload is kept. With an infinite capacity the check never
fires. -/
def Obligations.PksFaults : Prop :=
  ∀ (p : Config.Params) (s : State) (a : Sym), s.err = 0 →
    (codeOf s.ct a = none → packSymbol p a s = .next { s with err := 2, rsps := s.rsps ++ [{ st := 2 }] }) ∧
    (∀ c cap, codeOf s.ct a = some c → p.pbufBits = some cap → cap < s.pbuf.length + c.length →
      packSymbol p a s = .next { s with err := 9, rsps := s.rsps ++ [{ st := 9 }] }) ∧
    (∀ c, codeOf s.ct a = some c → p.pbufBits = none →
      ∃ t, packSymbol p a s = .next t ∧ t.err = 0 ∧ t.pbuf = s.pbuf ++ c) ∧
    exec (.pks a) s = packSymbol Config.thisHardware a s

/-- R173, R174, R175: `PKE` emits one frame whose bits are the pad length, the payload and that many zeros, only its last
byte marked, empties the payload, and answers the pad length and the number of bytes. -/
def Obligations.PkeEmitsStream : Prop :=
  ∀ s : State, s.err = 0 → s.pbuf.length ≤ 524288 →
    ∃ (B : List Byte) (b : Byte) (x : Idx) (d : BitVec 40),
      exec .pke s = .next { s with
        pbuf := []
        bout := s.bout ++ (B.map (fun v => (v, false)) ++ [(b, true)])
        rsps := s.rsps ++ [{ x := x, d := d }] } ∧
      x.toNat = (8 - s.pbuf.length % 8) % 8 ∧ d.toNat = B.length + 1 ∧
      bytesBits (B ++ [b]) = bits8 (BitVec.ofNat 8 x.toNat) ++ s.pbuf ++ zeros x.toNat

/-- R176, R177: the number of bytes of a stream, in either pad mode. -/
def Obligations.StreamIsByteAligned : Prop :=
  ∀ P : Bits,
    (packStream .normalized P).length = 1 + (P.length + 7) / 8 ∧
    (packStream .reference P).length = 2 + P.length / 8 ∧
    packStream .normalized [] = [0x00] ∧ packStream .reference [] = [0x08, 0x00]

/-! ### Unit 5 (44_bit_unpacker.md) -/

/-- R191: `UPB b` with room appends the byte, uninterpreted, and answers the new length. -/
def Obligations.UpbAppendsByte : Prop :=
  ∀ (s : State) (b : Byte), s.err = 0 → s.ubuf.length < 65538 →
    ∃ d, exec (.upb b) s = .next { s with ubuf := s.ubuf ++ [b], rsps := s.rsps ++ [{ d := d }] } ∧
      d.toNat = s.ubuf.length + 1

/-- R191, R259: `UPB` with the buffer at its capacity, whatever it is, raises `BufferOverflow` and keeps the bytes; with an
infinite capacity it never does. -/
def Obligations.UpbOverflowFaults : Prop :=
  ∀ (p : Config.Params) (s : State) (b : Byte), s.err = 0 →
    (p.ubufBytes = some s.ubuf.length →
      giveByte p b s = .next { s with err := 9, rsps := s.rsps ++ [{ st := 9 }] }) ∧
    (p.ubufBytes = none → ∃ t, giveByte p b s = .next t ∧ t.err = 0 ∧ t.ubuf = s.ubuf ++ [b]) ∧
    exec (.upb b) s = giveByte Config.thisHardware b s

/-- R192 to R195: `UPE` of a header `h` and bytes `B` that hold at least `h` bits drops header and last `h` bits, whatever
they are, replaces `EBITS`, empties `UBUF`, and answers the header and the length. -/
def Obligations.UpeStripsHeaderAndPadding : Prop :=
  ∀ (s : State) (h : Byte) (B : List Byte), s.err = 0 → s.ubuf = h :: B → h.toNat ≤ 8 * B.length → B.length < 65538 →
    ∃ (x : Idx) (d : BitVec 40),
      exec .upe s = .next { s with
        ubuf := [], ebits := (bytesBits B).take (8 * B.length - h.toNat), rsps := s.rsps ++ [{ x := x, d := d }] } ∧
      x.toNat = h.toNat ∧ d.toNat = 8 * B.length - h.toNat

/-- R253, R254: `UPE` with no byte raises `CorruptHeader`; with a header above the remaining bit length it raises
`CorruptPadding`. `UBUF` and `EBITS` are kept. Equality is no error. -/
def Obligations.UpeFaults : Prop :=
  ∀ s : State, s.err = 0 →
    (s.ubuf = [] → exec .upe s = .next { s with err := 3, rsps := s.rsps ++ [{ st := 3 }] }) ∧
    (∀ h B, s.ubuf = h :: B → 8 * B.length < h.toNat →
      exec .upe s = .next { s with err := 4, rsps := s.rsps ++ [{ st := 4 }] }) ∧
    (∀ h B, s.ubuf = h :: B → 8 * B.length = h.toNat → ∃ t, exec .upe s = .next t ∧ t.err = 0 ∧ t.ebits = [])

/-- R196: for every payload `P` that fits the packer, the bytes `B` that `PKE` with `PBUF = P` emits, in either pad mode,
given to the unpacker leave `P` in `EBITS`. -/
def Obligations.UnpackInvertsPack : Prop :=
  ∀ (m : Config.PadMode) (P : Bits), P.length ≤ 524288 →
    ∃ B : List Byte,
      (∀ u : State, u.err = 0 → u.pbuf = P →
        ∃ v, packEnd { Config.thisHardware with padMode := m } u = .next v ∧ v.bout = u.bout ++ frame B) ∧
      ∀ s : State, s.err = 0 → s.ubuf = [] →
        ∃ t, runInstrs (expand (.unpack B)) s = .next t ∧ t = { s with ebits := P, rsps := t.rsps }

/-! ### Unit 6 (45_symbol_decoder.md) -/

/-- R211, R212: when `EBITS` is the joined codes of a symbol sequence, `DEC` completes: it emits exactly that sequence as
one frame, empties `EBITS`, and answers the number of symbols. That the scratch `DEAD` is left 0 is the model's choice (log
entry 7). -/
def Obligations.DecEmitsSymbols : Prop :=
  ∀ (s : State) (S : List Sym), s.err = 0 → PrefixFree s.ct → ExactInverse s.ct s.ict →
    payloadOf s.ct S = some s.ebits → s.ebits.length < 2 ^ 40 →
    ∃ d, exec .dec s = .next { s with
        ebits := [], cand := [], dead := false, dpos := s.ebits.length
        sout := s.sout ++ frame S, rsps := s.rsps ++ [{ d := d }] } ∧ d.toNat = S.length

/-- R213, R214: when `EBITS` is the joined codes of no symbol sequence, `DEC` raises `UndecodableTail`, emits nothing and
keeps `EBITS`. -/
def Obligations.DecFaultsOnBadTail : Prop :=
  ∀ s : State, s.err = 0 → ExactInverse s.ct s.ict → (∀ S, payloadOf s.ct S ≠ some s.ebits) →
    exec .dec s = .next { s with err := 5, rsps := s.rsps ++ [{ st := 5 }] }

/-- R219: no bits decode to no symbols, whatever the table, and nothing is emitted; with an empty table any bit ends in
`UndecodableTail`. -/
def Obligations.EmptyDecodes : Prop :=
  ∀ s : State, s.err = 0 →
    (s.ebits = [] → ∃ t, exec .dec s = .next t ∧ t.sout = s.sout ∧ t.err = 0 ∧ t.rsps = s.rsps ++ [({} : Response)]) ∧
    (s.ict = [] → s.ebits ≠ [] → exec .dec s = .next { s with err := 5, rsps := s.rsps ++ [{ st := 5 }] })

/-- R215, R216: the prefix-match machine with the bounded candidate and `DEAD`, started after the halt gate, ends within
`4 * len(EBITS) + 5` micro-steps in the state `DEC` leaves, the scratch registers aside. -/
def Obligations.PrefixFsmRefinesDec : Prop :=
  ∀ s : State, s.err = 0 →
    ∃ t u, exec .dec s = .next t ∧ runDec (4 * s.ebits.length + 5) .idle s = some u ∧ clearScratch u = clearScratch t

/-! ### Whole-machine statements -/

/-- R217: `COMPRESS S` emits one byte frame, and `DECOMPRESS` of it in the same core emits exactly `S` as one frame, with
no fault on the way. `S` is non-empty, its counts fit, and its payload fits the packer. -/
def Obligations.CompressDecompressRoundTrip : Prop :=
  ∀ (s : State) (S : List Sym), S ≠ [] → (∀ a, S.count a < 2 ^ 32) →
    ∃ t₁, runInstrs ([.rst] ++ expand (.table S)) s = .next t₁ ∧ t₁.err = 0 ∧
      ∃ P, payloadOf t₁.ct S = some P ∧ (P.length ≤ 524288 →
        ∃ t₂ B, runInstrs (expand (.pack S)) t₁ = .next t₂ ∧ t₂.err = 0 ∧ t₂.bout = s.bout ++ frame B ∧
          ∃ t₃, runInstrs (expand (.decompress B)) t₂ = .next t₃ ∧ t₃.err = 0 ∧ t₃.sout = s.sout ++ frame S ∧
            t₃.bout = t₂.bout)

/-- The invariant holds at reset (R43, R44). -/
def Obligations.ResetMeetsInvariant : Prop := CoreInv State.reset

/-- R44: every step from a state with the invariant leads to one. -/
def Obligations.StepKeepsInvariant : Prop := ∀ s t : State, CoreInv s → step s = .next t → CoreInv t

/-- From a state with the invariant no step stops. The one stop of the model, `malformedTree`, stands where R44(a) rules the
state out (log entry 6). That a step with no event, with a command word at a core that is not ready, or in reset is a next
state is the model's choice (log entries 8, 9 and 19). -/
def Obligations.StepNeverStops : Prop := ∀ s : State, CoreInv s → ∃ t, step s = .next t
end

