-- ==== Sys2Proof/Laws/Bits.lean ====
section
/-! SUPPORT. The laws of bitstrings and bytes: `bits8` and `byteOf` are inverse, serialising loses no bit, a code's field
holds the code. -/

namespace Sys2Proof.Machine

@[simp] theorem bits8_length (v : Byte) : (bits8 v).length = 8 := rfl

@[simp] theorem zeros_length (k : Nat) : (zeros k).length = k := by simp [zeros]

theorem bitsVal_foldl (b : Bits) (n : Nat) :
    b.foldl (fun acc x => 2 * acc + x.toNat) n = n * 2 ^ b.length + bitsVal b := by
  induction b generalizing n with
  | nil => simp [bitsVal]
  | cons x b ih =>
    have h0 := ih (2 * 0 + x.toNat)
    rw [bitsVal, List.foldl_cons, List.foldl_cons, ih, h0, List.length_cons, pow_succ]
    ring

theorem bitsVal_cons (x : Bool) (b : Bits) : bitsVal (x :: b) = x.toNat * 2 ^ b.length + bitsVal b := by
  rw [bitsVal, List.foldl_cons, bitsVal_foldl]; simp

theorem bitsVal_append (a b : Bits) : bitsVal (a ++ b) = bitsVal a * 2 ^ b.length + bitsVal b := by
  rw [bitsVal, List.foldl_append, bitsVal_foldl]; rfl

/-- An `n`-bit bitstring has a value below `2^n`. -/
theorem bitsVal_lt (b : Bits) : bitsVal b < 2 ^ b.length := by
  induction b with
  | nil => simp [bitsVal]
  | cons x b ih =>
    rw [bitsVal_cons, List.length_cons, pow_succ]
    have : x.toNat ≤ 1 := Bool.toNat_le x
    nlinarith [Nat.one_le_two_pow (n := b.length)]

/-- The value of a byte's bits is the byte's value (R15). -/
theorem bitsVal_bits8 (v : Byte) : bitsVal (bits8 v) = v.toNat := by
  revert v; decide +kernel

/-- `byte` is the inverse of `bits8` (R15). -/
theorem byteOf_bits8 (v : Byte) : byteOf (bits8 v) = v := by
  rw [byteOf, bitsVal_bits8]; simp

/-- `bits8` is the inverse of `byte` on eight bits (R15). -/
theorem bits8_byteOf {b : Bits} (h : b.length = 8) : bits8 (byteOf b) = b := by
  obtain ⟨b0, b1, b2, b3, b4, b5, b6, b7, rfl⟩ :
      ∃ b0 b1 b2 b3 b4 b5 b6 b7, b = [b0, b1, b2, b3, b4, b5, b6, b7] := by
    match b, h with
    | [b0, b1, b2, b3, b4, b5, b6, b7], _ => exact ⟨_, _, _, _, _, _, _, _, rfl⟩
  clear h
  revert b0 b1 b2 b3 b4 b5 b6 b7
  decide +kernel

@[simp] theorem toBytes_length (S : Bits) : (toBytes S).length = S.length / 8 := by simp [toBytes]

theorem bytesBits_append (A B : List Byte) : bytesBits (A ++ B) = bytesBits A ++ bytesBits B := by
  simp [bytesBits]

@[simp] theorem bytesBits_length (B : List Byte) : (bytesBits B).length = 8 * B.length := by
  induction B with
  | nil => rfl
  | cons b B ih => simp [bytesBits] at ih ⊢; omega

/-- Serialising and expanding again gives the bits back (R175, 44_bit_unpacker.md R192). -/
theorem bytesBits_toBytes {S : Bits} (h : S.length % 8 = 0) : bytesBits (toBytes S) = S := by
  have key : ∀ n, n ≤ S.length / 8 →
      bytesBits ((List.range n).map (fun k => byteOf (slice S (8 * k) (8 * k + 8)))) = S.take (8 * n) := by
    intro n hn
    induction n with
    | zero => simp [bytesBits]
    | succ n ih =>
      rw [List.range_succ, List.map_append, bytesBits_append, ih (by omega)]
      have hl : (slice S (8 * n) (8 * n + 8)).length = 8 := by
        simp only [slice, List.length_take, List.length_drop]; omega
      have hb : bytesBits [byteOf (slice S (8 * n) (8 * n + 8))] = slice S (8 * n) (8 * n + 8) := by
        simp [bytesBits, bits8_byteOf hl]
      rw [List.map_singleton, hb, slice, show 8 * n + 8 - 8 * n = 8 by omega, show 8 * (n + 1) = 8 * n + 8 by ring,
        List.take_add]
  have := key (S.length / 8) le_rfl
  rw [show 8 * (S.length / 8) = S.length by omega, List.take_length] at this
  exact this

theorem padlen_lt (m : Config.PadMode) (L : Nat) : padlen m L ≤ 8 := by
  cases m <;> simp only [padlen] <;> omega

/-- Header, payload and pad make whole bytes (43_bit_packer.md R174). -/
theorem streamBits_length (m : Config.PadMode) (P : Bits) :
    (streamBits m P).length = 8 + P.length + padlen m P.length ∧ (streamBits m P).length % 8 = 0 := by
  have h : (streamBits m P).length = 8 + P.length + padlen m P.length := by simp [streamBits]; omega
  refine ⟨h, ?_⟩
  rw [h]
  cases m <;> simp only [padlen] <;> omega

/-- Bit `i` of a bitstring in its value. -/
theorem bitsVal_testBit (b : Bits) (i : Nat) (h : i < b.length) :
    (bitsVal b).testBit (b.length - 1 - i) = b[i] := by
  induction b generalizing i with
  | nil => simp at h
  | cons x b ih =>
    rw [bitsVal_cons]
    cases i with
    | zero =>
      have := bitsVal_lt b
      rw [Nat.mul_comm, Nat.testBit_two_pow_mul_add _ this]
      cases x <;> simp
    | succ i =>
      have h' : i < b.length := by simpa using h
      have := bitsVal_lt b
      rw [Nat.mul_comm, Nat.testBit_two_pow_mul_add _ this, if_pos (by simp; omega),
        show (x :: b).length - 1 - (i + 1) = b.length - 1 - i by simp; omega, ih i h']
      simp

/-- Bit `b_i` of a code is field bit `CODE_MAX-1-i`, and the bits below the code are 0 (10_state.md R28). -/
theorem codeField_getMsbD {c : Bits} (h : c.length ≤ 255) (i : Nat) (hi : i < 255) :
    (codeField c).getLsbD (254 - i) = c.getD i false := by
  have hl : (c ++ zeros (255 - c.length)).length = 255 := by simp; omega
  have ht := bitsVal_testBit (c ++ zeros (255 - c.length)) i (by omega)
  simp only [hl] at ht
  have hd : decide (254 - i < 255) = true := by simp; omega
  rw [codeField, BitVec.getLsbD_ofNat, List.take_of_length_le (show c.length ≤ Config.codeMax from h), hd,
    Bool.true_and, show 254 - i = 255 - 1 - i by omega, ht]
  simp only [List.getElem_append, zeros]
  split
  · rename_i hc; simp [hc]
  · rename_i hc; simp [hc]

/-- A frame's elements, the marks left out, are the sequence. -/
@[simp] theorem frame_map_fst {α : Type} (v : List α) : (frame v).map Prod.fst = v := by
  induction v with
  | nil => rfl
  | cons a v ih =>
    cases v with
    | nil => rfl
    | cons b v => simpa [frame] using ih

@[simp] theorem frame_length {α : Type} (v : List α) : (frame v).length = v.length := by
  rw [← List.length_map (f := Prod.fst), frame_map_fst]

@[simp] theorem frame_nil {α : Type} : frame ([] : List α) = [] := rfl

/-- Of a frame only the last element is marked (30_encoding.md R94). -/
theorem frame_concat {α : Type} (l : List α) (x : α) : frame (l ++ [x]) = l.map (fun v => (v, false)) ++ [(x, true)] := by
  induction l with
  | nil => rfl
  | cons a l ih =>
    cases l with
    | nil => rfl
    | cons b l => simp only [List.cons_append, frame, List.map_cons] at ih ⊢; rw [ih]

/-- What unpacking a header and the bytes after it gives (44_bit_unpacker.md R192 to R194). -/
theorem unpackStream_cons (h : Byte) (B : List Byte) :
    unpackStream (h :: B) = if 8 * B.length < h.toNat then .error .corruptPadding
      else .ok (h.toNat, (bytesBits B).take (8 * B.length - h.toNat)) := by
  have e1 : bytesBits (h :: B) = bits8 h ++ bytesBits B := rfl
  have e2 : slice (bits8 h ++ bytesBits B) 0 8 = bits8 h := by simp [slice, bits8]
  have e3 : slice (bits8 h ++ bytesBits B) 8 (bits8 h ++ bytesBits B).length = bytesBits B := by
    simp only [slice]
    rw [show 8 = (bits8 h).length from rfl, List.drop_left]; simp
  unfold unpackStream
  simp only [e1, e2, e3, bitsVal_bits8]
  rw [if_neg (by simp)]
  simp [slice]

end Sys2Proof.Machine
end

