-- ==== Sys2Proof/Laws/Decoder.lean ====
section
/-! SUPPORT. The laws of the prefix-match decoder: what a scan has matched, and that it reads back joined codes of a
prefix-free table (spec/45_symbol_decoder.md R211, R212, R217). -/

namespace Sys2Proof.Machine

/-- Entries that match at all are not prefixes of one another (R212). -/
def LookupFree (ict : List IctEntry) : Prop :=
  ∀ c d a b, lookup ict c = some a → lookup ict d = some b → c <+: d → c = d

theorem lookup_ne_nil {ict : List IctEntry} {c : Bits} {a : Sym} (h : lookup ict c = some a) : c ≠ [] := by
  rintro rfl; simp [lookup] at h

theorem lookupFree_of_tables {ct : Table Bits} {ict : List IctEntry} (hp : PrefixFree ct) (hi : ExactInverse ct ict) :
    LookupFree ict := by
  intro c d a b hc hd hcd
  rw [hi] at hc hd
  by_cases hab : a = b
  · subst hab; rw [hc] at hd; cases hd; rfl
  · exact absurd hcd (hp a b c d hc hd hab)

/-- One code is read back from its first bit on, whatever follows (R212). -/
theorem scan_code {ict : List IctEntry} (hf : LookupFree ict) {a : Sym} (rest : Bits) (out : List Sym) :
    ∀ (c cand : Bits), c ≠ [] → lookup ict (cand ++ c) = some a →
      scan ict (c ++ rest) cand out = scan ict rest [] (out ++ [a]) := by
  intro c
  induction c with
  | nil => intro _ h; exact absurd rfl h
  | cons b c ih =>
    intro cand _ hl
    simp only [List.cons_append, scan]
    cases hm : lookup ict (cand ++ [b]) with
    | none =>
      cases c with
      | nil => rw [hm] at hl; simp at hl
      | cons b' c => exact ih (cand ++ [b]) (by simp) (by simpa using hl)
    | some m =>
      have := hf _ _ _ _ hm hl (by simp)
      simp at this
      subst this
      rw [hl] at hm; cases hm; rfl

/-- Joined codes are read back whole (R217). -/
theorem scan_joined {ict : List IctEntry} (hf : LookupFree ict) (cs : List (Sym × Bits)) :
    ∀ out, (∀ e ∈ cs, lookup ict e.2 = some e.1) →
      scan ict (cs.map Prod.snd).flatten [] out = ([], out ++ cs.map Prod.fst) := by
  induction cs with
  | nil => intro out _; simp [scan]
  | cons e cs ih =>
    intro out h
    have he := h e (by simp)
    rw [List.map_cons, List.flatten_cons, scan_code hf _ out e.2 [] (lookup_ne_nil he) (by simpa using he),
      ih _ fun x hx => h x (by simp [hx])]
    simp

/-- What a scan did: the bits are the joined codes of the symbols matched, and the candidate that is left (R211). -/
theorem scan_sound (ict : List IctEntry) (bits : Bits) : ∀ cand out, ∃ cs : List (Sym × Bits),
    (∀ e ∈ cs, lookup ict e.2 = some e.1) ∧ cand ++ bits = (cs.map Prod.snd).flatten ++ (scan ict bits cand out).1 ∧
      (scan ict bits cand out).2 = out ++ cs.map Prod.fst := by
  induction bits with
  | nil => intro cand out; exact ⟨[], by simp, by simp [scan], by simp [scan]⟩
  | cons b bits ih =>
    intro cand out
    simp only [scan]
    cases hm : lookup ict (cand ++ [b]) with
    | none =>
      obtain ⟨cs, h1, h2, h3⟩ := ih (cand ++ [b]) out
      exact ⟨cs, h1, by simpa using h2, h3⟩
    | some m =>
      obtain ⟨cs, h1, h2, h3⟩ := ih [] (out ++ [m])
      refine ⟨(m, cand ++ [b]) :: cs, ?_, ?_, by simpa using h3⟩
      · intro e he
        rcases List.mem_cons.1 he with rfl | he
        · exact hm
        · exact h1 e he
      · simp only [List.map_cons, List.flatten_cons, List.append_assoc, ← h2]; simp

theorem payloadOf_joined {ct : Table Bits} {ict : List IctEntry} (hi : ExactInverse ct ict) (S : List Sym) :
    ∀ P, payloadOf ct S = some P → ∃ cs : List (Sym × Bits),
      cs.map Prod.fst = S ∧ (cs.map Prod.snd).flatten = P ∧ ∀ e ∈ cs, lookup ict e.2 = some e.1 := by
  induction S with
  | nil => intro P h; simp [payloadOf] at h; subst h; exact ⟨[], rfl, rfl, by simp⟩
  | cons a S ih =>
    intro P h
    simp only [payloadOf] at h
    cases hc : codeOf ct a with
    | none => simp [hc] at h
    | some c =>
      cases hp : payloadOf ct S with
      | none => simp [hc, hp] at h
      | some p =>
        simp only [hc, hp, Option.some.injEq] at h
        subst h
        obtain ⟨cs, h1, h2, h3⟩ := ih p hp
        refine ⟨(a, c) :: cs, by simp [h1], by simp [h2], fun e he => ?_⟩
        rcases List.mem_cons.1 he with rfl | he
        · exact (hi _ _).2 hc
        · exact h3 e he

end Sys2Proof.Machine
end

