-- ==== Sys2Proof/Laws/Encoding.lean ====
section
/-! SUPPORT. The laws of the command word: its fields read back, it is made of its fields, and the used bits of a word are
the used parts of its fields (spec/30_encoding.md R80 to R82). -/

namespace Sys2Proof

theorem cmd48_getLsbD (op a : BitVec 8) (d : BitVec 32) (i : Nat) :
    (cmd48 op a d).getLsbD i =
      if i < 32 then d.getLsbD i else if i < 40 then a.getLsbD (i - 32) else op.getLsbD (i - 40) := by
  rw [cmd48, BitVec.getLsbD_append, BitVec.getLsbD_append]
  split
  · rfl
  · by_cases h : i < 40
    · rw [if_pos h, if_pos (by omega)]
    · rw [if_neg h, if_neg (by omega), Nat.sub_sub]

@[simp] theorem op_cmd48 (op a : BitVec 8) (d : BitVec 32) : CmdWord.op (cmd48 op a d) = op := by
  apply BitVec.eq_of_getLsbD_eq
  intro i hi
  rw [CmdWord.op, BitVec.getLsbD_extractLsb', cmd48_getLsbD, if_neg (by omega), if_neg (by omega),
    decide_eq_true hi, Bool.true_and, Nat.add_sub_cancel_left]

@[simp] theorem a_cmd48 (op a : BitVec 8) (d : BitVec 32) : CmdWord.a (cmd48 op a d) = a := by
  apply BitVec.eq_of_getLsbD_eq
  intro i hi
  rw [CmdWord.a, BitVec.getLsbD_extractLsb', cmd48_getLsbD, if_neg (by omega), if_pos (by omega),
    decide_eq_true hi, Bool.true_and, Nat.add_sub_cancel_left]

@[simp] theorem d_cmd48 (op a : BitVec 8) (d : BitVec 32) : CmdWord.d (cmd48 op a d) = d := by
  apply BitVec.eq_of_getLsbD_eq
  intro i hi
  rw [CmdWord.d, BitVec.getLsbD_extractLsb', cmd48_getLsbD, if_pos (by omega), decide_eq_true hi, Bool.true_and,
    Nat.zero_add]

/-- A word is made of its fields. -/
theorem cmd48_fields (w : CmdWord) : cmd48 (CmdWord.op w) (CmdWord.a w) (CmdWord.d w) = w := by
  apply BitVec.eq_of_getLsbD_eq
  intro i hi
  rw [cmd48_getLsbD, CmdWord.op, CmdWord.a, CmdWord.d, BitVec.getLsbD_extractLsb', BitVec.getLsbD_extractLsb',
    BitVec.getLsbD_extractLsb']
  split
  · rw [decide_eq_true (by omega), Bool.true_and, Nat.zero_add]
  · split
    · rw [decide_eq_true (by omega), Bool.true_and]; congr 1; omega
    · rw [decide_eq_true (by omega), Bool.true_and]; congr 1; omega

theorem cmd48_and (op a op' a' : BitVec 8) (d d' : BitVec 32) :
    cmd48 op a d &&& cmd48 op' a' d' = cmd48 (op &&& op') (a &&& a') (d &&& d') := by
  apply BitVec.eq_of_getLsbD_eq
  intro i hi
  rw [BitVec.getLsbD_and, cmd48_getLsbD, cmd48_getLsbD, cmd48_getLsbD]
  split
  · rw [BitVec.getLsbD_and]
  · split <;> rw [BitVec.getLsbD_and]

theorem cmd48_inj {op a op' a' : BitVec 8} {d d' : BitVec 32} (h : cmd48 op a d = cmd48 op' a' d') :
    op = op' ∧ a = a' ∧ d = d' :=
  ⟨by simpa using congrArg CmdWord.op h, by simpa using congrArg CmdWord.a h, by simpa using congrArg CmdWord.d h⟩

/-- Keeping all 8 bits keeps the byte. -/
theorem and_ff (a : BitVec 8) : a &&& 255#8 = a := by
  have := BitVec.and_allOnes (x := a); simpa using this

/-- Keeping all 32 bits keeps the word. -/
theorem and_ffffffff (a : BitVec 32) : a &&& 4294967295#32 = a := by
  have := BitVec.and_allOnes (x := a); simpa using this

/-- Keeping the low 9 bits is the index field (30_encoding.md R81). -/
theorem and_1ff (a : BitVec 32) : a &&& 511#32 = (a.setWidth 9).setWidth 32 := by
  apply BitVec.eq_of_toNat_eq
  rw [BitVec.toNat_and, show (511#32).toNat = 2 ^ 9 - 1 from rfl, Nat.and_two_pow_sub_one_eq_mod, BitVec.toNat_setWidth,
    BitVec.toNat_setWidth]
  omega

end Sys2Proof
end

