-- ==== Sys2Proof/Laws/State.lean ====
section
/-! SUPPORT. One lemma for each field of State under each named update, true by rfl, so that no later proof unfolds a
record update. -/

namespace Sys2Proof.Machine

variable (s : State)

@[simp] theorem respond_ft (r : Response) : (respond r s).ft = s.ft := rfl
@[simp] theorem respond_node (r : Response) : (respond r s).node = s.node := rfl
@[simp] theorem respond_inq (r : Response) : (respond r s).inq = s.inq := rfl
@[simp] theorem respond_root (r : Response) : (respond r s).root = s.root := rfl
@[simp] theorem respond_nxt (r : Response) : (respond r s).nxt = s.nxt := rfl
@[simp] theorem respond_treeV (r : Response) : (respond r s).treeV = s.treeV := rfl
@[simp] theorem respond_ct (r : Response) : (respond r s).ct = s.ct := rfl
@[simp] theorem respond_ict (r : Response) : (respond r s).ict = s.ict := rfl
@[simp] theorem respond_tblV (r : Response) : (respond r s).tblV = s.tblV := rfl
@[simp] theorem respond_pbuf (r : Response) : (respond r s).pbuf = s.pbuf := rfl
@[simp] theorem respond_ubuf (r : Response) : (respond r s).ubuf = s.ubuf := rfl
@[simp] theorem respond_ebits (r : Response) : (respond r s).ebits = s.ebits := rfl
@[simp] theorem respond_cand (r : Response) : (respond r s).cand = s.cand := rfl
@[simp] theorem respond_dead (r : Response) : (respond r s).dead = s.dead := rfl
@[simp] theorem respond_dpos (r : Response) : (respond r s).dpos = s.dpos := rfl
@[simp] theorem respond_stk (r : Response) : (respond r s).stk = s.stk := rfl
@[simp] theorem respond_path (r : Response) : (respond r s).path = s.path := rfl
@[simp] theorem respond_err (r : Response) : (respond r s).err = s.err := rfl
@[simp] theorem respond_busy (r : Response) : (respond r s).busy = s.busy := rfl
@[simp] theorem respond_inReset (r : Response) : (respond r s).inReset = s.inReset := rfl
@[simp] theorem respond_bout (r : Response) : (respond r s).bout = s.bout := rfl
@[simp] theorem respond_sout (r : Response) : (respond r s).sout = s.sout := rfl
@[simp] theorem respond_rsps (r : Response) : (respond r s).rsps = s.rsps ++ [r] := rfl
@[simp] theorem respond_rspPort (r : Response) : (respond r s).rspPort = s.rspPort := rfl
@[simp] theorem respond_boPort (r : Response) : (respond r s).boPort = s.boPort := rfl
@[simp] theorem respond_soPort (r : Response) : (respond r s).soPort = s.soPort := rfl
@[simp] theorem respond_host (r : Response) : (respond r s).host = s.host := rfl

@[simp] theorem raise_ft (e : ErrorKind) : (raise e s).ft = s.ft := rfl
@[simp] theorem raise_node (e : ErrorKind) : (raise e s).node = s.node := rfl
@[simp] theorem raise_inq (e : ErrorKind) : (raise e s).inq = s.inq := rfl
@[simp] theorem raise_root (e : ErrorKind) : (raise e s).root = s.root := rfl
@[simp] theorem raise_nxt (e : ErrorKind) : (raise e s).nxt = s.nxt := rfl
@[simp] theorem raise_treeV (e : ErrorKind) : (raise e s).treeV = s.treeV := rfl
@[simp] theorem raise_ct (e : ErrorKind) : (raise e s).ct = s.ct := rfl
@[simp] theorem raise_ict (e : ErrorKind) : (raise e s).ict = s.ict := rfl
@[simp] theorem raise_tblV (e : ErrorKind) : (raise e s).tblV = s.tblV := rfl
@[simp] theorem raise_pbuf (e : ErrorKind) : (raise e s).pbuf = s.pbuf := rfl
@[simp] theorem raise_ubuf (e : ErrorKind) : (raise e s).ubuf = s.ubuf := rfl
@[simp] theorem raise_ebits (e : ErrorKind) : (raise e s).ebits = s.ebits := rfl
@[simp] theorem raise_cand (e : ErrorKind) : (raise e s).cand = s.cand := rfl
@[simp] theorem raise_dead (e : ErrorKind) : (raise e s).dead = s.dead := rfl
@[simp] theorem raise_dpos (e : ErrorKind) : (raise e s).dpos = s.dpos := rfl
@[simp] theorem raise_stk (e : ErrorKind) : (raise e s).stk = s.stk := rfl
@[simp] theorem raise_path (e : ErrorKind) : (raise e s).path = s.path := rfl
@[simp] theorem raise_err (e : ErrorKind) : (raise e s).err = errCode e := rfl
@[simp] theorem raise_busy (e : ErrorKind) : (raise e s).busy = s.busy := rfl
@[simp] theorem raise_inReset (e : ErrorKind) : (raise e s).inReset = s.inReset := rfl
@[simp] theorem raise_bout (e : ErrorKind) : (raise e s).bout = s.bout := rfl
@[simp] theorem raise_sout (e : ErrorKind) : (raise e s).sout = s.sout := rfl
@[simp] theorem raise_rsps (e : ErrorKind) : (raise e s).rsps = s.rsps ++ [{ st := errCode e }] := rfl
@[simp] theorem raise_rspPort (e : ErrorKind) : (raise e s).rspPort = s.rspPort := rfl
@[simp] theorem raise_boPort (e : ErrorKind) : (raise e s).boPort = s.boPort := rfl
@[simp] theorem raise_soPort (e : ErrorKind) : (raise e s).soPort = s.soPort := rfl
@[simp] theorem raise_host (e : ErrorKind) : (raise e s).host = s.host := rfl

@[simp] theorem refuseHalted_ft : (refuseHalted s).ft = s.ft := rfl
@[simp] theorem refuseHalted_node : (refuseHalted s).node = s.node := rfl
@[simp] theorem refuseHalted_inq : (refuseHalted s).inq = s.inq := rfl
@[simp] theorem refuseHalted_root : (refuseHalted s).root = s.root := rfl
@[simp] theorem refuseHalted_nxt : (refuseHalted s).nxt = s.nxt := rfl
@[simp] theorem refuseHalted_treeV : (refuseHalted s).treeV = s.treeV := rfl
@[simp] theorem refuseHalted_ct : (refuseHalted s).ct = s.ct := rfl
@[simp] theorem refuseHalted_ict : (refuseHalted s).ict = s.ict := rfl
@[simp] theorem refuseHalted_tblV : (refuseHalted s).tblV = s.tblV := rfl
@[simp] theorem refuseHalted_pbuf : (refuseHalted s).pbuf = s.pbuf := rfl
@[simp] theorem refuseHalted_ubuf : (refuseHalted s).ubuf = s.ubuf := rfl
@[simp] theorem refuseHalted_ebits : (refuseHalted s).ebits = s.ebits := rfl
@[simp] theorem refuseHalted_cand : (refuseHalted s).cand = s.cand := rfl
@[simp] theorem refuseHalted_dead : (refuseHalted s).dead = s.dead := rfl
@[simp] theorem refuseHalted_dpos : (refuseHalted s).dpos = s.dpos := rfl
@[simp] theorem refuseHalted_stk : (refuseHalted s).stk = s.stk := rfl
@[simp] theorem refuseHalted_path : (refuseHalted s).path = s.path := rfl
@[simp] theorem refuseHalted_err : (refuseHalted s).err = s.err := rfl
@[simp] theorem refuseHalted_busy : (refuseHalted s).busy = s.busy := rfl
@[simp] theorem refuseHalted_inReset : (refuseHalted s).inReset = s.inReset := rfl
@[simp] theorem refuseHalted_bout : (refuseHalted s).bout = s.bout := rfl
@[simp] theorem refuseHalted_sout : (refuseHalted s).sout = s.sout := rfl
@[simp] theorem refuseHalted_rsps : (refuseHalted s).rsps = s.rsps ++ [{ st := haltedStatus }] := rfl
@[simp] theorem refuseHalted_rspPort : (refuseHalted s).rspPort = s.rspPort := rfl
@[simp] theorem refuseHalted_boPort : (refuseHalted s).boPort = s.boPort := rfl
@[simp] theorem refuseHalted_soPort : (refuseHalted s).soPort = s.soPort := rfl
@[simp] theorem refuseHalted_host : (refuseHalted s).host = s.host := rfl

@[simp] theorem emitBytes_ft (v : List Byte) : (emitBytes v s).ft = s.ft := rfl
@[simp] theorem emitBytes_node (v : List Byte) : (emitBytes v s).node = s.node := rfl
@[simp] theorem emitBytes_inq (v : List Byte) : (emitBytes v s).inq = s.inq := rfl
@[simp] theorem emitBytes_root (v : List Byte) : (emitBytes v s).root = s.root := rfl
@[simp] theorem emitBytes_nxt (v : List Byte) : (emitBytes v s).nxt = s.nxt := rfl
@[simp] theorem emitBytes_treeV (v : List Byte) : (emitBytes v s).treeV = s.treeV := rfl
@[simp] theorem emitBytes_ct (v : List Byte) : (emitBytes v s).ct = s.ct := rfl
@[simp] theorem emitBytes_ict (v : List Byte) : (emitBytes v s).ict = s.ict := rfl
@[simp] theorem emitBytes_tblV (v : List Byte) : (emitBytes v s).tblV = s.tblV := rfl
@[simp] theorem emitBytes_pbuf (v : List Byte) : (emitBytes v s).pbuf = s.pbuf := rfl
@[simp] theorem emitBytes_ubuf (v : List Byte) : (emitBytes v s).ubuf = s.ubuf := rfl
@[simp] theorem emitBytes_ebits (v : List Byte) : (emitBytes v s).ebits = s.ebits := rfl
@[simp] theorem emitBytes_cand (v : List Byte) : (emitBytes v s).cand = s.cand := rfl
@[simp] theorem emitBytes_dead (v : List Byte) : (emitBytes v s).dead = s.dead := rfl
@[simp] theorem emitBytes_dpos (v : List Byte) : (emitBytes v s).dpos = s.dpos := rfl
@[simp] theorem emitBytes_stk (v : List Byte) : (emitBytes v s).stk = s.stk := rfl
@[simp] theorem emitBytes_path (v : List Byte) : (emitBytes v s).path = s.path := rfl
@[simp] theorem emitBytes_err (v : List Byte) : (emitBytes v s).err = s.err := rfl
@[simp] theorem emitBytes_busy (v : List Byte) : (emitBytes v s).busy = s.busy := rfl
@[simp] theorem emitBytes_inReset (v : List Byte) : (emitBytes v s).inReset = s.inReset := rfl
@[simp] theorem emitBytes_bout (v : List Byte) : (emitBytes v s).bout = s.bout ++ frame v := rfl
@[simp] theorem emitBytes_sout (v : List Byte) : (emitBytes v s).sout = s.sout := rfl
@[simp] theorem emitBytes_rsps (v : List Byte) : (emitBytes v s).rsps = s.rsps := rfl
@[simp] theorem emitBytes_rspPort (v : List Byte) : (emitBytes v s).rspPort = s.rspPort := rfl
@[simp] theorem emitBytes_boPort (v : List Byte) : (emitBytes v s).boPort = s.boPort := rfl
@[simp] theorem emitBytes_soPort (v : List Byte) : (emitBytes v s).soPort = s.soPort := rfl
@[simp] theorem emitBytes_host (v : List Byte) : (emitBytes v s).host = s.host := rfl

@[simp] theorem emitSyms_ft (v : List Sym) : (emitSyms v s).ft = s.ft := rfl
@[simp] theorem emitSyms_node (v : List Sym) : (emitSyms v s).node = s.node := rfl
@[simp] theorem emitSyms_inq (v : List Sym) : (emitSyms v s).inq = s.inq := rfl
@[simp] theorem emitSyms_root (v : List Sym) : (emitSyms v s).root = s.root := rfl
@[simp] theorem emitSyms_nxt (v : List Sym) : (emitSyms v s).nxt = s.nxt := rfl
@[simp] theorem emitSyms_treeV (v : List Sym) : (emitSyms v s).treeV = s.treeV := rfl
@[simp] theorem emitSyms_ct (v : List Sym) : (emitSyms v s).ct = s.ct := rfl
@[simp] theorem emitSyms_ict (v : List Sym) : (emitSyms v s).ict = s.ict := rfl
@[simp] theorem emitSyms_tblV (v : List Sym) : (emitSyms v s).tblV = s.tblV := rfl
@[simp] theorem emitSyms_pbuf (v : List Sym) : (emitSyms v s).pbuf = s.pbuf := rfl
@[simp] theorem emitSyms_ubuf (v : List Sym) : (emitSyms v s).ubuf = s.ubuf := rfl
@[simp] theorem emitSyms_ebits (v : List Sym) : (emitSyms v s).ebits = s.ebits := rfl
@[simp] theorem emitSyms_cand (v : List Sym) : (emitSyms v s).cand = s.cand := rfl
@[simp] theorem emitSyms_dead (v : List Sym) : (emitSyms v s).dead = s.dead := rfl
@[simp] theorem emitSyms_dpos (v : List Sym) : (emitSyms v s).dpos = s.dpos := rfl
@[simp] theorem emitSyms_stk (v : List Sym) : (emitSyms v s).stk = s.stk := rfl
@[simp] theorem emitSyms_path (v : List Sym) : (emitSyms v s).path = s.path := rfl
@[simp] theorem emitSyms_err (v : List Sym) : (emitSyms v s).err = s.err := rfl
@[simp] theorem emitSyms_busy (v : List Sym) : (emitSyms v s).busy = s.busy := rfl
@[simp] theorem emitSyms_inReset (v : List Sym) : (emitSyms v s).inReset = s.inReset := rfl
@[simp] theorem emitSyms_bout (v : List Sym) : (emitSyms v s).bout = s.bout := rfl
@[simp] theorem emitSyms_sout (v : List Sym) : (emitSyms v s).sout = s.sout ++ frame v := rfl
@[simp] theorem emitSyms_rsps (v : List Sym) : (emitSyms v s).rsps = s.rsps := rfl
@[simp] theorem emitSyms_rspPort (v : List Sym) : (emitSyms v s).rspPort = s.rspPort := rfl
@[simp] theorem emitSyms_boPort (v : List Sym) : (emitSyms v s).boPort = s.boPort := rfl
@[simp] theorem emitSyms_soPort (v : List Sym) : (emitSyms v s).soPort = s.soPort := rfl
@[simp] theorem emitSyms_host (v : List Sym) : (emitSyms v s).host = s.host := rfl

@[simp] theorem setCount_ft (a : Sym) (c : Count) : (setCount a c s).ft = writeCount s.ft a c := rfl
@[simp] theorem setCount_node (a : Sym) (c : Count) : (setCount a c s).node = s.node := rfl
@[simp] theorem setCount_inq (a : Sym) (c : Count) : (setCount a c s).inq = s.inq := rfl
@[simp] theorem setCount_root (a : Sym) (c : Count) : (setCount a c s).root = s.root := rfl
@[simp] theorem setCount_nxt (a : Sym) (c : Count) : (setCount a c s).nxt = s.nxt := rfl
@[simp] theorem setCount_treeV (a : Sym) (c : Count) : (setCount a c s).treeV = s.treeV := rfl
@[simp] theorem setCount_ct (a : Sym) (c : Count) : (setCount a c s).ct = s.ct := rfl
@[simp] theorem setCount_ict (a : Sym) (c : Count) : (setCount a c s).ict = s.ict := rfl
@[simp] theorem setCount_tblV (a : Sym) (c : Count) : (setCount a c s).tblV = s.tblV := rfl
@[simp] theorem setCount_pbuf (a : Sym) (c : Count) : (setCount a c s).pbuf = s.pbuf := rfl
@[simp] theorem setCount_ubuf (a : Sym) (c : Count) : (setCount a c s).ubuf = s.ubuf := rfl
@[simp] theorem setCount_ebits (a : Sym) (c : Count) : (setCount a c s).ebits = s.ebits := rfl
@[simp] theorem setCount_cand (a : Sym) (c : Count) : (setCount a c s).cand = s.cand := rfl
@[simp] theorem setCount_dead (a : Sym) (c : Count) : (setCount a c s).dead = s.dead := rfl
@[simp] theorem setCount_dpos (a : Sym) (c : Count) : (setCount a c s).dpos = s.dpos := rfl
@[simp] theorem setCount_stk (a : Sym) (c : Count) : (setCount a c s).stk = s.stk := rfl
@[simp] theorem setCount_path (a : Sym) (c : Count) : (setCount a c s).path = s.path := rfl
@[simp] theorem setCount_err (a : Sym) (c : Count) : (setCount a c s).err = s.err := rfl
@[simp] theorem setCount_busy (a : Sym) (c : Count) : (setCount a c s).busy = s.busy := rfl
@[simp] theorem setCount_inReset (a : Sym) (c : Count) : (setCount a c s).inReset = s.inReset := rfl
@[simp] theorem setCount_bout (a : Sym) (c : Count) : (setCount a c s).bout = s.bout := rfl
@[simp] theorem setCount_sout (a : Sym) (c : Count) : (setCount a c s).sout = s.sout := rfl
@[simp] theorem setCount_rsps (a : Sym) (c : Count) : (setCount a c s).rsps = s.rsps := rfl
@[simp] theorem setCount_rspPort (a : Sym) (c : Count) : (setCount a c s).rspPort = s.rspPort := rfl
@[simp] theorem setCount_boPort (a : Sym) (c : Count) : (setCount a c s).boPort = s.boPort := rfl
@[simp] theorem setCount_soPort (a : Sym) (c : Count) : (setCount a c s).soPort = s.soPort := rfl
@[simp] theorem setCount_host (a : Sym) (c : Count) : (setCount a c s).host = s.host := rfl

@[simp] theorem storeTree_ft (n : Table Node) (q : List Nat) (x : NextIdx) (r : Idx) : (storeTree n q x r s).ft = s.ft := rfl
@[simp] theorem storeTree_node (n : Table Node) (q : List Nat) (x : NextIdx) (r : Idx) : (storeTree n q x r s).node = n := rfl
@[simp] theorem storeTree_inq (n : Table Node) (q : List Nat) (x : NextIdx) (r : Idx) : (storeTree n q x r s).inq = q := rfl
@[simp] theorem storeTree_root (n : Table Node) (q : List Nat) (x : NextIdx) (r : Idx) : (storeTree n q x r s).root = r := rfl
@[simp] theorem storeTree_nxt (n : Table Node) (q : List Nat) (x : NextIdx) (r : Idx) : (storeTree n q x r s).nxt = x := rfl
@[simp] theorem storeTree_treeV (n : Table Node) (q : List Nat) (x : NextIdx) (r : Idx) : (storeTree n q x r s).treeV = true := rfl
@[simp] theorem storeTree_ct (n : Table Node) (q : List Nat) (x : NextIdx) (r : Idx) : (storeTree n q x r s).ct = s.ct := rfl
@[simp] theorem storeTree_ict (n : Table Node) (q : List Nat) (x : NextIdx) (r : Idx) : (storeTree n q x r s).ict = s.ict := rfl
@[simp] theorem storeTree_tblV (n : Table Node) (q : List Nat) (x : NextIdx) (r : Idx) : (storeTree n q x r s).tblV = s.tblV := rfl
@[simp] theorem storeTree_pbuf (n : Table Node) (q : List Nat) (x : NextIdx) (r : Idx) : (storeTree n q x r s).pbuf = s.pbuf := rfl
@[simp] theorem storeTree_ubuf (n : Table Node) (q : List Nat) (x : NextIdx) (r : Idx) : (storeTree n q x r s).ubuf = s.ubuf := rfl
@[simp] theorem storeTree_ebits (n : Table Node) (q : List Nat) (x : NextIdx) (r : Idx) : (storeTree n q x r s).ebits = s.ebits := rfl
@[simp] theorem storeTree_cand (n : Table Node) (q : List Nat) (x : NextIdx) (r : Idx) : (storeTree n q x r s).cand = s.cand := rfl
@[simp] theorem storeTree_dead (n : Table Node) (q : List Nat) (x : NextIdx) (r : Idx) : (storeTree n q x r s).dead = s.dead := rfl
@[simp] theorem storeTree_dpos (n : Table Node) (q : List Nat) (x : NextIdx) (r : Idx) : (storeTree n q x r s).dpos = s.dpos := rfl
@[simp] theorem storeTree_stk (n : Table Node) (q : List Nat) (x : NextIdx) (r : Idx) : (storeTree n q x r s).stk = s.stk := rfl
@[simp] theorem storeTree_path (n : Table Node) (q : List Nat) (x : NextIdx) (r : Idx) : (storeTree n q x r s).path = s.path := rfl
@[simp] theorem storeTree_err (n : Table Node) (q : List Nat) (x : NextIdx) (r : Idx) : (storeTree n q x r s).err = s.err := rfl
@[simp] theorem storeTree_busy (n : Table Node) (q : List Nat) (x : NextIdx) (r : Idx) : (storeTree n q x r s).busy = s.busy := rfl
@[simp] theorem storeTree_inReset (n : Table Node) (q : List Nat) (x : NextIdx) (r : Idx) : (storeTree n q x r s).inReset = s.inReset := rfl
@[simp] theorem storeTree_bout (n : Table Node) (q : List Nat) (x : NextIdx) (r : Idx) : (storeTree n q x r s).bout = s.bout := rfl
@[simp] theorem storeTree_sout (n : Table Node) (q : List Nat) (x : NextIdx) (r : Idx) : (storeTree n q x r s).sout = s.sout := rfl
@[simp] theorem storeTree_rsps (n : Table Node) (q : List Nat) (x : NextIdx) (r : Idx) : (storeTree n q x r s).rsps = s.rsps := rfl
@[simp] theorem storeTree_rspPort (n : Table Node) (q : List Nat) (x : NextIdx) (r : Idx) : (storeTree n q x r s).rspPort = s.rspPort := rfl
@[simp] theorem storeTree_boPort (n : Table Node) (q : List Nat) (x : NextIdx) (r : Idx) : (storeTree n q x r s).boPort = s.boPort := rfl
@[simp] theorem storeTree_soPort (n : Table Node) (q : List Nat) (x : NextIdx) (r : Idx) : (storeTree n q x r s).soPort = s.soPort := rfl
@[simp] theorem storeTree_host (n : Table Node) (q : List Nat) (x : NextIdx) (r : Idx) : (storeTree n q x r s).host = s.host := rfl

@[simp] theorem storeTables_ft (c : Table Bits) (i : List IctEntry) : (storeTables c i s).ft = s.ft := rfl
@[simp] theorem storeTables_node (c : Table Bits) (i : List IctEntry) : (storeTables c i s).node = s.node := rfl
@[simp] theorem storeTables_inq (c : Table Bits) (i : List IctEntry) : (storeTables c i s).inq = s.inq := rfl
@[simp] theorem storeTables_root (c : Table Bits) (i : List IctEntry) : (storeTables c i s).root = s.root := rfl
@[simp] theorem storeTables_nxt (c : Table Bits) (i : List IctEntry) : (storeTables c i s).nxt = s.nxt := rfl
@[simp] theorem storeTables_treeV (c : Table Bits) (i : List IctEntry) : (storeTables c i s).treeV = s.treeV := rfl
@[simp] theorem storeTables_ct (c : Table Bits) (i : List IctEntry) : (storeTables c i s).ct = c := rfl
@[simp] theorem storeTables_ict (c : Table Bits) (i : List IctEntry) : (storeTables c i s).ict = i := rfl
@[simp] theorem storeTables_tblV (c : Table Bits) (i : List IctEntry) : (storeTables c i s).tblV = true := rfl
@[simp] theorem storeTables_pbuf (c : Table Bits) (i : List IctEntry) : (storeTables c i s).pbuf = s.pbuf := rfl
@[simp] theorem storeTables_ubuf (c : Table Bits) (i : List IctEntry) : (storeTables c i s).ubuf = s.ubuf := rfl
@[simp] theorem storeTables_ebits (c : Table Bits) (i : List IctEntry) : (storeTables c i s).ebits = s.ebits := rfl
@[simp] theorem storeTables_cand (c : Table Bits) (i : List IctEntry) : (storeTables c i s).cand = s.cand := rfl
@[simp] theorem storeTables_dead (c : Table Bits) (i : List IctEntry) : (storeTables c i s).dead = s.dead := rfl
@[simp] theorem storeTables_dpos (c : Table Bits) (i : List IctEntry) : (storeTables c i s).dpos = s.dpos := rfl
@[simp] theorem storeTables_stk (c : Table Bits) (i : List IctEntry) : (storeTables c i s).stk = [] := rfl
@[simp] theorem storeTables_path (c : Table Bits) (i : List IctEntry) : (storeTables c i s).path = [] := rfl
@[simp] theorem storeTables_err (c : Table Bits) (i : List IctEntry) : (storeTables c i s).err = s.err := rfl
@[simp] theorem storeTables_busy (c : Table Bits) (i : List IctEntry) : (storeTables c i s).busy = s.busy := rfl
@[simp] theorem storeTables_inReset (c : Table Bits) (i : List IctEntry) : (storeTables c i s).inReset = s.inReset := rfl
@[simp] theorem storeTables_bout (c : Table Bits) (i : List IctEntry) : (storeTables c i s).bout = s.bout := rfl
@[simp] theorem storeTables_sout (c : Table Bits) (i : List IctEntry) : (storeTables c i s).sout = s.sout := rfl
@[simp] theorem storeTables_rsps (c : Table Bits) (i : List IctEntry) : (storeTables c i s).rsps = s.rsps := rfl
@[simp] theorem storeTables_rspPort (c : Table Bits) (i : List IctEntry) : (storeTables c i s).rspPort = s.rspPort := rfl
@[simp] theorem storeTables_boPort (c : Table Bits) (i : List IctEntry) : (storeTables c i s).boPort = s.boPort := rfl
@[simp] theorem storeTables_soPort (c : Table Bits) (i : List IctEntry) : (storeTables c i s).soPort = s.soPort := rfl
@[simp] theorem storeTables_host (c : Table Bits) (i : List IctEntry) : (storeTables c i s).host = s.host := rfl

@[simp] theorem setPbuf_ft (v : Bits) : (setPbuf v s).ft = s.ft := rfl
@[simp] theorem setPbuf_node (v : Bits) : (setPbuf v s).node = s.node := rfl
@[simp] theorem setPbuf_inq (v : Bits) : (setPbuf v s).inq = s.inq := rfl
@[simp] theorem setPbuf_root (v : Bits) : (setPbuf v s).root = s.root := rfl
@[simp] theorem setPbuf_nxt (v : Bits) : (setPbuf v s).nxt = s.nxt := rfl
@[simp] theorem setPbuf_treeV (v : Bits) : (setPbuf v s).treeV = s.treeV := rfl
@[simp] theorem setPbuf_ct (v : Bits) : (setPbuf v s).ct = s.ct := rfl
@[simp] theorem setPbuf_ict (v : Bits) : (setPbuf v s).ict = s.ict := rfl
@[simp] theorem setPbuf_tblV (v : Bits) : (setPbuf v s).tblV = s.tblV := rfl
@[simp] theorem setPbuf_pbuf (v : Bits) : (setPbuf v s).pbuf = v := rfl
@[simp] theorem setPbuf_ubuf (v : Bits) : (setPbuf v s).ubuf = s.ubuf := rfl
@[simp] theorem setPbuf_ebits (v : Bits) : (setPbuf v s).ebits = s.ebits := rfl
@[simp] theorem setPbuf_cand (v : Bits) : (setPbuf v s).cand = s.cand := rfl
@[simp] theorem setPbuf_dead (v : Bits) : (setPbuf v s).dead = s.dead := rfl
@[simp] theorem setPbuf_dpos (v : Bits) : (setPbuf v s).dpos = s.dpos := rfl
@[simp] theorem setPbuf_stk (v : Bits) : (setPbuf v s).stk = s.stk := rfl
@[simp] theorem setPbuf_path (v : Bits) : (setPbuf v s).path = s.path := rfl
@[simp] theorem setPbuf_err (v : Bits) : (setPbuf v s).err = s.err := rfl
@[simp] theorem setPbuf_busy (v : Bits) : (setPbuf v s).busy = s.busy := rfl
@[simp] theorem setPbuf_inReset (v : Bits) : (setPbuf v s).inReset = s.inReset := rfl
@[simp] theorem setPbuf_bout (v : Bits) : (setPbuf v s).bout = s.bout := rfl
@[simp] theorem setPbuf_sout (v : Bits) : (setPbuf v s).sout = s.sout := rfl
@[simp] theorem setPbuf_rsps (v : Bits) : (setPbuf v s).rsps = s.rsps := rfl
@[simp] theorem setPbuf_rspPort (v : Bits) : (setPbuf v s).rspPort = s.rspPort := rfl
@[simp] theorem setPbuf_boPort (v : Bits) : (setPbuf v s).boPort = s.boPort := rfl
@[simp] theorem setPbuf_soPort (v : Bits) : (setPbuf v s).soPort = s.soPort := rfl
@[simp] theorem setPbuf_host (v : Bits) : (setPbuf v s).host = s.host := rfl

@[simp] theorem setUbuf_ft (v : List Byte) : (setUbuf v s).ft = s.ft := rfl
@[simp] theorem setUbuf_node (v : List Byte) : (setUbuf v s).node = s.node := rfl
@[simp] theorem setUbuf_inq (v : List Byte) : (setUbuf v s).inq = s.inq := rfl
@[simp] theorem setUbuf_root (v : List Byte) : (setUbuf v s).root = s.root := rfl
@[simp] theorem setUbuf_nxt (v : List Byte) : (setUbuf v s).nxt = s.nxt := rfl
@[simp] theorem setUbuf_treeV (v : List Byte) : (setUbuf v s).treeV = s.treeV := rfl
@[simp] theorem setUbuf_ct (v : List Byte) : (setUbuf v s).ct = s.ct := rfl
@[simp] theorem setUbuf_ict (v : List Byte) : (setUbuf v s).ict = s.ict := rfl
@[simp] theorem setUbuf_tblV (v : List Byte) : (setUbuf v s).tblV = s.tblV := rfl
@[simp] theorem setUbuf_pbuf (v : List Byte) : (setUbuf v s).pbuf = s.pbuf := rfl
@[simp] theorem setUbuf_ubuf (v : List Byte) : (setUbuf v s).ubuf = v := rfl
@[simp] theorem setUbuf_ebits (v : List Byte) : (setUbuf v s).ebits = s.ebits := rfl
@[simp] theorem setUbuf_cand (v : List Byte) : (setUbuf v s).cand = s.cand := rfl
@[simp] theorem setUbuf_dead (v : List Byte) : (setUbuf v s).dead = s.dead := rfl
@[simp] theorem setUbuf_dpos (v : List Byte) : (setUbuf v s).dpos = s.dpos := rfl
@[simp] theorem setUbuf_stk (v : List Byte) : (setUbuf v s).stk = s.stk := rfl
@[simp] theorem setUbuf_path (v : List Byte) : (setUbuf v s).path = s.path := rfl
@[simp] theorem setUbuf_err (v : List Byte) : (setUbuf v s).err = s.err := rfl
@[simp] theorem setUbuf_busy (v : List Byte) : (setUbuf v s).busy = s.busy := rfl
@[simp] theorem setUbuf_inReset (v : List Byte) : (setUbuf v s).inReset = s.inReset := rfl
@[simp] theorem setUbuf_bout (v : List Byte) : (setUbuf v s).bout = s.bout := rfl
@[simp] theorem setUbuf_sout (v : List Byte) : (setUbuf v s).sout = s.sout := rfl
@[simp] theorem setUbuf_rsps (v : List Byte) : (setUbuf v s).rsps = s.rsps := rfl
@[simp] theorem setUbuf_rspPort (v : List Byte) : (setUbuf v s).rspPort = s.rspPort := rfl
@[simp] theorem setUbuf_boPort (v : List Byte) : (setUbuf v s).boPort = s.boPort := rfl
@[simp] theorem setUbuf_soPort (v : List Byte) : (setUbuf v s).soPort = s.soPort := rfl
@[simp] theorem setUbuf_host (v : List Byte) : (setUbuf v s).host = s.host := rfl

@[simp] theorem setEbits_ft (v : Bits) : (setEbits v s).ft = s.ft := rfl
@[simp] theorem setEbits_node (v : Bits) : (setEbits v s).node = s.node := rfl
@[simp] theorem setEbits_inq (v : Bits) : (setEbits v s).inq = s.inq := rfl
@[simp] theorem setEbits_root (v : Bits) : (setEbits v s).root = s.root := rfl
@[simp] theorem setEbits_nxt (v : Bits) : (setEbits v s).nxt = s.nxt := rfl
@[simp] theorem setEbits_treeV (v : Bits) : (setEbits v s).treeV = s.treeV := rfl
@[simp] theorem setEbits_ct (v : Bits) : (setEbits v s).ct = s.ct := rfl
@[simp] theorem setEbits_ict (v : Bits) : (setEbits v s).ict = s.ict := rfl
@[simp] theorem setEbits_tblV (v : Bits) : (setEbits v s).tblV = s.tblV := rfl
@[simp] theorem setEbits_pbuf (v : Bits) : (setEbits v s).pbuf = s.pbuf := rfl
@[simp] theorem setEbits_ubuf (v : Bits) : (setEbits v s).ubuf = s.ubuf := rfl
@[simp] theorem setEbits_ebits (v : Bits) : (setEbits v s).ebits = v := rfl
@[simp] theorem setEbits_cand (v : Bits) : (setEbits v s).cand = s.cand := rfl
@[simp] theorem setEbits_dead (v : Bits) : (setEbits v s).dead = s.dead := rfl
@[simp] theorem setEbits_dpos (v : Bits) : (setEbits v s).dpos = s.dpos := rfl
@[simp] theorem setEbits_stk (v : Bits) : (setEbits v s).stk = s.stk := rfl
@[simp] theorem setEbits_path (v : Bits) : (setEbits v s).path = s.path := rfl
@[simp] theorem setEbits_err (v : Bits) : (setEbits v s).err = s.err := rfl
@[simp] theorem setEbits_busy (v : Bits) : (setEbits v s).busy = s.busy := rfl
@[simp] theorem setEbits_inReset (v : Bits) : (setEbits v s).inReset = s.inReset := rfl
@[simp] theorem setEbits_bout (v : Bits) : (setEbits v s).bout = s.bout := rfl
@[simp] theorem setEbits_sout (v : Bits) : (setEbits v s).sout = s.sout := rfl
@[simp] theorem setEbits_rsps (v : Bits) : (setEbits v s).rsps = s.rsps := rfl
@[simp] theorem setEbits_rspPort (v : Bits) : (setEbits v s).rspPort = s.rspPort := rfl
@[simp] theorem setEbits_boPort (v : Bits) : (setEbits v s).boPort = s.boPort := rfl
@[simp] theorem setEbits_soPort (v : Bits) : (setEbits v s).soPort = s.soPort := rfl
@[simp] theorem setEbits_host (v : Bits) : (setEbits v s).host = s.host := rfl

@[simp] theorem setScan_ft (n : Nat) : (setScan n s).ft = s.ft := rfl
@[simp] theorem setScan_node (n : Nat) : (setScan n s).node = s.node := rfl
@[simp] theorem setScan_inq (n : Nat) : (setScan n s).inq = s.inq := rfl
@[simp] theorem setScan_root (n : Nat) : (setScan n s).root = s.root := rfl
@[simp] theorem setScan_nxt (n : Nat) : (setScan n s).nxt = s.nxt := rfl
@[simp] theorem setScan_treeV (n : Nat) : (setScan n s).treeV = s.treeV := rfl
@[simp] theorem setScan_ct (n : Nat) : (setScan n s).ct = s.ct := rfl
@[simp] theorem setScan_ict (n : Nat) : (setScan n s).ict = s.ict := rfl
@[simp] theorem setScan_tblV (n : Nat) : (setScan n s).tblV = s.tblV := rfl
@[simp] theorem setScan_pbuf (n : Nat) : (setScan n s).pbuf = s.pbuf := rfl
@[simp] theorem setScan_ubuf (n : Nat) : (setScan n s).ubuf = s.ubuf := rfl
@[simp] theorem setScan_ebits (n : Nat) : (setScan n s).ebits = s.ebits := rfl
@[simp] theorem setScan_cand (n : Nat) : (setScan n s).cand = [] := rfl
@[simp] theorem setScan_dead (n : Nat) : (setScan n s).dead = false := rfl
@[simp] theorem setScan_dpos (n : Nat) : (setScan n s).dpos = n := rfl
@[simp] theorem setScan_stk (n : Nat) : (setScan n s).stk = s.stk := rfl
@[simp] theorem setScan_path (n : Nat) : (setScan n s).path = s.path := rfl
@[simp] theorem setScan_err (n : Nat) : (setScan n s).err = s.err := rfl
@[simp] theorem setScan_busy (n : Nat) : (setScan n s).busy = s.busy := rfl
@[simp] theorem setScan_inReset (n : Nat) : (setScan n s).inReset = s.inReset := rfl
@[simp] theorem setScan_bout (n : Nat) : (setScan n s).bout = s.bout := rfl
@[simp] theorem setScan_sout (n : Nat) : (setScan n s).sout = s.sout := rfl
@[simp] theorem setScan_rsps (n : Nat) : (setScan n s).rsps = s.rsps := rfl
@[simp] theorem setScan_rspPort (n : Nat) : (setScan n s).rspPort = s.rspPort := rfl
@[simp] theorem setScan_boPort (n : Nat) : (setScan n s).boPort = s.boPort := rfl
@[simp] theorem setScan_soPort (n : Nat) : (setScan n s).soPort = s.soPort := rfl
@[simp] theorem setScan_host (n : Nat) : (setScan n s).host = s.host := rfl

@[simp] theorem nextEvents_ft (r : List HostEvent) : (nextEvents r s).ft = s.ft := rfl
@[simp] theorem nextEvents_node (r : List HostEvent) : (nextEvents r s).node = s.node := rfl
@[simp] theorem nextEvents_inq (r : List HostEvent) : (nextEvents r s).inq = s.inq := rfl
@[simp] theorem nextEvents_root (r : List HostEvent) : (nextEvents r s).root = s.root := rfl
@[simp] theorem nextEvents_nxt (r : List HostEvent) : (nextEvents r s).nxt = s.nxt := rfl
@[simp] theorem nextEvents_treeV (r : List HostEvent) : (nextEvents r s).treeV = s.treeV := rfl
@[simp] theorem nextEvents_ct (r : List HostEvent) : (nextEvents r s).ct = s.ct := rfl
@[simp] theorem nextEvents_ict (r : List HostEvent) : (nextEvents r s).ict = s.ict := rfl
@[simp] theorem nextEvents_tblV (r : List HostEvent) : (nextEvents r s).tblV = s.tblV := rfl
@[simp] theorem nextEvents_pbuf (r : List HostEvent) : (nextEvents r s).pbuf = s.pbuf := rfl
@[simp] theorem nextEvents_ubuf (r : List HostEvent) : (nextEvents r s).ubuf = s.ubuf := rfl
@[simp] theorem nextEvents_ebits (r : List HostEvent) : (nextEvents r s).ebits = s.ebits := rfl
@[simp] theorem nextEvents_cand (r : List HostEvent) : (nextEvents r s).cand = s.cand := rfl
@[simp] theorem nextEvents_dead (r : List HostEvent) : (nextEvents r s).dead = s.dead := rfl
@[simp] theorem nextEvents_dpos (r : List HostEvent) : (nextEvents r s).dpos = s.dpos := rfl
@[simp] theorem nextEvents_stk (r : List HostEvent) : (nextEvents r s).stk = s.stk := rfl
@[simp] theorem nextEvents_path (r : List HostEvent) : (nextEvents r s).path = s.path := rfl
@[simp] theorem nextEvents_err (r : List HostEvent) : (nextEvents r s).err = s.err := rfl
@[simp] theorem nextEvents_busy (r : List HostEvent) : (nextEvents r s).busy = s.busy := rfl
@[simp] theorem nextEvents_inReset (r : List HostEvent) : (nextEvents r s).inReset = s.inReset := rfl
@[simp] theorem nextEvents_bout (r : List HostEvent) : (nextEvents r s).bout = s.bout := rfl
@[simp] theorem nextEvents_sout (r : List HostEvent) : (nextEvents r s).sout = s.sout := rfl
@[simp] theorem nextEvents_rsps (r : List HostEvent) : (nextEvents r s).rsps = s.rsps := rfl
@[simp] theorem nextEvents_rspPort (r : List HostEvent) : (nextEvents r s).rspPort = s.rspPort := rfl
@[simp] theorem nextEvents_boPort (r : List HostEvent) : (nextEvents r s).boPort = s.boPort := rfl
@[simp] theorem nextEvents_soPort (r : List HostEvent) : (nextEvents r s).soPort = s.soPort := rfl
@[simp] theorem nextEvents_host (r : List HostEvent) : (nextEvents r s).host = r := rfl

@[simp] theorem toReset_ft : (toReset s).ft = State.reset.ft := rfl
@[simp] theorem toReset_node : (toReset s).node = State.reset.node := rfl
@[simp] theorem toReset_inq : (toReset s).inq = State.reset.inq := rfl
@[simp] theorem toReset_root : (toReset s).root = State.reset.root := rfl
@[simp] theorem toReset_nxt : (toReset s).nxt = State.reset.nxt := rfl
@[simp] theorem toReset_treeV : (toReset s).treeV = State.reset.treeV := rfl
@[simp] theorem toReset_ct : (toReset s).ct = State.reset.ct := rfl
@[simp] theorem toReset_ict : (toReset s).ict = State.reset.ict := rfl
@[simp] theorem toReset_tblV : (toReset s).tblV = State.reset.tblV := rfl
@[simp] theorem toReset_pbuf : (toReset s).pbuf = State.reset.pbuf := rfl
@[simp] theorem toReset_ubuf : (toReset s).ubuf = State.reset.ubuf := rfl
@[simp] theorem toReset_ebits : (toReset s).ebits = State.reset.ebits := rfl
@[simp] theorem toReset_cand : (toReset s).cand = State.reset.cand := rfl
@[simp] theorem toReset_dead : (toReset s).dead = State.reset.dead := rfl
@[simp] theorem toReset_dpos : (toReset s).dpos = State.reset.dpos := rfl
@[simp] theorem toReset_stk : (toReset s).stk = State.reset.stk := rfl
@[simp] theorem toReset_path : (toReset s).path = State.reset.path := rfl
@[simp] theorem toReset_err : (toReset s).err = State.reset.err := rfl
@[simp] theorem toReset_busy : (toReset s).busy = State.reset.busy := rfl
@[simp] theorem toReset_inReset : (toReset s).inReset = State.reset.inReset := rfl
@[simp] theorem toReset_bout : (toReset s).bout = s.bout := rfl
@[simp] theorem toReset_sout : (toReset s).sout = s.sout := rfl
@[simp] theorem toReset_rsps : (toReset s).rsps = s.rsps := rfl
@[simp] theorem toReset_rspPort : (toReset s).rspPort = State.reset.rspPort := rfl
@[simp] theorem toReset_boPort : (toReset s).boPort = State.reset.boPort := rfl
@[simp] theorem toReset_soPort : (toReset s).soPort = State.reset.soPort := rfl
@[simp] theorem toReset_host : (toReset s).host = s.host := rfl

@[simp] theorem completeTransfers_ft : (completeTransfers s).ft = s.ft := rfl
@[simp] theorem completeTransfers_node : (completeTransfers s).node = s.node := rfl
@[simp] theorem completeTransfers_inq : (completeTransfers s).inq = s.inq := rfl
@[simp] theorem completeTransfers_root : (completeTransfers s).root = s.root := rfl
@[simp] theorem completeTransfers_nxt : (completeTransfers s).nxt = s.nxt := rfl
@[simp] theorem completeTransfers_treeV : (completeTransfers s).treeV = s.treeV := rfl
@[simp] theorem completeTransfers_ct : (completeTransfers s).ct = s.ct := rfl
@[simp] theorem completeTransfers_ict : (completeTransfers s).ict = s.ict := rfl
@[simp] theorem completeTransfers_tblV : (completeTransfers s).tblV = s.tblV := rfl
@[simp] theorem completeTransfers_pbuf : (completeTransfers s).pbuf = s.pbuf := rfl
@[simp] theorem completeTransfers_ubuf : (completeTransfers s).ubuf = s.ubuf := rfl
@[simp] theorem completeTransfers_ebits : (completeTransfers s).ebits = s.ebits := rfl
@[simp] theorem completeTransfers_cand : (completeTransfers s).cand = s.cand := rfl
@[simp] theorem completeTransfers_dead : (completeTransfers s).dead = s.dead := rfl
@[simp] theorem completeTransfers_dpos : (completeTransfers s).dpos = s.dpos := rfl
@[simp] theorem completeTransfers_stk : (completeTransfers s).stk = s.stk := rfl
@[simp] theorem completeTransfers_path : (completeTransfers s).path = s.path := rfl
@[simp] theorem completeTransfers_err : (completeTransfers s).err = s.err := rfl
@[simp] theorem completeTransfers_busy : (completeTransfers s).busy = false := rfl
@[simp] theorem completeTransfers_inReset : (completeTransfers s).inReset = s.inReset := rfl
@[simp] theorem completeTransfers_bout : (completeTransfers s).bout = s.bout ++ s.boPort := rfl
@[simp] theorem completeTransfers_sout : (completeTransfers s).sout = s.sout ++ s.soPort := rfl
@[simp] theorem completeTransfers_rsps : (completeTransfers s).rsps = s.rsps ++ s.rspPort.toList := rfl
@[simp] theorem completeTransfers_rspPort : (completeTransfers s).rspPort = none := rfl
@[simp] theorem completeTransfers_boPort : (completeTransfers s).boPort = [] := rfl
@[simp] theorem completeTransfers_soPort : (completeTransfers s).soPort = [] := rfl
@[simp] theorem completeTransfers_host : (completeTransfers s).host = s.host := rfl

@[simp] theorem endReset_ft : (endReset s).ft = s.ft := rfl
@[simp] theorem endReset_node : (endReset s).node = s.node := rfl
@[simp] theorem endReset_inq : (endReset s).inq = s.inq := rfl
@[simp] theorem endReset_root : (endReset s).root = s.root := rfl
@[simp] theorem endReset_nxt : (endReset s).nxt = s.nxt := rfl
@[simp] theorem endReset_treeV : (endReset s).treeV = s.treeV := rfl
@[simp] theorem endReset_ct : (endReset s).ct = s.ct := rfl
@[simp] theorem endReset_ict : (endReset s).ict = s.ict := rfl
@[simp] theorem endReset_tblV : (endReset s).tblV = s.tblV := rfl
@[simp] theorem endReset_pbuf : (endReset s).pbuf = s.pbuf := rfl
@[simp] theorem endReset_ubuf : (endReset s).ubuf = s.ubuf := rfl
@[simp] theorem endReset_ebits : (endReset s).ebits = s.ebits := rfl
@[simp] theorem endReset_cand : (endReset s).cand = s.cand := rfl
@[simp] theorem endReset_dead : (endReset s).dead = s.dead := rfl
@[simp] theorem endReset_dpos : (endReset s).dpos = s.dpos := rfl
@[simp] theorem endReset_stk : (endReset s).stk = s.stk := rfl
@[simp] theorem endReset_path : (endReset s).path = s.path := rfl
@[simp] theorem endReset_err : (endReset s).err = s.err := rfl
@[simp] theorem endReset_busy : (endReset s).busy = s.busy := rfl
@[simp] theorem endReset_inReset : (endReset s).inReset = false := rfl
@[simp] theorem endReset_bout : (endReset s).bout = s.bout := rfl
@[simp] theorem endReset_sout : (endReset s).sout = s.sout := rfl
@[simp] theorem endReset_rsps : (endReset s).rsps = s.rsps := rfl
@[simp] theorem endReset_rspPort : (endReset s).rspPort = s.rspPort := rfl
@[simp] theorem endReset_boPort : (endReset s).boPort = s.boPort := rfl
@[simp] theorem endReset_soPort : (endReset s).soPort = s.soPort := rfl
@[simp] theorem endReset_host : (endReset s).host = s.host := rfl

@[simp] theorem resetInput_ft : (resetInput s).ft = State.reset.ft := rfl
@[simp] theorem resetInput_node : (resetInput s).node = State.reset.node := rfl
@[simp] theorem resetInput_inq : (resetInput s).inq = State.reset.inq := rfl
@[simp] theorem resetInput_root : (resetInput s).root = State.reset.root := rfl
@[simp] theorem resetInput_nxt : (resetInput s).nxt = State.reset.nxt := rfl
@[simp] theorem resetInput_treeV : (resetInput s).treeV = State.reset.treeV := rfl
@[simp] theorem resetInput_ct : (resetInput s).ct = State.reset.ct := rfl
@[simp] theorem resetInput_ict : (resetInput s).ict = State.reset.ict := rfl
@[simp] theorem resetInput_tblV : (resetInput s).tblV = State.reset.tblV := rfl
@[simp] theorem resetInput_pbuf : (resetInput s).pbuf = State.reset.pbuf := rfl
@[simp] theorem resetInput_ubuf : (resetInput s).ubuf = State.reset.ubuf := rfl
@[simp] theorem resetInput_ebits : (resetInput s).ebits = State.reset.ebits := rfl
@[simp] theorem resetInput_cand : (resetInput s).cand = State.reset.cand := rfl
@[simp] theorem resetInput_dead : (resetInput s).dead = State.reset.dead := rfl
@[simp] theorem resetInput_dpos : (resetInput s).dpos = State.reset.dpos := rfl
@[simp] theorem resetInput_stk : (resetInput s).stk = State.reset.stk := rfl
@[simp] theorem resetInput_path : (resetInput s).path = State.reset.path := rfl
@[simp] theorem resetInput_err : (resetInput s).err = State.reset.err := rfl
@[simp] theorem resetInput_busy : (resetInput s).busy = State.reset.busy := rfl
@[simp] theorem resetInput_inReset : (resetInput s).inReset = true := rfl
@[simp] theorem resetInput_bout : (resetInput s).bout = s.bout := rfl
@[simp] theorem resetInput_sout : (resetInput s).sout = s.sout := rfl
@[simp] theorem resetInput_rsps : (resetInput s).rsps = s.rsps := rfl
@[simp] theorem resetInput_rspPort : (resetInput s).rspPort = State.reset.rspPort := rfl
@[simp] theorem resetInput_boPort : (resetInput s).boPort = State.reset.boPort := rfl
@[simp] theorem resetInput_soPort : (resetInput s).soPort = State.reset.soPort := rfl
@[simp] theorem resetInput_host : (resetInput s).host = s.host := rfl

end Sys2Proof.Machine
end

