-- ==== Sys2Proof/Laws/Table.lean ====
section
/-! SUPPORT. The laws of the sparse tables: read after write, every other element kept, the canonical form kept, and
equal reads make equal tables. -/

namespace Sys2Proof.Machine

variable {α : Type}

@[simp] theorem Table.get?_nil (k : Nat) : Table.get? ([] : Table α) k = none := rfl

theorem Table.get?_cons (j : Nat) (v : α) (t : Table α) (k : Nat) :
    Table.get? ((j, v) :: t) k = if j = k then some v else Table.get? t k := rfl

/-- A write is read back, and every other element is as before. -/
theorem Table.get?_insert (t : Table α) (k i : Nat) (v : α) :
    (t.insert k v).get? i = if k = i then some v else t.get? i := by
  induction t with
  | nil => rfl
  | cons e t ih =>
    obtain ⟨j, w⟩ := e
    simp only [Table.insert]
    split
    · simp [Table.get?_cons]
    · split
      · subst j; simp only [Table.get?_cons]; split <;> simp_all
      · simp only [Table.get?_cons, ih]; split <;> rename_i h
        · subst h; rw [if_neg (fun h => by simp_all)]
        · rfl

/-- An erased element reads as empty, and every other element is as before. -/
theorem Table.get?_erase (t : Table α) (k i : Nat) :
    (t.erase k).get? i = if k = i then none else t.get? i := by
  induction t with
  | nil => simp [Table.erase]
  | cons e t ih =>
    obtain ⟨j, w⟩ := e
    simp only [Table.erase]
    split
    · subst j; rw [ih]; simp only [Table.get?_cons]; split <;> simp_all
    · rename_i hjk; simp only [Table.get?_cons, ih]; split <;> rename_i h
      · subst h; rw [if_neg (fun h => hjk h.symm)]
      · rfl

/-- The keys below a bound, and rising. -/
theorem Table.rising_cons {j : Nat} {w : α} {t : Table α} :
    Table.rising ((j, w) :: t) = true ↔ (∀ e ∈ t, j < e.1) ∧ Table.rising t = true := by
  induction t generalizing j w with
  | nil => simp [Table.rising]
  | cons e t ih =>
    obtain ⟨k, v⟩ := e
    simp only [Table.rising, Bool.and_eq_true, decide_eq_true_eq, List.mem_cons, forall_eq_or_imp]
    constructor
    · rintro ⟨h, h'⟩
      refine ⟨⟨h, fun x hx => ?_⟩, h'⟩
      exact lt_trans h ((ih.1 h').1 x hx)
    · rintro ⟨⟨h, -⟩, h'⟩; exact ⟨h, h'⟩

theorem Table.rising_insert {t : Table α} (k : Nat) (v : α) (h : t.rising = true) : (t.insert k v).rising = true := by
  have mem : ∀ (t : Table α) (e : Nat × α), e ∈ t.insert k v → e.1 = k ∨ e ∈ t := by
    intro t e
    induction t with
    | nil => simp [Table.insert]; rintro rfl; simp
    | cons a t ih =>
      obtain ⟨j, w⟩ := a
      simp only [Table.insert]
      split
      · rw [List.mem_cons]; rintro (rfl | h) <;> simp_all
      · split
        · rw [List.mem_cons]; rintro (rfl | h) <;> simp_all
        · rw [List.mem_cons]; rintro (rfl | h)
          · simp
          · rcases ih h with h | h <;> simp [h]
  induction t with
  | nil => rfl
  | cons a t ih =>
    obtain ⟨j, w⟩ := a
    have hc := Table.rising_cons.1 h
    simp only [Table.insert]
    split
    · rename_i hk
      refine Table.rising_cons.2 ⟨?_, h⟩
      intro e he
      rcases List.mem_cons.1 he with rfl | he
      · exact hk
      · exact lt_trans hk (hc.1 e he)
    · split
      · subst j; exact Table.rising_cons.2 hc
      · refine Table.rising_cons.2 ⟨fun e he => ?_, ih hc.2⟩
        rcases mem t e he with h' | h'
        · omega
        · exact hc.1 e h'

theorem Table.mem_erase {t : Table α} {k : Nat} {e : Nat × α} : e ∈ t.erase k ↔ e ∈ t ∧ e.1 ≠ k := by
  induction t with
  | nil => simp [Table.erase]
  | cons a t ih =>
    obtain ⟨j, w⟩ := a
    simp only [Table.erase]
    split
    · subst j; rw [ih, List.mem_cons]; constructor
      · rintro ⟨h, h'⟩; exact ⟨.inr h, h'⟩
      · rintro ⟨rfl | h, h'⟩
        · exact absurd rfl h'
        · exact ⟨h, h'⟩
    · rw [List.mem_cons, List.mem_cons, ih]; constructor
      · rintro (rfl | ⟨h, h'⟩)
        · exact ⟨.inl rfl, by assumption⟩
        · exact ⟨.inr h, h'⟩
      · rintro ⟨rfl | h, h'⟩
        · exact .inl rfl
        · exact .inr ⟨h, h'⟩

theorem Table.rising_erase {t : Table α} (k : Nat) (h : t.rising = true) : (t.erase k).rising = true := by
  induction t with
  | nil => rfl
  | cons a t ih =>
    obtain ⟨j, w⟩ := a
    have hc := Table.rising_cons.1 h
    simp only [Table.erase]
    split
    · exact ih hc.2
    · exact Table.rising_cons.2 ⟨fun e he => hc.1 e (Table.mem_erase.1 he).1, ih hc.2⟩

theorem Table.mem_insert {t : Table α} {k : Nat} {v : α} {e : Nat × α} (h : e ∈ t.insert k v) : e = (k, v) ∨ e ∈ t := by
  induction t with
  | nil => simpa [Table.insert] using h
  | cons a t ih =>
    obtain ⟨j, w⟩ := a
    simp only [Table.insert] at h
    split at h
    · rcases List.mem_cons.1 h with rfl | h <;> simp_all
    · split at h
      · rcases List.mem_cons.1 h with rfl | h <;> simp_all
      · rcases List.mem_cons.1 h with rfl | h
        · simp
        · rcases ih h with rfl | h <;> simp_all

theorem Table.wf_iff {t : Table α} {n : Nat} {e : α → Bool} :
    t.wf n e = true ↔ t.rising = true ∧ ∀ x ∈ t, x.1 < n ∧ e x.2 = false := by
  simp [Table.wf]

/-- Writing an element keeps the canonical form. -/
theorem Table.wf_insert {t : Table α} {n k : Nat} {e : α → Bool} {v : α} (h : t.wf n e = true) (hk : k < n)
    (hv : e v = false) : (t.insert k v).wf n e = true := by
  rw [Table.wf_iff] at h ⊢
  refine ⟨Table.rising_insert k v h.1, fun x hx => ?_⟩
  rcases Table.mem_insert hx with rfl | hx
  · exact ⟨hk, hv⟩
  · exact h.2 x hx

/-- Making an element empty keeps the canonical form. -/
theorem Table.wf_erase {t : Table α} {n : Nat} {e : α → Bool} (k : Nat) (h : t.wf n e = true) :
    (t.erase k).wf n e = true := by
  rw [Table.wf_iff] at h ⊢
  exact ⟨Table.rising_erase k h.1, fun x hx => h.2 x (Table.mem_erase.1 hx).1⟩

theorem Table.wf_nil {n : Nat} {e : α → Bool} : Table.wf n e ([] : Table α) = true := rfl

theorem Table.get?_eq_none {t : Table α} {k : Nat} (h : ∀ e ∈ t, e.1 ≠ k) : t.get? k = none := by
  induction t with
  | nil => rfl
  | cons a t ih =>
    obtain ⟨j, w⟩ := a
    rw [Table.get?_cons, if_neg (h (j, w) (by simp)), ih fun e he => h e (by simp [he])]

theorem Table.get?_mem {t : Table α} {k : Nat} {v : α} (h : t.get? k = some v) : (k, v) ∈ t := by
  induction t with
  | nil => simp at h
  | cons a t ih =>
    obtain ⟨j, w⟩ := a
    rw [Table.get?_cons] at h
    split at h
    · simp_all
    · exact List.mem_cons_of_mem _ (ih h)

theorem Table.get?_of_mem {t : Table α} (hr : t.rising = true) {k : Nat} {v : α} (h : (k, v) ∈ t) : t.get? k = some v := by
  induction t with
  | nil => simp at h
  | cons a t ih =>
    obtain ⟨j, w⟩ := a
    have hc := Table.rising_cons.1 hr
    rw [Table.get?_cons]
    rcases List.mem_cons.1 h with h | h
    · simp_all
    · rw [if_neg (Nat.ne_of_lt (hc.1 _ h)), ih hc.2 h]

/-- Two tables in canonical form with equal reads are equal. -/
theorem Table.ext_get? {t u : Table α} (ht : t.rising = true) (hu : u.rising = true)
    (h : ∀ k, t.get? k = u.get? k) : t = u := by
  induction t generalizing u with
  | nil =>
    cases u with
    | nil => rfl
    | cons a u => obtain ⟨j, w⟩ := a; have := h j; simp [Table.get?_cons] at this
  | cons a t ih =>
    obtain ⟨j, w⟩ := a
    have hc := Table.rising_cons.1 ht
    cases u with
    | nil => have := h j; simp [Table.get?_cons] at this
    | cons b u =>
      obtain ⟨i, v⟩ := b
      have hd := Table.rising_cons.1 hu
      have hj := h j
      have hi := h i
      rw [Table.get?_cons, if_pos rfl, Table.get?_cons] at hj
      rw [Table.get?_cons, Table.get?_cons (k := i) (j := i), if_pos rfl] at hi
      have hij : i = j := by
        by_contra hne
        rw [if_neg hne] at hj
        rw [if_neg (Ne.symm hne)] at hi
        have := hd.1 _ (Table.get?_mem hj.symm)
        have := hc.1 _ (Table.get?_mem hi)
        omega
      subst hij
      simp only [if_true, Option.some.injEq] at hj
      subst hj
      congr 1
      refine ih hc.2 hd.2 fun k => ?_
      have hk := h k
      rw [Table.get?_cons, Table.get?_cons] at hk
      by_cases hki : i = k
      · subst hki
        rw [Table.get?_eq_none fun e he => Nat.ne_of_gt (hc.1 e he),
          Table.get?_eq_none fun e he => Nat.ne_of_gt (hd.1 e he)]
      · simpa [hki] using hk

/-- The keys of a table in canonical form have no repeats. -/
theorem Table.keys_nodup {t : Table α} (h : t.rising = true) : (t.map Prod.fst).Nodup := by
  induction t with
  | nil => simp
  | cons a t ih =>
    obtain ⟨j, w⟩ := a
    have hc := Table.rising_cons.1 h
    simp only [List.map_cons, List.nodup_cons, List.mem_map, not_exists, not_and]
    exact ⟨fun e he h' => Nat.ne_of_lt (hc.1 e he) h'.symm, ih hc.2⟩

end Sys2Proof.Machine
end

