-- ==== Sys2Proof/Laws/Ops.lean ====
section
/-! SUPPORT. What each shared operation can do, said once: the halt gate, the frequency table's read and write, the error
codes. -/

namespace Sys2Proof.Machine

theorem haltGate_running {s : State} (k : Out) (h : s.err = 0) : haltGate s k = k := by rw [haltGate, if_pos h]

theorem haltGate_halted {s : State} (k : Out) (h : s.err ≠ 0) : haltGate s k = .next (refuseHalted s) := by
  rw [haltGate, if_neg h]

/-- The halt gate lets a command through or refuses it (60_exceptions.md R257). -/
theorem haltGate_cases {s : State} {k : Out} {t : State} (h : haltGate s k = .next t) :
    (s.err = 0 ∧ k = .next t) ∨ (s.err ≠ 0 ∧ t = refuseHalted s) := by
  by_cases he : s.err = 0
  · rw [haltGate_running k he] at h; exact .inl ⟨he, h⟩
  · rw [haltGate_halted k he] at h; cases h; exact .inr ⟨he, rfl⟩

/-- A written count is read back, and every other count is as before (40_frequency_counter.md R113). -/
theorem count_writeCount (ft : Table Count) (a b : Sym) (c : Count) :
    count (writeCount ft a c) b = if a = b then c else count ft b := by
  unfold count writeCount
  by_cases hab : a = b
  · subst hab
    split
    · rename_i h; subst h; simp [Table.get?_erase]
    · simp [Table.get?_insert]
  · have hn : a.toNat ≠ b.toNat := fun h => hab (BitVec.toNat_inj.1 h)
    split
    · simp [Table.get?_erase, hn]
    · simp [Table.get?_insert, hn]

theorem ftWf_writeCount {ft : Table Count} (h : ftWf ft) (a : Sym) (c : Count) : ftWf (writeCount ft a c) := by
  unfold writeCount
  split
  · exact Table.wf_erase _ h
  · exact Table.wf_insert h a.isLt (by simpa)

/-- The read of a canonical frequency table by key. -/
theorem get?_eq_count {ft : Table Count} (h : ftWf ft) (k : Nat) :
    ft.get? k = if k < 256 ∧ count ft (BitVec.ofNat 8 k) ≠ 0 then some (count ft (BitVec.ofNat 8 k)) else none := by
  rw [ftWf, Table.wf_iff] at h
  by_cases hk : k < 256
  · have ht : (BitVec.ofNat 8 k).toNat = k := by rw [BitVec.toNat_ofNat, Nat.mod_eq_of_lt hk]
    simp only [count, ht, hk, true_and]
    cases hg : ft.get? k with
    | none => simp
    | some v =>
      have := (h.2 _ (Table.get?_mem hg)).2
      simp at this
      simp [this]
  · rw [if_neg (fun h => hk h.1)]
    exact Table.get?_eq_none fun e he => by have : e.1 < 256 := (h.2 e he).1; omega

/-- Two canonical frequency tables with equal counts are equal. -/
theorem ft_ext {ft gt : Table Count} (h : ftWf ft) (h' : ftWf gt) (hc : ∀ a, count ft a = count gt a) : ft = gt := by
  refine Table.ext_get? (Table.wf_iff.1 h).1 (Table.wf_iff.1 h').1 fun k => ?_
  rw [get?_eq_count h, get?_eq_count h', hc]

/-- A frequency table has no symbol when every count is 0 (41_tree_builder.md R132). -/
theorem noSymbol_iff {ft : Table Count} (h : ftWf ft) : noSymbol ft = true ↔ ∀ a, count ft a = 0 := by
  have hw := Table.wf_iff.1 h
  have hp : presentSyms ft = ft := by
    refine List.filter_eq_self.2 fun e he => ?_
    have := (hw.2 e he).2
    simpa using this
  rw [noSymbol, hp, List.isEmpty_iff]
  constructor
  · rintro rfl a; rfl
  · intro hc
    cases ft with
    | nil => rfl
    | cons e t =>
      have h1 := hw.2 e (by simp)
      have h2 := hc (BitVec.ofNat 8 e.1)
      have hlt : e.1 < 256 := h1.1
      rw [count, BitVec.toNat_ofNat, Nat.mod_eq_of_lt hlt, Table.get?_of_mem hw.1 (show (e.1, e.2) ∈ e :: t by simp)] at h2
      simp at h2
      simp [h2] at h1

theorem errCode_ne_zero (e : ErrorKind) : errCode e ≠ 0 := by cases e <;> decide

theorem errCode_inj {e e' : ErrorKind} (h : errCode e = errCode e') : e = e' := by
  revert h; cases e <;> cases e' <;> decide

theorem errCode_ne_halted (e : ErrorKind) : errCode e ≠ haltedStatus := by cases e <;> decide

end Sys2Proof.Machine
end

