-- ==== Sys2Proof/Laws/Exec.lean ====
section
/-! SUPPORT. What each command can answer, said once: if it answers a next state, that state is one of a few. -/

namespace Sys2Proof.Machine

theorem execNop_next {s t : State} (h : execNop s = .next t) : t = respond {} s := by cases h; rfl

theorem execRst_next {s t : State} (h : execRst s = .next t) : t = respond {} (toReset s) := by cases h; rfl

theorem execSts_next {s t : State} (h : execSts s = .next t) : t = respond { d := statusReg s } s := by cases h; rfl

theorem execReserved_next {op : BitVec 8} {s t : State} (h : execReserved op s = .next t) :
    (s.err = 0 ∧ t = raise .illegalCommand s) ∨ (s.err ≠ 0 ∧ t = refuseHalted s) := by
  rcases haltGate_cases h with ⟨h0, h⟩ | h
  · cases h; exact .inl ⟨h0, rfl⟩
  · exact .inr h

theorem execCnt_next {a : Sym} {s t : State} (h : execCnt a s = .next t) :
    (s.err = 0 ∧ count s.ft a = Config.countMax ∧ t = raise .countOverflow s) ∨
    (s.err = 0 ∧ count s.ft a ≠ Config.countMax ∧
      t = respond { d := (count s.ft a + 1).setWidth 40 } (setCount a (count s.ft a + 1) s)) ∨
    (s.err ≠ 0 ∧ t = refuseHalted s) := by
  rcases haltGate_cases h with ⟨h0, h⟩ | h
  · split at h <;> cases h
    · exact .inl ⟨h0, by assumption, rfl⟩
    · exact .inr (.inl ⟨h0, by assumption, rfl⟩)
  · exact .inr (.inr h)

theorem execFwr_next {a : Sym} {c : Count} {s t : State} (h : execFwr a c s = .next t) :
    (s.err = 0 ∧ t = respond {} (setCount a c s)) ∨ (s.err ≠ 0 ∧ t = refuseHalted s) := by
  rcases haltGate_cases h with ⟨h0, h⟩ | h
  · cases h; exact .inl ⟨h0, rfl⟩
  · exact .inr h

theorem execFrd_next {a : Sym} {s t : State} (h : execFrd a s = .next t) :
    (s.err = 0 ∧ t = respond { f := validFlag (present (count s.ft a)), d := (count s.ft a).setWidth 40 } s) ∨
    (s.err ≠ 0 ∧ t = refuseHalted s) := by
  rcases haltGate_cases h with ⟨h0, h⟩ | h
  · cases h; exact .inl ⟨h0, rfl⟩
  · exact .inr h

theorem execBld_next {s t : State} (h : execBld s = .next t) :
    (s.err = 0 ∧ noSymbol s.ft = true ∧ t = raise .emptyAlphabet s) ∨
    (s.err = 0 ∧ noSymbol s.ft = false ∧
      t = respond { x := BitVec.ofNat 9 (rootOf (build s.ft)), d := freqAt (build s.ft).node (rootOf (build s.ft)) }
        (storeTree (build s.ft).node (build s.ft).inq (build s.ft).nxt (BitVec.ofNat 9 (rootOf (build s.ft))) s)) ∨
    (s.err ≠ 0 ∧ t = refuseHalted s) := by
  rcases haltGate_cases h with ⟨h0, h⟩ | h
  · split at h <;> cases h
    · exact .inl ⟨h0, by assumption, rfl⟩
    · exact .inr (.inl ⟨h0, by simpa using ‹¬ noSymbol s.ft = true›, rfl⟩)
  · exact .inr (.inr h)

theorem execNrd_next {i : Idx} {s t : State} (h : execNrd i s = .next t) :
    (s.err = 0 ∧ t = respond (nodeResponse (nodeAt s.node i)) s) ∨ (s.err ≠ 0 ∧ t = refuseHalted s) := by
  rcases haltGate_cases h with ⟨h0, h⟩ | h
  · cases h; exact .inl ⟨h0, rfl⟩
  · exact .inr h

theorem execGen_next {s t : State} (h : execGen s = .next t) :
    (s.err = 0 ∧ s.treeV = false ∧ t = raise .noTree s) ∨
    (s.err = 0 ∧ s.treeV = true ∧ ∃ as, assignments s.node s.root = some as ∧
      t = respond { d := BitVec.ofNat 40 (tablesOf as).ct.length }
        (storeTables (tablesOf as).ct (tablesOf as).ict s)) ∨
    (s.err ≠ 0 ∧ t = refuseHalted s) := by
  rcases haltGate_cases h with ⟨h0, h⟩ | h
  · split at h
    · cases h; exact .inl ⟨h0, by assumption, rfl⟩
    · split at h
      · cases h
      · cases h
        exact .inr (.inl ⟨h0, by simpa using ‹¬ s.treeV = false›, _, by assumption, rfl⟩)
  · exact .inr (.inr h)

theorem execTrd_next {a : Sym} {s t : State} (h : execTrd a s = .next t) :
    (s.err = 0 ∧ t = respond (codeResponse (codeOf s.ct a)) s) ∨ (s.err ≠ 0 ∧ t = refuseHalted s) := by
  rcases haltGate_cases h with ⟨h0, h⟩ | h
  · cases h; exact .inl ⟨h0, rfl⟩
  · exact .inr h

theorem packSymbol_next {p : Config.Params} {a : Sym} {s t : State} (h : packSymbol p a s = .next t) :
    (s.err = 0 ∧ codeOf s.ct a = none ∧ t = raise .missingCode s) ∨
    (∃ c, s.err = 0 ∧ codeOf s.ct a = some c ∧ overPbuf p (s.pbuf.length + c.length) = true ∧
      t = raise .bufferOverflow s) ∨
    (∃ c, s.err = 0 ∧ codeOf s.ct a = some c ∧ overPbuf p (s.pbuf.length + c.length) = false ∧
      t = respond { d := BitVec.ofNat 40 (s.pbuf ++ c).length } (setPbuf (s.pbuf ++ c) s)) ∨
    (s.err ≠ 0 ∧ t = refuseHalted s) := by
  rcases haltGate_cases h with ⟨h0, h⟩ | h
  · split at h
    · cases h; exact .inl ⟨h0, by assumption, rfl⟩
    · split at h <;> cases h
      · exact .inr (.inl ⟨_, h0, by assumption, by assumption, rfl⟩)
      · exact .inr (.inr (.inl ⟨_, h0, by assumption, by simp_all, rfl⟩))
  · exact .inr (.inr (.inr h))

theorem packEnd_next {p : Config.Params} {s t : State} (h : packEnd p s = .next t) :
    (s.err = 0 ∧ t = respond
      { x := BitVec.ofNat 9 (padlen p.padMode s.pbuf.length)
        d := BitVec.ofNat 40 (packStream p.padMode s.pbuf).length }
      (setPbuf [] (emitBytes (packStream p.padMode s.pbuf) s))) ∨ (s.err ≠ 0 ∧ t = refuseHalted s) := by
  rcases haltGate_cases h with ⟨h0, h⟩ | h
  · cases h; exact .inl ⟨h0, rfl⟩
  · exact .inr h

theorem giveByte_next {p : Config.Params} {b : Byte} {s t : State} (h : giveByte p b s = .next t) :
    (s.err = 0 ∧ ubufFull p s.ubuf.length = true ∧ t = raise .bufferOverflow s) ∨
    (s.err = 0 ∧ ubufFull p s.ubuf.length = false ∧
      t = respond { d := BitVec.ofNat 40 (s.ubuf ++ [b]).length } (setUbuf (s.ubuf ++ [b]) s)) ∨
    (s.err ≠ 0 ∧ t = refuseHalted s) := by
  rcases haltGate_cases h with ⟨h0, h⟩ | h
  · split at h <;> cases h
    · exact .inl ⟨h0, by assumption, rfl⟩
    · exact .inr (.inl ⟨h0, by simp_all, rfl⟩)
  · exact .inr (.inr h)

theorem execUpe_next {s t : State} (h : execUpe s = .next t) :
    (∃ e, s.err = 0 ∧ unpackStream s.ubuf = .error e ∧ t = raise e s) ∨
    (∃ pad bits, s.err = 0 ∧ unpackStream s.ubuf = .ok (pad, bits) ∧
      t = respond { x := BitVec.ofNat 9 pad, d := BitVec.ofNat 40 bits.length } (setUbuf [] (setEbits bits s))) ∨
    (s.err ≠ 0 ∧ t = refuseHalted s) := by
  rcases haltGate_cases h with ⟨h0, h⟩ | h
  · split at h <;> cases h
    · exact .inl ⟨_, h0, by assumption, rfl⟩
    · exact .inr (.inl ⟨_, _, h0, by assumption, rfl⟩)
  · exact .inr (.inr h)

theorem execDec_next {s t : State} (h : execDec s = .next t) :
    (∃ out, s.err = 0 ∧ scan s.ict s.ebits [] [] = ([], out) ∧
      t = respond { d := BitVec.ofNat 40 out.length }
        (setEbits [] (setScan s.ebits.length (emitSyms out s)))) ∨
    (∃ b cand out, s.err = 0 ∧ scan s.ict s.ebits [] [] = (b :: cand, out) ∧ t = raise .undecodableTail s) ∨
    (s.err ≠ 0 ∧ t = refuseHalted s) := by
  rcases haltGate_cases h with ⟨h0, h⟩ | h
  · split at h <;> cases h
    · exact .inl ⟨_, h0, by assumption, rfl⟩
    · exact .inr (.inl ⟨_, _, _, h0, by assumption, rfl⟩)
  · exact .inr (.inr h)

end Sys2Proof.Machine
end

