-- ==== Sys2Proof/Laws/TreeBuilder.lean ====
section
/-! SUPPORT. The laws of the merge engine: what a pop takes, and the forest that every merge keeps, so that a build ends
with one tree (spec/41_tree_builder.md R133 to R135, R141). -/

namespace Sys2Proof.Machine

/-! ### The key order (00_scope.md R18) -/

theorem keyLt_iff {node : Table Node} {i j : Nat} :
    keyLt node i j = true ↔
      (freqAt node i).toNat < (freqAt node j).toNat ∨ (freqAt node i).toNat = (freqAt node j).toNat ∧ i < j := by
  simp [keyLt, BitVec.lt_def, BitVec.toNat_inj]

theorem keyLt_irrefl (node : Table Node) (i : Nat) : keyLt node i i = false := by
  rw [← Bool.not_eq_true, keyLt_iff]; omega

theorem keyLt_trans {node : Table Node} {i j k : Nat} (h : keyLt node i j = true) (h' : keyLt node j k = true) :
    keyLt node i k = true := by
  rw [keyLt_iff] at *; omega

/-- Two different slots never have equal keys (R18). -/
theorem keyLt_total (node : Table Node) {i j : Nat} (h : i ≠ j) : keyLt node i j = true ∨ keyLt node j i = true := by
  simp only [keyLt_iff]; omega

theorem lowest_eq_none {node : Table Node} {q : List Nat} : lowest node q = none ↔ q = [] := by
  cases q with
  | nil => simp [lowest]
  | cons i q =>
    simp only [lowest]
    split
    · simp
    · split <;> simp

/-- A pop takes a queued slot whose key no queued slot is below (R134, R138). -/
theorem lowest_spec {node : Table Node} {q : List Nat} {p : Nat} (h : lowest node q = some p) :
    p ∈ q ∧ ∀ j ∈ q, j ≠ p → keyLt node p j = true := by
  induction q generalizing p with
  | nil => simp [lowest] at h
  | cons i q ih =>
    simp only [lowest] at h
    split at h
    · rename_i hn
      rw [lowest_eq_none] at hn
      simp_all
    · rename_i j hj
      obtain ⟨hm, hl⟩ := ih hj
      split at h <;> rename_i hk
      · cases h
        refine ⟨List.mem_cons_of_mem _ hm, fun k hk' hne => ?_⟩
        rcases List.mem_cons.1 hk' with rfl | hk'
        · exact hk
        · exact hl k hk' hne
      · cases h
        refine ⟨List.mem_cons_self, fun k hk' hne => ?_⟩
        rcases List.mem_cons.1 hk' with rfl | hk'
        · exact absurd rfl hne
        · rcases eq_or_ne k j with rfl | hkj
          · exact (keyLt_total node (Ne.symm hne)).resolve_right hk
          · rcases eq_or_ne i j with rfl | hij
            · exact hl k hk' hkj
            · exact keyLt_trans ((keyLt_total node hij).resolve_right hk) (hl k hk' hkj)

theorem enqueue_perm {i : Nat} {q : List Nat} (h : i ∉ q) : (enqueue i q).Perm (i :: q) := by
  induction q with
  | nil => exact .refl _
  | cons j q ih =>
    simp only [enqueue]
    split
    · exact .refl _
    · split
      · simp_all
      · exact (List.Perm.cons j (ih fun h' => h (List.mem_cons_of_mem _ h'))).trans (List.Perm.swap i j q)

/-! ### Trees in the node store -/

@[simp] theorem Shape.slot_leaf (a : Nat) : (Shape.leaf a).slot = a := rfl

@[simp] theorem Shape.slot_branch (i : Nat) (l r : Shape) : (Shape.branch i l r).slot = i := rfl

theorem Shape.slot_mem (t : Shape) : t.slot ∈ t.slots := by cases t <;> simp [Shape.slot, Shape.slots]

/-- The top of a tree is its highest slot (R141). -/
theorem Shape.slot_max {node : Table Node} {t : Shape} (h : t.In node) : ∀ i ∈ t.slots, i ≤ t.slot := by
  induction t with
  | leaf a => simp [Shape.slots, Shape.slot]
  | branch i l r ihl ihr =>
    obtain ⟨-, -, hl, hr, -, hL, hR⟩ := h
    intro j hj
    simp only [Shape.slots, List.mem_cons, List.mem_append, Shape.slot] at hj ⊢
    rcases hj with rfl | hj | hj
    · exact le_rfl
    · exact (ihl hL j hj).trans hl.le
    · exact (ihr hR j hj).trans hr.le

/-- Writing a slot that no tree uses keeps the tree. -/
theorem Shape.In_insert {node : Table Node} {t : Shape} {k : Nat} {n : Node} (h : t.In node) (hk : k ∉ t.slots) :
    t.In (node.insert k n) := by
  have hf : ∀ i, k ≠ i → freqAt (node.insert k n) i = freqAt node i := by
    intro i hi; simp [freqAt, Table.get?_insert, hi]
  induction t with
  | leaf a =>
    obtain ⟨h1, f, h2⟩ := h
    refine ⟨h1, f, ?_⟩
    rw [Table.get?_insert, if_neg (by simpa [Shape.slots] using hk), h2]
  | branch i l r ihl ihr =>
    obtain ⟨h1, h2, h3, h4, ⟨f, h5, h6⟩, h7, h8⟩ := h
    simp only [Shape.slots, List.mem_cons, List.mem_append, not_or] at hk
    have hl : k ≠ l.slot := fun e => hk.2.1 (e ▸ l.slot_mem)
    have hr : k ≠ r.slot := fun e => hk.2.2 (e ▸ r.slot_mem)
    refine ⟨h1, h2, h3, h4, ⟨f, ?_, ?_⟩, ihl h7 hk.2.1, ihr h8 hk.2.2⟩
    · rw [Table.get?_insert, if_neg hk.1, h5]
    · rw [hf _ hl, hf _ hr, h6]

theorem leaves_length (G : List Shape) : G.length ≤ (G.flatMap Shape.leaves).length := by
  have pos : ∀ t : Shape, 0 < t.leaves.length := by
    intro t
    induction t with
    | leaf => simp [Shape.leaves]
    | branch i l r ihl ihr => simp [Shape.leaves]; omega
  induction G with
  | nil => simp
  | cons t G ih =>
    have := pos t
    simp only [List.flatMap_cons, List.length_append, List.length_cons]; omega

/-- The frequency sum of the queued trees, the width left out. -/
def topSum (node : Table Node) (F : List Shape) : Nat := (F.map (fun t => (freqAt node t.slot).toNat)).sum

/-- The sum of the counts of a list of symbols. -/
def total (P : Table Count) : Nat := (P.map (fun e => e.2.toNat)).sum

/-- What a build keeps: the slots in use are those of a forest whose tops are queued, internal nodes filling the slots
from 256 up to `NXT`, leaves and total frequency those of the seeded symbols `P`. -/
structure Forest (P : Table Count) (e : Engine) (F : List Shape) : Prop where
  inNode : ∀ t ∈ F, t.In e.node
  nodup : (F.flatMap Shape.slots).Nodup
  used : ∀ i, (e.node.get? i).isSome ↔ i ∈ F.flatMap Shape.slots
  queued : e.inq.Perm (F.map Shape.slot)
  nxt : e.nxt.toNat + F.length = 256 + P.length
  filled : ∀ i, 256 ≤ i → ((e.node.get? i).isSome ↔ i < e.nxt.toNat)
  leaves : (F.flatMap Shape.leaves).Perm (P.map Prod.fst)
  sum : topSum e.node F = total P
  leafNode : ∀ i < 256, e.node.get? i = (P.get? i).map (fun c => .leaf (c.setWidth 40) (BitVec.ofNat 8 i))
  wf : nodeWf e.node

theorem flatMap_perm_slots {F G : List Shape} (h : F.Perm G) : (F.flatMap Shape.slots).Perm (G.flatMap Shape.slots) :=
  h.flatMap_right _

theorem Forest.perm {P : Table Count} {e : Engine} {F G : List Shape} (h : Forest P e F)
    (hp : F.Perm G) : Forest P e G where
  inNode := fun t ht => h.inNode t (hp.mem_iff.2 ht)
  nodup := (hp.flatMap_right _).nodup_iff.1 h.nodup
  used := fun i => (h.used i).trans (hp.flatMap_right _).mem_iff
  queued := h.queued.trans (hp.map _)
  nxt := hp.length_eq ▸ h.nxt
  filled := h.filled
  leaves := (hp.flatMap_right _).symm.trans h.leaves
  sum := by rw [← h.sum]; exact ((hp.map _).sum_eq).symm
  leafNode := h.leafNode
  wf := h.wf

theorem Forest.inq_nodup {P : Table Count} {e : Engine} {F : List Shape} (h : Forest P e F) :
    e.inq.Nodup := by
  refine h.queued.nodup_iff.2 ?_
  have : ∀ F : List Shape, (F.flatMap Shape.slots).Nodup → (F.map Shape.slot).Nodup := by
    intro F
    induction F with
    | nil => simp
    | cons t F ih =>
      intro hn
      rw [List.flatMap_cons, List.nodup_append] at hn
      rw [List.map_cons, List.nodup_cons]
      refine ⟨fun hm => ?_, ih hn.2.1⟩
      obtain ⟨u, hu, he⟩ := List.mem_map.1 hm
      exact hn.2.2 _ t.slot_mem _ (List.mem_flatMap.2 ⟨u, hu, u.slot_mem⟩) he.symm
  exact this F h.nodup

/-- The two pops of a merge: two different queued slots, the lowest keys in order, and the rest of the queue (R134). -/
theorem merge_pops {e : Engine} (hn : e.inq.Nodup) (h : 1 < e.inq.length) :
    ∃ p q rest, e.inq.Perm (p :: q :: rest) ∧ p ≠ q ∧ keyLt e.node p q = true ∧
      (∀ j ∈ rest, keyLt e.node q j = true) ∧ merge e = push p q { e with inq := (e.inq.erase p).erase q } := by
  cases hp : lowest e.node e.inq with
  | none => rw [lowest_eq_none] at hp; simp [hp] at h
  | some p =>
    obtain ⟨pm, pl⟩ := lowest_spec hp
    have len := List.length_erase_of_mem pm
    cases hq : lowest e.node (e.inq.erase p) with
    | none => rw [lowest_eq_none] at hq; rw [hq] at len; simp at len; omega
    | some q =>
      obtain ⟨qm, ql⟩ := lowest_spec hq
      have qne : q ≠ p := fun h' => by rw [h', List.Nodup.mem_erase_iff hn] at qm; exact qm.1 rfl
      refine ⟨p, q, (e.inq.erase p).erase q, ?_, qne.symm, pl q (List.mem_of_mem_erase qm) qne, ?_, ?_⟩
      · exact (List.perm_cons_erase pm).trans ((List.perm_cons_erase qm).cons p)
      · intro j hj
        rw [List.Nodup.mem_erase_iff (hn.erase p)] at hj
        exact ql j hj.2 hj.1
      · simp only [merge, pop, hp, hq]

theorem freqAt_toNat_lt (node : Table Node) (i : Nat) : (freqAt node i).toNat < 2 ^ 40 := (freqAt node i).isLt

/-- A merge joins two trees of the forest into one (R134). -/
theorem merge_forest {P : Table Count} {e : Engine} {F : List Shape} (h : Forest P e F)
    (hk : P.length ≤ 256) (ht : total P < 2 ^ 40) (hF : 1 < F.length) :
    ∃ G, Forest P (merge e) G ∧ G.length + 1 = F.length := by
  have hlen : e.inq.length = F.length := by rw [h.queued.length_eq, List.length_map]
  obtain ⟨p, q, rest, hperm, hpq, -, -, hm⟩ := merge_pops h.inq_nodup (hlen ▸ hF)
  -- the two popped slots are the tops of two trees
  have hpF : p ∈ F.map Shape.slot := h.queued.mem_iff.1 (hperm.mem_iff.2 (by simp))
  obtain ⟨tp, htp, rfl⟩ := List.mem_map.1 hpF
  have hqF : q ∈ F.map Shape.slot := h.queued.mem_iff.1 (hperm.mem_iff.2 (by simp))
  obtain ⟨tq, htq, rfl⟩ := List.mem_map.1 hqF
  obtain ⟨F₁, F₁', rfl⟩ := List.append_of_mem htp
  have hp1 : (F₁ ++ tp :: F₁').Perm (tp :: (F₁ ++ F₁')) := List.perm_middle
  have htq' : tq ∈ F₁ ++ F₁' := by
    rcases List.mem_cons.1 (hp1.mem_iff.1 htq) with rfl | h'
    · exact absurd rfl hpq
    · exact h'
  obtain ⟨F₂, F₂', hF₂⟩ := List.append_of_mem htq'
  have hp2 : (F₁ ++ tp :: F₁').Perm (tp :: tq :: (F₂ ++ F₂')) :=
    hp1.trans (by rw [hF₂]; exact List.perm_middle.cons tp)
  generalize F₂ ++ F₂' = R at hp2
  have hlenF := hp2.length_eq
  have h' := h.perm hp2
  clear hp1 htq' hF₂ htp htq
  rw [hm]
  -- names
  set e' : Engine := { e with inq := (e.inq.erase tp.slot).erase tq.slot } with he'
  have hnx := h'.nxt
  simp only [List.length_cons] at hnx
  set nx := e.nxt.toNat with hnxdef
  have hnx1 : nx < 511 := by omega
  have h256 : 256 ≤ nx := by
    have := leaves_length (tp :: tq :: R)
    rw [h'.leaves.length_eq, List.length_map] at this
    simp only [List.length_cons] at this
    omega
  have hfresh : (e.node.get? nx) = none := by
    have := (h'.filled nx h256).not.2 (lt_irrefl _)
    simpa using this
  have hnot : ∀ t ∈ tp :: tq :: R, nx ∉ t.slots := by
    intro t ht hmem
    have := (h'.used nx).2 (List.mem_flatMap.2 ⟨t, ht, hmem⟩)
    rw [hfresh] at this; simp at this
  have hsl : ∀ t ∈ tp :: tq :: R, t.slot ≠ nx := fun t ht heq => hnot t ht (heq ▸ t.slot_mem)
  have hslot_lt : ∀ t ∈ tp :: tq :: R, t.slot < nx := by
    intro t ht
    by_cases hlt : 256 ≤ t.slot
    · exact (h'.filled _ hlt).1 ((h'.used _).2 (List.mem_flatMap.2 ⟨t, ht, t.slot_mem⟩))
    · omega
  set n : Node := .internal (freqAt e.node tp.slot + freqAt e.node tq.slot) (BitVec.ofNat 9 tp.slot)
    (BitVec.ofNat 9 tq.slot) with hn
  have hnode : (push tp.slot tq.slot e').node = e.node.insert nx n := rfl
  have hfreq : ∀ i, i ≠ nx → freqAt (e.node.insert nx n) i = freqAt e.node i := by
    intro i hi; simp [freqAt, Table.get?_insert, Ne.symm hi]
  have hfreqn : freqAt (e.node.insert nx n) nx = freqAt e.node tp.slot + freqAt e.node tq.slot := by
    simp [freqAt, Table.get?_insert, hn, Node.freq]
  have hsum := h'.sum
  simp only [topSum, List.map_cons, List.sum_cons] at hsum
  have hadd : (freqAt e.node tp.slot + freqAt e.node tq.slot).toNat =
      (freqAt e.node tp.slot).toNat + (freqAt e.node tq.slot).toNat := by
    rw [BitVec.toNat_add, Nat.mod_eq_of_lt]; omega
  refine ⟨.branch nx tp tq :: R, ?_, by simp at hlenF ⊢; omega⟩
  constructor
  · intro t ht
    rw [hnode]
    rcases List.mem_cons.1 ht with rfl | ht
    · have m1 : tp ∈ tp :: tq :: R := by simp
      have m2 : tq ∈ tp :: tq :: R := by simp
      refine ⟨h256, hnx1, hslot_lt _ m1, hslot_lt _ m2, ⟨freqAt e.node tp.slot + freqAt e.node tq.slot, ?_, ?_⟩,
        Shape.In_insert (h'.inNode _ m1) (hnot _ m1), Shape.In_insert (h'.inNode _ m2) (hnot _ m2)⟩
      · rw [Table.get?_insert, if_pos rfl]
      · rw [hfreq _ (hsl _ m1), hfreq _ (hsl _ m2), hadd]
    · have m : t ∈ tp :: tq :: R := by simp [ht]
      exact Shape.In_insert (h'.inNode _ m) (hnot _ m)
  · have := h'.nodup
    simp only [List.flatMap_cons, Shape.slots, List.cons_append, List.nodup_cons, List.append_assoc] at this ⊢
    refine ⟨?_, this⟩
    have hn1 := hnot tp (by simp)
    have hn2 := hnot tq (by simp)
    have hn3 : nx ∉ R.flatMap Shape.slots := by
      intro hmem
      obtain ⟨t, ht, hm'⟩ := List.mem_flatMap.1 hmem
      exact hnot t (by simp [ht]) hm'
    simp only [List.mem_append, not_or]
    exact ⟨hn1, hn2, hn3⟩
  · intro i
    rw [hnode, Table.get?_insert]
    have hu := h'.used i
    simp only [List.flatMap_cons, Shape.slots, List.cons_append, List.mem_cons, List.mem_append, List.append_assoc] at hu ⊢
    by_cases hi : nx = i
    · simp [hi]
    · rw [if_neg hi, hu]
      constructor
      · intro h; exact .inr h
      · rintro (h | h)
        · exact absurd h.symm hi
        · exact h
  · have hfr : nx ∉ (e.inq.erase tp.slot).erase tq.slot := by
      intro hmem
      have := h'.queued.mem_iff.1 (List.mem_of_mem_erase (List.mem_of_mem_erase hmem))
      obtain ⟨t, ht, heq⟩ := List.mem_map.1 this
      exact hsl t ht heq
    have hq1 : ((e.inq.erase tp.slot).erase tq.slot).Perm (R.map Shape.slot) := by
      have := (h'.queued.erase tp.slot).erase tq.slot
      simpa using this
    exact (enqueue_perm hfr).trans (hq1.cons nx)
  · show (e.nxt + 1).toNat + _ = _
    rw [BitVec.toNat_add, Nat.mod_eq_of_lt (by simp; omega)]
    simp only [List.length_cons]
    simp
    omega
  · intro i hi
    show _ ↔ i < (e.nxt + 1).toNat
    rw [BitVec.toNat_add, Nat.mod_eq_of_lt (by simp; omega), hnode, Table.get?_insert]
    have hu := h'.filled i hi
    split
    · rename_i heq; subst heq; simp [hnxdef]
    · rename_i hne; rw [hu]; simp; omega
  · have := h'.leaves
    simpa [Shape.leaves] using this
  · rw [hnode]
    have hR : R.map (fun t => (freqAt (e.node.insert nx n) t.slot).toNat) =
        R.map (fun t => (freqAt e.node t.slot).toNat) := by
      refine List.map_congr_left fun t ht => ?_
      rw [hfreq _ (hsl t (by simp [ht]))]
    have hb : (Shape.branch nx tp tq).slot = nx := rfl
    simp only [topSum, List.map_cons, List.sum_cons, hb, hfreqn, hadd, hR]
    omega
  · intro i hi
    rw [hnode, Table.get?_insert, if_neg (by omega)]
    exact h'.leafNode i hi
  · rw [hnode]; exact Table.wf_insert h'.wf hnx1 rfl


/-! ### Seeding and building -/

theorem presentSyms_rising {ft : Table Count} (h : ft.rising = true) : (presentSyms ft).rising = true := by
  induction ft with
  | nil => rfl
  | cons a t ih =>
    obtain ⟨j, w⟩ := a
    have hc := Table.rising_cons.1 h
    simp only [presentSyms, List.filter_cons]
    split
    · refine Table.rising_cons.2 ⟨fun e he => hc.1 e (List.mem_of_mem_filter he), ih hc.2⟩
    · exact ih hc.2

theorem presentSyms_of_ftWf {ft : Table Count} (h : ftWf ft) : presentSyms ft = ft := by
  rw [ftWf, Table.wf_iff] at h
  refine List.filter_eq_self.2 fun e he => ?_
  have := (h.2 e he).2
  simpa using this

theorem get?_map {α β : Type} (t : Table α) (g : Nat → α → β) (k : Nat) :
    Table.get? (t.map (fun e => (e.1, g e.1 e.2))) k = (t.get? k).map (g k) := by
  induction t with
  | nil => rfl
  | cons a t ih =>
    obtain ⟨j, w⟩ := a
    simp only [List.map_cons, Table.get?_cons, ih]
    split
    · rename_i h; subst h; rfl
    · rfl

theorem rising_map {α β : Type} {t : Table α} (g : Nat → α → β) (h : t.rising = true) :
    Table.rising (t.map (fun e => (e.1, g e.1 e.2))) = true := by
  induction t with
  | nil => rfl
  | cons a t ih =>
    obtain ⟨j, w⟩ := a
    have hc := Table.rising_cons.1 h
    refine Table.rising_cons.2 ⟨fun e he => ?_, ih hc.2⟩
    obtain ⟨x, hx, rfl⟩ := List.mem_map.1 he
    exact hc.1 x hx

/-- At most 256 symbols are in a table in canonical form. -/
theorem ftWf_length {ft : Table Count} (h : ftWf ft) : ft.length ≤ 256 := by
  rw [ftWf, Table.wf_iff] at h
  have hn := Table.keys_nodup h.1
  have hsub : ft.map Prod.fst ⊆ List.range 256 := by
    intro k hk
    obtain ⟨e, he, rfl⟩ := List.mem_map.1 hk
    exact List.mem_range.2 (h.2 e he).1
  have := (List.Nodup.subperm hn hsub).length_le
  simpa using this

theorem total_lt {P : Table Count} (h : P.length ≤ 256) : total P < 2 ^ 40 := by
  have : ∀ P : Table Count, total P ≤ P.length * (2 ^ 32 - 1) := by
    intro P
    induction P with
    | nil => simp [total]
    | cons e P ih =>
      have := e.2.isLt
      simp only [total, List.map_cons, List.sum_cons, List.length_cons] at ih ⊢
      omega
  have := this P
  omega

/-- The symbols present are the keys of the table, in order (10_state.md R23). -/
theorem range_filter_count {ft : Table Count} (h : ftWf ft) :
    (List.range 256).filter (fun k => count ft (BitVec.ofNat 8 k) != 0) = ft.map Prod.fst := by
  have hw := Table.wf_iff.1 h
  refine List.Perm.eq_of_pairwise' (r := (· < ·)) (List.Pairwise.filter _ List.pairwise_lt_range) ?_ ?_
  · have : ∀ t : Table Count, t.rising = true → (t.map Prod.fst).Pairwise (· < ·) := by
      intro t
      induction t with
      | nil => intro _; exact .nil
      | cons a t ih =>
        intro hr
        have hc := Table.rising_cons.1 hr
        rw [List.map_cons, List.pairwise_cons]
        refine ⟨fun k hk => ?_, ih hc.2⟩
        obtain ⟨e, he, rfl⟩ := List.mem_map.1 hk
        exact hc.1 e he
    exact this ft hw.1
  · refine (List.perm_ext_iff_of_nodup (List.nodup_range.filter _) (Table.keys_nodup hw.1)).2 fun k => ?_
    rw [List.mem_filter, List.mem_range]
    constructor
    · rintro ⟨hk, hc⟩
      have hg := get?_eq_count h k
      rw [if_pos ⟨hk, by simpa using hc⟩] at hg
      exact List.mem_map.2 ⟨_, Table.get?_mem hg, rfl⟩
    · intro hk
      obtain ⟨e, he, rfl⟩ := List.mem_map.1 hk
      have h1 : e.1 < 256 := (hw.2 e he).1
      refine ⟨h1, ?_⟩
      have h2 := Table.get?_of_mem hw.1 (show (e.1, e.2) ∈ ft from he)
      have h3 : (BitVec.ofNat 8 e.1).toNat = e.1 := by rw [BitVec.toNat_ofNat, Nat.mod_eq_of_lt h1]
      have h4 : count ft (BitVec.ofNat 8 e.1) = e.2 := by rw [count, h3, h2]; rfl
      rw [h4]
      simpa using (hw.2 e he).2

/-- A sum over the alphabet of a quantity that is 0 at count 0 is a sum over the present symbols. -/
theorem range_sum_count {ft : Table Count} (h : ftWf ft) (g : Nat → Count → Nat) (g0 : ∀ k, g k 0 = 0) :
    ((List.range 256).map (fun k => g k (count ft (BitVec.ofNat 8 k)))).sum = (ft.map (fun e => g e.1 e.2)).sum := by
  have hw := Table.wf_iff.1 h
  have drop : ∀ l : List Nat, (l.map (fun k => g k (count ft (BitVec.ofNat 8 k)))).sum =
      ((l.filter (fun k => count ft (BitVec.ofNat 8 k) != 0)).map (fun k => g k (count ft (BitVec.ofNat 8 k)))).sum := by
    intro l
    induction l with
    | nil => rfl
    | cons k l ih =>
      rw [List.map_cons, List.sum_cons, ih, List.filter_cons]
      split
      · rw [List.map_cons, List.sum_cons]
      · rename_i hz
        have hz' : count ft (BitVec.ofNat 8 k) = 0 := by simpa using hz
        rw [hz', g0, Nat.zero_add]
  rw [drop, range_filter_count h, List.map_map]
  refine congrArg _ (List.map_congr_left fun e he => ?_)
  have h1 : e.1 < 256 := (hw.2 e he).1
  have h2 := Table.get?_of_mem hw.1 (show (e.1, e.2) ∈ ft from he)
  have h3 : (BitVec.ofNat 8 e.1).toNat = e.1 := by rw [BitVec.toNat_ofNat, Nat.mod_eq_of_lt h1]
  have h4 : count ft (BitVec.ofNat 8 e.1) = e.2 := by rw [count, h3, h2]; rfl
  simp only [Function.comp, h4]

theorem leafForest_slots (ft : Table Count) :
    (ft.map (fun e => Shape.leaf e.1)).flatMap Shape.slots = ft.map Prod.fst ∧
      (ft.map (fun e => Shape.leaf e.1)).flatMap Shape.leaves = ft.map Prod.fst := by
  induction ft with
  | nil => exact ⟨rfl, rfl⟩
  | cons a t ih => simp [Shape.slots, Shape.leaves] at ih ⊢; exact ih

/-- Seeding makes a forest of leaves (R133). -/
theorem seed_forest {ft : Table Count} (h : ftWf ft) :
    Forest ft (seed ft) (ft.map (fun e => Shape.leaf e.1)) := by
  have hp := presentSyms_of_ftWf h
  have hnode : (seed ft).node = ft.map (fun e => (e.1, Node.leaf (e.2.setWidth 40) (BitVec.ofNat 8 e.1))) := by
    simp only [seed, hp]
  have hget : ∀ i, (seed ft).node.get? i = (ft.get? i).map (fun c => Node.leaf (c.setWidth 40) (BitVec.ofNat 8 i)) := by
    intro i
    rw [hnode]
    exact get?_map ft (fun k c => Node.leaf (c.setWidth 40) (BitVec.ofNat 8 k)) i
  have hw := Table.wf_iff.1 h
  have hkeys : ∀ k, (ft.get? k).isSome ↔ k ∈ ft.map Prod.fst := by
    intro k
    constructor
    · intro hk
      obtain ⟨v, hv⟩ := Option.isSome_iff_exists.1 hk
      exact List.mem_map.2 ⟨_, Table.get?_mem hv, rfl⟩
    · intro hk
      obtain ⟨e, he, rfl⟩ := List.mem_map.1 hk
      simp [Table.get?_of_mem hw.1 (show (e.1, e.2) ∈ ft from he)]
  constructor
  · intro t ht
    obtain ⟨e, he, rfl⟩ := List.mem_map.1 ht
    refine ⟨(hw.2 e he).1, e.2.setWidth 40, ?_⟩
    rw [hget, Table.get?_of_mem hw.1 (show (e.1, e.2) ∈ ft from he)]; rfl
  · rw [(leafForest_slots ft).1]; exact Table.keys_nodup hw.1
  · intro i; rw [(leafForest_slots ft).1, ← hkeys, hget]; simp
  · simp only [seed, hp, List.map_map]; exact .refl _
  · simp [seed]
  · intro i hi
    have : (ft.get? i) = none := Table.get?_eq_none fun e he => by
      have : e.1 < 256 := (hw.2 e he).1
      omega
    rw [hget, this]; simp [seed]; omega
  · rw [(leafForest_slots ft).2]
  · have : ∀ e ∈ ft, (freqAt (seed ft).node e.1).toNat = e.2.toNat := by
      intro e he
      rw [freqAt, hget, Table.get?_of_mem hw.1 (show (e.1, e.2) ∈ ft from he)]
      have := e.2.isLt
      simp [Node.freq]; omega
    simp only [topSum, total, List.map_map]
    exact congrArg _ (List.map_congr_left fun e he => this e he)
  · intro i _; exact hget i
  · rw [nodeWf, Table.wf_iff, hnode]
    refine ⟨rising_map (fun k c => Node.leaf (c.setWidth 40) (BitVec.ofNat 8 k)) hw.1, fun x hx => ?_⟩
    obtain ⟨e, he, rfl⟩ := List.mem_map.1 hx
    have : e.1 < 256 := (hw.2 e he).1
    exact ⟨show e.1 < 511 by omega, rfl⟩

theorem mergeAll_forest {P : Table Count} (hk : P.length ≤ 256) (ht : total P < 2 ^ 40) :
    ∀ (k : Nat) (e : Engine) (F : List Shape), Forest P e F → F ≠ [] → F.length ≤ k + 1 →
      ∃ t, Forest P (mergeAll k e) [t] := by
  intro k
  induction k with
  | zero =>
    intro e F h hF hl
    match F, hF with
    | [t], _ => exact ⟨t, h⟩
    | _ :: _ :: _, _ => simp at hl
  | succ k ih =>
    intro e F h hF hl
    have hlen : e.inq.length = F.length := by rw [h.queued.length_eq, List.length_map]
    simp only [mergeAll]
    split
    · obtain ⟨G, hG, hGl⟩ := merge_forest h hk ht (by omega)
      exact ih _ G hG (by rintro rfl; simp at hGl; omega) (by omega)
    · match F, hF with
      | [t], _ => exact ⟨t, h⟩
      | _ :: _ :: _, _ => simp at hlen; omega

/-- A build of a frequency table with a symbol ends with one tree (R131, R135, R141). -/
theorem build_forest {ft : Table Count} (h : ftWf ft) (hne : ft ≠ []) : ∃ t, Forest ft (build ft) [t] := by
  have hs := seed_forest h
  have hl : (seed ft).inq.length = ft.length := by rw [hs.queued.length_eq]; simp
  exact mergeAll_forest (ftWf_length h) (total_lt (ftWf_length h)) _ _ _ hs (by simpa using hne) (by simp [hl])

/-- What one tree of a whole forest says of the tree store (R44(a), R135). -/
theorem Forest.treeOk {P : Table Count} {e : Engine} {t : Shape} (h : Forest P e [t]) :
    t.slot < 511 ∧ rootOf e = t.slot ∧ e.inq = [t.slot] ∧ TreeOk e.node (BitVec.ofNat 9 t.slot) := by
  have hin := h.inNode t (by simp)
  have hq : e.inq = [t.slot] := List.perm_singleton.1 h.queued
  have hlt : t.slot < 511 := by
    cases t with
    | leaf a => exact lt_trans hin.1 (by decide)
    | branch i l r => exact hin.2.1
  refine ⟨hlt, by simp [rootOf, hq], hq, t, hin, ?_, by simpa using h.nodup, by simpa using h.used⟩
  rw [BitVec.toNat_ofNat, Nat.mod_eq_of_lt]; omega

end Sys2Proof.Machine
end

