-- ==== Sys2Proof/Laws/Generator.lean ====
section
/-! SUPPORT. The laws of the code generator: the walk of a tree succeeds and its codes are bounded and prefix-free, and the
two tables written from such codes are exact inverses (spec/42_code_table_generator.md R152 to R157, 10_state.md R30). -/

namespace Sys2Proof.Machine

/-! ### The walk of a tree (R152) -/

/-- The longest way down a tree. -/
def Shape.depth : Shape → Nat
  | .leaf _ => 0
  | .branch _ l r => 1 + max l.depth r.depth

/-- The codes of a tree's leaves in pre-order, each the path to it. -/
def Shape.codes : Shape → Bits → List (Sym × Bits)
  | .leaf a, path => [(BitVec.ofNat 8 a, path)]
  | .branch _ l r, path => l.codes (path ++ [false]) ++ r.codes (path ++ [true])

theorem nodeAt_ofNat {node : Table Node} {i : Nat} (h : i < 511) : nodeAt node (BitVec.ofNat 9 i) = node.get? i := by
  have hi : (BitVec.ofNat 9 i).toNat = i := by rw [BitVec.toNat_ofNat, Nat.mod_eq_of_lt]; omega
  rw [nodeAt, hi, if_neg (show ¬ 511 ≤ i by omega)]

theorem Shape.slot_lt {node : Table Node} {t : Shape} (h : t.In node) : t.slot < 511 := by
  cases t with
  | leaf a => exact lt_trans h.1 (by decide)
  | branch i l r => exact h.2.1

/-- The traversal of a tree reaches its leaves, as long as the stack is as deep as the tree (R36, R152). -/
theorem walk_shape {node : Table Node} {t : Shape} (h : t.In node) :
    ∀ (k : Nat) (path : Bits), t.depth < k → walk node k (BitVec.ofNat 9 t.slot) path = some (t.codes path) := by
  induction t with
  | leaf a =>
    intro k path hk
    obtain ⟨ha, f, hf⟩ := h
    cases k with
    | zero => simp at hk
    | succ k => simp only [walk, Shape.slot_leaf, nodeAt_ofNat (show a < 511 by omega), hf, Shape.codes]
  | branch i l r ihl ihr =>
    intro k path hk
    obtain ⟨-, hi, -, -, ⟨f, hf, -⟩, hl, hr⟩ := h
    cases k with
    | zero => simp at hk
    | succ k =>
      simp only [Shape.depth] at hk
      simp only [walk, Shape.slot_branch, nodeAt_ofNat hi, hf, Shape.codes, ihl hl k _ (by omega), ihr hr k _ (by omega)]

theorem Shape.depth_lt_leaves (t : Shape) : t.depth < t.leaves.length := by
  induction t with
  | leaf => simp [Shape.depth, Shape.leaves]
  | branch i l r ihl ihr => simp [Shape.depth, Shape.leaves]; omega

theorem Shape.leaves_sublist (t : Shape) : t.leaves.Sublist t.slots := by
  induction t with
  | leaf => exact .refl _
  | branch i l r ihl ihr => exact (ihl.append ihr).cons i

theorem Shape.leaves_lt {node : Table Node} {t : Shape} (h : t.In node) : ∀ a ∈ t.leaves, a < 256 := by
  induction t with
  | leaf a => intro b hb; simp [Shape.leaves] at hb; subst hb; exact h.1
  | branch i l r ihl ihr =>
    obtain ⟨-, -, -, -, -, hl, hr⟩ := h
    intro b hb
    rcases List.mem_append.1 hb with hb | hb
    · exact ihl hl b hb
    · exact ihr hr b hb

/-- A tree over symbols has depth at most `CODE_MAX` (00_scope.md R9). -/
theorem Shape.depth_le {node : Table Node} {t : Shape} (h : t.In node) (hn : t.slots.Nodup) : t.depth ≤ 255 := by
  have h1 := t.depth_lt_leaves
  have hsub : t.leaves ⊆ List.range 256 := fun a ha => List.mem_range.2 (t.leaves_lt h a ha)
  have := ((hn.sublist t.leaves_sublist).subperm hsub).length_le
  simp at this
  omega

theorem Shape.codes_fst (t : Shape) (path : Bits) : (t.codes path).map Prod.fst = t.leaves.map (BitVec.ofNat 8) := by
  induction t generalizing path with
  | leaf a => rfl
  | branch i l r ihl ihr => simp [Shape.codes, Shape.leaves, ihl, ihr]

/-- Each code of a tree extends the path so far by at most the tree's depth. -/
theorem Shape.codes_ext (t : Shape) (path : Bits) :
    ∀ e ∈ t.codes path, path <+: e.2 ∧ e.2.length ≤ path.length + t.depth := by
  induction t generalizing path with
  | leaf a => intro e he; simp [Shape.codes] at he; subst he; simp [Shape.depth]
  | branch i l r ihl ihr =>
    intro e he
    simp only [Shape.codes, List.mem_append] at he
    simp only [Shape.depth]
    rcases he with he | he
    · obtain ⟨h1, h2⟩ := ihl _ e he
      refine ⟨(List.prefix_append _ _).trans h1, ?_⟩
      simp at h2; omega
    · obtain ⟨h1, h2⟩ := ihr _ e he
      refine ⟨(List.prefix_append _ _).trans h1, ?_⟩
      simp at h2; omega

theorem not_prefix_of_branch {path c d : Bits} {x y : Bool} (hc : path ++ [x] <+: c) (hd : path ++ [y] <+: d)
    (hxy : x ≠ y) : ¬ c <+: d := by
  intro h
  obtain ⟨u, rfl⟩ := hc
  obtain ⟨v, rfl⟩ := hd
  obtain ⟨w, hw⟩ := h
  simp only [List.append_assoc, List.append_cancel_left_eq] at hw
  simp at hw
  exact hxy hw.1

/-- No two codes of a tree are prefixes of one another (R156). -/
theorem Shape.codes_prefixFree (t : Shape) (path : Bits) :
    (t.codes path).Pairwise (fun e e' => ¬ e.2 <+: e'.2 ∧ ¬ e'.2 <+: e.2) := by
  induction t generalizing path with
  | leaf a => simp [Shape.codes]
  | branch i l r ihl ihr =>
    simp only [Shape.codes, List.pairwise_append]
    refine ⟨ihl _, ihr _, fun e he e' he' => ?_⟩
    have h1 := (l.codes_ext _ e he).1
    have h2 := (r.codes_ext _ e' he').1
    exact ⟨not_prefix_of_branch h1 h2 (by simp), not_prefix_of_branch h2 h1 (by simp)⟩

/-! ### Assignments and the tables made of them (R154) -/

/-- Assignments as a walk gives them: one a symbol, codes of length `1..CODE_MAX`, none a prefix of another. -/
structure GoodCodes (as : List (Sym × Bits)) : Prop where
  ne : as ≠ []
  nodup : (as.map Prod.fst).Nodup
  bounded : ∀ e ∈ as, 1 ≤ e.2.length ∧ e.2.length ≤ 255
  prefixFree : as.Pairwise (fun e e' => ¬ e.2 <+: e'.2 ∧ ¬ e'.2 <+: e.2)

theorem ofNat8_inj {a b : Nat} (ha : a < 256) (hb : b < 256) (h : BitVec.ofNat 8 a = BitVec.ofNat 8 b) : a = b := by
  have := congrArg BitVec.toNat h
  simpa [Nat.mod_eq_of_lt ha, Nat.mod_eq_of_lt hb] using this

/-- The assignments of a tree with an internal root are the codes of its leaves (R152). -/
theorem assignments_branch {node : Table Node} {root : Idx} {i : Nat} {l r : Shape} (h : (Shape.branch i l r).In node)
    (hs : i = root.toNat) (hn : (Shape.branch i l r).slots.Nodup) :
    assignments node root = some ((Shape.branch i l r).codes []) := by
  have hroot : root = BitVec.ofNat 9 i := by rw [hs]; simp
  have hnode : nodeAt node root = node.get? i := by rw [hroot]; exact nodeAt_ofNat (Shape.slot_lt h)
  rw [h.2.2.2.2.1.choose_spec.1] at hnode
  have hd := Shape.depth_le h hn
  rw [assignments, hnode, hroot]
  exact walk_shape h 256 [] (by omega)

/-- The generator on a tree: it succeeds, its codes are good, and it codes exactly the leaves (R152, R153, R157). -/
theorem assignments_tree {node : Table Node} {root : Idx} {t : Shape} (h : t.In node) (hs : t.slot = root.toNat)
    (hn : t.slots.Nodup) :
    ∃ as, assignments node root = some as ∧ GoodCodes as ∧ as.map Prod.fst = t.leaves.map (BitVec.ofNat 8) := by
  have hroot : root = BitVec.ofNat 9 t.slot := by rw [hs]; simp
  have hnode : nodeAt node root = node.get? t.slot := by rw [hroot]; exact nodeAt_ofNat (t.slot_lt h)
  cases t with
  | leaf a =>
    obtain ⟨ha, f, hf⟩ := h
    refine ⟨[(BitVec.ofNat 8 a, [false])], ?_, ⟨by simp, by simp, by simp, by simp⟩, rfl⟩
    rw [Shape.slot_leaf, hf] at hnode
    rw [assignments, hnode]
  | branch i l r =>
    have hd := Shape.depth_le h hn
    refine ⟨(Shape.branch i l r).codes [], assignments_branch h hs hn, ⟨?_, ?_, ?_, ?_⟩, Shape.codes_fst _ _⟩
    · intro he
      have := congrArg (List.map Prod.fst) he
      rw [Shape.codes_fst] at this
      have h0 := (Shape.branch i l r).depth_lt_leaves
      simp at this
      rw [this] at h0
      simp at h0
    · rw [Shape.codes_fst]
      refine List.Nodup.map_on ?_ (hn.sublist (Shape.leaves_sublist _))
      intro a ha b hb
      exact ofNat8_inj (Shape.leaves_lt h a ha) (Shape.leaves_lt h b hb)
    · intro e he
      refine ⟨?_, by have := (Shape.codes_ext _ _ e he).2; simp at this; omega⟩
      simp only [Shape.codes, List.mem_append] at he
      rcases he with he | he
      · have := (Shape.codes_ext _ _ e he).1.length_le; simpa using this
      · have := (Shape.codes_ext _ _ e he).1.length_le; simpa using this
    · exact Shape.codes_prefixFree _ _

theorem tablesFold (as : List (Sym × Bits)) : ∀ t : CodeTables, (as.map Prod.fst).Nodup →
    (∀ e ∈ as, t.ct.get? e.1.toNat = none) →
    (∀ a c, codeOf (as.foldl assign t).ct a = some c ↔ (a, c) ∈ as ∨ codeOf t.ct a = some c) ∧
      (as.foldl assign t).ict = t.ict ++ as.map (fun e => { code := e.2, sym := e.1 }) := by
  induction as with
  | nil => intro t _ _; simp
  | cons e as ih =>
    intro t hn hf
    rw [List.map_cons, List.nodup_cons] at hn
    have hne : ∀ x ∈ as, e.1.toNat ≠ x.1.toNat := by
      intro x hx h
      exact hn.1 (List.mem_map.2 ⟨x, hx, (BitVec.toNat_inj.1 h).symm⟩)
    obtain ⟨h1, h2⟩ := ih (assign t e) hn.2 (by
      intro x hx
      show (t.ct.insert e.1.toNat e.2).get? x.1.toNat = none
      rw [Table.get?_insert, if_neg (hne x hx)]
      exact hf x (by simp [hx]))
    refine ⟨fun a c => ?_, ?_⟩
    · rw [List.foldl_cons, h1]
      show _ ∨ (t.ct.insert e.1.toNat e.2).get? a.toNat = some c ↔ _
      rw [Table.get?_insert, List.mem_cons]
      split
      · rename_i heq
        have ha : e.1 = a := BitVec.toNat_inj.1 heq
        have hno : codeOf t.ct a = none := ha ▸ hf e (by simp)
        rw [hno]
        constructor
        · rintro (h | h)
          · exact .inl (.inr h)
          · refine .inl (.inl ?_)
            cases h; rw [← ha]
        · rintro ((h | h) | h)
          · exact .inr (by rw [← h])
          · exact .inl h
          · simp at h
      · rename_i heq
        constructor
        · rintro (h | h)
          · exact .inl (.inr h)
          · exact .inr h
        · rintro ((h | h) | h)
          · exact absurd (by rw [← h]) heq
          · exact .inl h
          · exact .inr h
    · rw [List.foldl_cons, h2]; simp [assign]

/-- The code table written from good assignments holds exactly them (R154). -/
theorem codeOf_tablesOf {as : List (Sym × Bits)} (h : GoodCodes as) (a : Sym) (c : Bits) :
    codeOf (tablesOf as).ct a = some c ↔ (a, c) ∈ as := by
  rw [tablesOf, (tablesFold as clearTables h.nodup (by simp [clearTables])).1]
  simp [codeOf, clearTables]

theorem ict_tablesOf {as : List (Sym × Bits)} (h : GoodCodes as) :
    (tablesOf as).ict = as.map (fun e => { code := e.2, sym := e.1 }) := by
  rw [tablesOf, (tablesFold as clearTables h.nodup (by simp [clearTables])).2]; rfl

theorem GoodCodes.eq_of_prefix {as : List (Sym × Bits)} (h : GoodCodes as) {e e' : Sym × Bits} (he : e ∈ as)
    (he' : e' ∈ as) (hp : e.2 <+: e'.2) : e = e' := by
  by_contra hne
  have key : as.Pairwise (fun e e' => e ≠ e' → ¬ e.2 <+: e'.2 ∧ ¬ e'.2 <+: e.2) :=
    h.prefixFree.imp (fun {a b} (h : ¬ a.2 <+: b.2 ∧ ¬ b.2 <+: a.2) (_ : a ≠ b) => h)
  have sym : Std.Symm (fun e e' : Sym × Bits => e ≠ e' → ¬ e.2 <+: e'.2 ∧ ¬ e'.2 <+: e.2) :=
    ⟨fun x y h hne => (h hne.symm).symm⟩
  exact (key.forall_of_forall (fun x _ h => absurd rfl h) he he' hne).1 hp

theorem find?_ict {as : List (Sym × Bits)} (h : GoodCodes as) (a : Sym) (c : Bits) :
    ((as.map (fun e => ({ code := e.2, sym := e.1 } : IctEntry))).find? (fun e => e.code == c)).map IctEntry.sym = some a
      ↔ (a, c) ∈ as := by
  constructor
  · intro hf
    obtain ⟨x, hx, rfl⟩ := Option.map_eq_some_iff.1 hf
    have h1 := List.find?_some hx
    have h2 := List.mem_of_find?_eq_some hx
    obtain ⟨e, he, rfl⟩ := List.mem_map.1 h2
    simp at h1
    subst h1
    exact he
  · intro hm
    cases hx : (as.map (fun e => ({ code := e.2, sym := e.1 } : IctEntry))).find? (fun e => e.code == c) with
    | none =>
      rw [List.find?_eq_none] at hx
      exact absurd (by simp) (hx { code := c, sym := a } (List.mem_map.2 ⟨(a, c), hm, rfl⟩))
    | some x =>
      have h1 := List.find?_some hx
      obtain ⟨e, he, rfl⟩ := List.mem_map.1 (List.mem_of_find?_eq_some hx)
      simp at h1
      have := h.eq_of_prefix he hm (by rw [h1])
      subst this
      rfl

/-- The two tables are exact inverses (10_state.md R30). -/
theorem exactInverse_tablesOf {as : List (Sym × Bits)} (h : GoodCodes as) :
    ExactInverse (tablesOf as).ct (tablesOf as).ict := by
  intro a c
  rw [codeOf_tablesOf h, lookup, ict_tablesOf h]
  split
  · rename_i hl
    simp only [reduceCtorEq, false_iff]
    intro hm
    have : 1 ≤ c.length ∧ c.length ≤ 255 := h.bounded _ hm
    simp only [Config.codeMax] at hl
    omega
  · exact find?_ict h a c

theorem codesBounded_tablesOf {as : List (Sym × Bits)} (h : GoodCodes as) : CodesBounded (tablesOf as).ct := by
  intro a c hc
  exact h.bounded _ ((codeOf_tablesOf h a c).1 hc)

theorem prefixFree_tablesOf {as : List (Sym × Bits)} (h : GoodCodes as) : PrefixFree (tablesOf as).ct := by
  intro a b c d hc hd hab hp
  have := h.eq_of_prefix ((codeOf_tablesOf h a c).1 hc) ((codeOf_tablesOf h b d).1 hd) hp
  exact hab (congrArg Prod.fst this)

theorem ctWf_foldl (as : List (Sym × Bits)) : ∀ t : CodeTables, ctWf t.ct → ctWf (as.foldl assign t).ct := by
  induction as with
  | nil => exact fun _ h => h
  | cons e as ih => exact fun t h => ih _ (Table.wf_insert h e.1.isLt rfl)

theorem ctWf_tablesOf (as : List (Sym × Bits)) : ctWf (tablesOf as).ct := ctWf_foldl as _ rfl

theorem insert_length_fresh {α : Type} {t : Table α} {k : Nat} {v : α} (h : t.get? k = none) :
    (t.insert k v).length = t.length + 1 := by
  induction t with
  | nil => rfl
  | cons x t ih =>
    obtain ⟨j, w⟩ := x
    rw [Table.get?_cons] at h
    simp only [Table.insert]
    split
    · rfl
    · split
      · simp_all
      · rw [if_neg (by assumption)] at h
        simp [ih h]

theorem tablesFold_length (as : List (Sym × Bits)) : ∀ t : CodeTables, (as.map Prod.fst).Nodup →
    (∀ e ∈ as, t.ct.get? e.1.toNat = none) → (as.foldl assign t).ct.length = t.ct.length + as.length := by
  induction as with
  | nil => intro t _ _; rfl
  | cons e as ih =>
    intro t hn hf
    rw [List.map_cons, List.nodup_cons] at hn
    rw [List.foldl_cons, ih _ hn.2]
    · show (t.ct.insert e.1.toNat e.2).length + as.length = _
      rw [insert_length_fresh (hf e (by simp))]; simp; omega
    · intro x hx
      show (t.ct.insert e.1.toNat e.2).get? x.1.toNat = none
      rw [Table.get?_insert, if_neg]
      · exact hf x (by simp [hx])
      · intro h
        exact hn.1 (List.mem_map.2 ⟨x, hx, (BitVec.toNat_inj.1 h).symm⟩)

/-- The number of codes written is the number of assignments (R151). -/
theorem ct_length_tablesOf {as : List (Sym × Bits)} (h : GoodCodes as) : (tablesOf as).ct.length = as.length := by
  rw [tablesOf, tablesFold_length as _ h.nodup (by simp [clearTables])]; simp [clearTables]

theorem GoodCodes.length_le {as : List (Sym × Bits)} (h : GoodCodes as) : as.length ≤ 256 := by
  have hl := List.Nodup.length_le_card h.nodup
  rw [List.length_map] at hl
  refine hl.trans (le_of_eq ?_)
  exact (Fintype.card_congr (BitVec.equivFin (m := 8)).toEquiv).trans (Fintype.card_fin _)

/-! ### Codes as ways through the tree (R91, R157) -/

/-- From a tree's top, the rest of a leaf's code leads to the leaf (30_encoding.md R91). -/
theorem Shape.codes_follow {node : Table Node} {t : Shape} (h : t.In node) : ∀ path, ∀ e ∈ t.codes path,
    ∃ p, e.2 = path ++ p ∧ follow node (BitVec.ofNat 9 t.slot) p = some (e.1.setWidth 9) := by
  induction t with
  | leaf a =>
    intro path e he
    have := h.1
    simp [Shape.codes] at he; subst he
    refine ⟨[], by simp, ?_⟩
    simp [follow]; apply BitVec.eq_of_toNat_eq; simp; omega
  | branch i l r ihl ihr =>
    intro path e he
    obtain ⟨-, hi, -, -, ⟨f, hf, -⟩, hl, hr⟩ := h
    simp only [Shape.codes, List.mem_append] at he
    rcases he with he | he
    · obtain ⟨p, h1, h2⟩ := ihl hl _ e he
      refine ⟨false :: p, by simp [h1], ?_⟩
      simp only [follow, Shape.slot_branch, nodeAt_ofNat hi, hf]; simpa using h2
    · obtain ⟨p, h1, h2⟩ := ihr hr _ e he
      refine ⟨true :: p, by simp [h1], ?_⟩
      simp only [follow, Shape.slot_branch, nodeAt_ofNat hi, hf]; simpa using h2

/-- Some leaf's code starts any bit sequence that the path to the tree's top starts (R157). -/
theorem Shape.codes_cover (bits : Nat → Bool) (t : Shape) : ∀ path, path = (List.range path.length).map bits →
    ∃ e ∈ t.codes path, e.2 = (List.range e.2.length).map bits := by
  induction t with
  | leaf a => intro path hp; exact ⟨(BitVec.ofNat 8 a, path), by simp [Shape.codes], hp⟩
  | branch i l r ihl ihr =>
    intro path hp
    have key : ∀ b, b = bits path.length → path ++ [b] = (List.range (path ++ [b]).length).map bits := by
      intro b hb
      rw [List.length_append, List.length_singleton, List.range_succ, List.map_append, ← hp, hb]; rfl
    cases hb : bits path.length with
    | false => obtain ⟨e, he, h⟩ := ihl _ (key false hb.symm); exact ⟨e, by simp [Shape.codes, he], h⟩
    | true => obtain ⟨e, he, h⟩ := ihr _ (key true hb.symm); exact ⟨e, by simp [Shape.codes, he], h⟩

end Sys2Proof.Machine
end

