-- ==== Sys2Proof/Laws/Huffman.lean ====
section
/-! SUPPORT. Huffman's theorem apart from the core: Kraft's inequality and the exchange argument, over weights and lengths
(spec/42_code_table_generator.md R158). -/

namespace Sys2Proof.Huffman

/-- The total of a merge tree: each merge takes the two lowest weights and costs their sum. -/
inductive Cost : Multiset Nat → Nat → Prop where
  | one (w : Nat) : Cost {w} 0
  | merge {a b c : Nat} {S : Multiset Nat} (hab : a ≤ b) (hb : ∀ x ∈ S, b ≤ x) (h : Cost ((a + b) ::ₘ S) c) :
    Cost (a ::ₘ b ::ₘ S) (c + (a + b))

/-- The Kraft sum of lengths, scaled by `2 ^ M`. -/
def kraft (M : Nat) (L : Multiset Nat) : Nat := (L.map (fun l => 2 ^ (M - l))).sum

/-- The total length of weighted lengths. -/
def weigh (P : Multiset (Nat × Nat)) : Nat := (P.map (fun e => e.1 * e.2)).sum

@[simp] theorem kraft_cons (M l : Nat) (L : Multiset Nat) : kraft M (l ::ₘ L) = 2 ^ (M - l) + kraft M L := by
  simp [kraft]

@[simp] theorem weigh_cons (e : Nat × Nat) (P : Multiset (Nat × Nat)) : weigh (e ::ₘ P) = e.1 * e.2 + weigh P := by
  simp [weigh]

theorem kraft_succ {M : Nat} {L : Multiset Nat} (h : ∀ l ∈ L, l ≤ M) : kraft (M + 1) L = 2 * kraft M L := by
  induction L using Multiset.induction with
  | empty => rfl
  | cons l L ih =>
    rw [kraft_cons, kraft_cons, ih fun x hx => h x (by simp [hx]), Nat.succ_sub (h l (by simp)), pow_succ]
    ring

/-- A lowest weight can be given the greatest length at no cost. -/
theorem exchange {P : Multiset (Nat × Nat)} {a m : Nat} {S : Multiset Nat} (hw : P.map Prod.fst = a ::ₘ S)
    (ha : ∀ x ∈ S, a ≤ x) (hm : m ∈ P.map Prod.snd) (hl : ∀ l ∈ P.map Prod.snd, l ≤ m) :
    ∃ T, T.map Prod.fst = S ∧ m ::ₘ T.map Prod.snd = P.map Prod.snd ∧ a * m + weigh T ≤ weigh P := by
  obtain ⟨⟨a', k⟩, hk, rfl, hT⟩ := (Multiset.map_eq_cons _ _ _ _).2 hw
  obtain ⟨R, rfl⟩ := Multiset.exists_cons_of_mem hk
  rw [Multiset.erase_cons_head] at hT
  have hkm : k ≤ m := hl k (by simp)
  by_cases hkm' : k = m
  · subst hkm'
    exact ⟨R, hT, by simp, by simp⟩
  · have hmR : m ∈ R.map Prod.snd := by
      rw [Multiset.map_cons, Multiset.mem_cons] at hm
      exact hm.resolve_left (Ne.symm hkm')
    obtain ⟨⟨x, m'⟩, hx, rfl⟩ := Multiset.mem_map.1 hmR
    obtain ⟨R, rfl⟩ := Multiset.exists_cons_of_mem hx
    have hax : a' ≤ x := ha x (by rw [← hT]; simp)
    refine ⟨(x, k) ::ₘ R, by rw [← hT]; simp, by simp [Multiset.cons_swap], ?_⟩
    simp only [weigh_cons]
    obtain ⟨d, rfl⟩ := Nat.exists_eq_add_of_le hax
    obtain ⟨f, hf⟩ := Nat.exists_eq_add_of_le hkm
    simp only at hf
    subst hf
    nlinarith [Nat.zero_le (d * f)]

/-- Huffman's theorem: no lengths that meet Kraft's inequality total less than the merge tree. -/
theorem Cost.le_weigh {S : Multiset Nat} {c : Nat} (h : Cost S c) :
    ∀ (M : Nat) (P : Multiset (Nat × Nat)), P.map Prod.fst = S → (∀ l ∈ P.map Prod.snd, l ≤ M) →
      kraft M (P.map Prod.snd) ≤ 2 ^ M → c ≤ weigh P := by
  induction h with
  | one => exact fun _ _ _ _ _ => Nat.zero_le _
  | @merge a b c S hab hb h ih =>
    intro M
    induction M with
    | zero =>
      intro P hS hl hK
      exfalso
      have h2 : 2 ≤ Multiset.card (P.map Prod.snd) := by
        rw [Multiset.card_map, ← Multiset.card_map Prod.fst, hS]; simp
      have : kraft 0 (P.map Prod.snd) = Multiset.card (P.map Prod.snd) := by
        simp [kraft]
      omega
    | succ M ihM =>
      intro P hS hl hK
      by_cases hm : M + 1 ∈ P.map Prod.snd
      · obtain ⟨T, hT, hTl, hTw⟩ := exchange (m := M + 1) hS
          (fun x hx => by
            rcases Multiset.mem_cons.1 hx with rfl | hx
            · exact hab
            · exact hab.trans (hb x hx)) hm hl
        by_cases hm' : M + 1 ∈ T.map Prod.snd
        · -- the two lowest weights become siblings
          obtain ⟨U, hU, hUl, hUw⟩ := exchange hT hb hm' (fun l hl' => hl l (by rw [← hTl]; simp [hl']))
          have key := ih (M + 1) ((a + b, M) ::ₘ U) (by simp [hU]) (fun l hl' => by
              rw [Multiset.map_cons, Multiset.mem_cons] at hl'
              rcases hl' with rfl | hl'
              · simp
              · exact hl l (by rw [← hTl, ← hUl]; simp [hl'])) (by
              rw [← hTl, ← hUl] at hK
              simp only [kraft_cons, Multiset.map_cons] at hK ⊢
              rw [Nat.sub_self] at hK
              rw [Nat.add_sub_cancel_left]
              omega)
          rw [weigh_cons] at key
          simp only at key
          nlinarith
        · -- a single greatest length can be shortened
          have hlT : ∀ l ∈ T.map Prod.snd, l ≤ M := fun l hl' => by
            have h1 := hl l (by rw [← hTl]; simp [hl'])
            rcases Nat.lt_or_eq_of_le h1 with h2 | rfl
            · omega
            · exact absurd hl' hm'
          have key := ihM ((a, M) ::ₘ T) (by simp [hT]) (fun l hl' => by
              rw [Multiset.map_cons, Multiset.mem_cons] at hl'
              rcases hl' with rfl | hl'
              · simp
              · exact hlT l hl') (by
              rw [← hTl, kraft_cons, kraft_succ hlT, Nat.sub_self, pow_succ] at hK
              rw [Multiset.map_cons, kraft_cons, Nat.sub_self]
              simp only [pow_zero] at hK ⊢
              omega)
          rw [weigh_cons] at key
          simp only at key
          nlinarith
      · have hlM : ∀ l ∈ P.map Prod.snd, l ≤ M := fun l hl' => by
          rcases Nat.lt_or_eq_of_le (hl l hl') with h2 | rfl
          · omega
          · exact absurd hl' hm
        rw [kraft_succ hlM, pow_succ] at hK
        exact ihM P hS hlM (by omega)

/-! ### Kraft's inequality -/

/-- The rest of the codes that begin with one bit. -/
def under (b : Bool) (C : List (List Bool)) : List (List Bool) :=
  C.filterMap (fun c => match c with
    | [] => none
    | x :: t => if x = b then some t else none)

theorem mem_under {b : Bool} {C : List (List Bool)} {t : List Bool} : t ∈ under b C ↔ b :: t ∈ C := by
  simp only [under, List.mem_filterMap]
  constructor
  · rintro ⟨c, hc, h⟩
    match c with
    | [] => simp at h
    | x :: u =>
      simp only [Option.ite_none_right_eq_some, Option.some.injEq] at h
      obtain ⟨rfl, rfl⟩ := h
      exact hc
  · exact fun h => ⟨_, h, by simp⟩

/-- Codes of which none is a prefix of another meet Kraft's inequality. -/
theorem kraft_le (M : Nat) : ∀ C : List (List Bool), (∀ c ∈ C, c.length ≤ M) →
    C.Pairwise (fun c d => ¬ c <+: d ∧ ¬ d <+: c) → (C.map (fun c => 2 ^ (M - c.length))).sum ≤ 2 ^ M := by
  induction M with
  | zero =>
    intro C hl hp
    match C, hl, hp with
    | [], _, _ => simp
    | [c], _, _ => simp
    | c :: d :: C, hl, hp =>
      have hc : c = [] := by simpa using hl c (by simp)
      subst hc
      exact absurd (List.nil_prefix) ((List.pairwise_cons.1 hp).1 d (by simp)).1
  | succ M ih =>
    intro C hl hp
    by_cases hnil : [] ∈ C
    · have : C = [[]] := by
        match C, hnil, hp with
        | [c], h, _ => simp at h; rw [h]
        | c :: d :: C, h, hp =>
          exfalso
          rcases List.mem_cons.1 h with h | h
          · subst h; exact ((List.pairwise_cons.1 hp).1 d (by simp)).1 List.nil_prefix
          · exact ((List.pairwise_cons.1 hp).1 _ h).2 List.nil_prefix
      simp [this]
    · have part : ∀ b, (under b C).Pairwise (fun c d => ¬ c <+: d ∧ ¬ d <+: c) := by
        intro b
        rw [under, List.pairwise_filterMap]
        refine hp.imp fun {c d} h x hx y hy => ?_
        match c, d with
        | [], _ => simp at hx
        | _ :: _, [] => simp at hy
        | u :: c, v :: d =>
          simp only [Option.ite_none_right_eq_some, Option.some.injEq] at hx hy
          obtain ⟨rfl, rfl⟩ := hx
          obtain ⟨rfl, rfl⟩ := hy
          simpa [List.cons_prefix_cons] using h
      have len : ∀ b, ∀ c ∈ under b C, c.length ≤ M := by
        intro b c hc
        have := hl _ (mem_under.1 hc)
        simpa using this
      have h0 := ih _ (len false) (part false)
      have h1 := ih _ (len true) (part true)
      have split : ∀ C : List (List Bool), [] ∉ C → (C.map (fun c => 2 ^ (M + 1 - c.length))).sum =
          ((under false C).map (fun c => 2 ^ (M - c.length))).sum +
            ((under true C).map (fun c => 2 ^ (M - c.length))).sum := by
        intro C
        induction C with
        | nil => simp [under]
        | cons c C ihC =>
          intro hn
          rw [List.mem_cons, not_or] at hn
          match c, hn with
          | [], hn => exact absurd rfl hn.1
          | false :: c, hn => simp [ihC hn.2, under]; ring
          | true :: c, hn => simp [ihC hn.2, under]; ring
      rw [split C hnil, pow_succ]
      omega

end Sys2Proof.Huffman
end

