-- ==== Sys2Proof/Laws/Outcome.lean ====
section
/-! SUPPORT. Everything a command can do, said once: it is refused, it raises one of its errors, it resets, or it completes;
and that no command looks at the host's coming events. -/

namespace Sys2Proof.Machine

/-- The states a command that neither resets nor stops short leads to before its answer: the error latch, the ports
and what has been answered are as before, and the sinks only grow. -/
structure Completes (s u : State) : Prop where
  err : u.err = s.err
  rsps : u.rsps = s.rsps
  bout : s.bout <+: u.bout
  sout : s.sout <+: u.sout
  rspPort : u.rspPort = s.rspPort
  boPort : u.boPort = s.boPort
  soPort : u.soPort = s.soPort
  busy : u.busy = s.busy
  inReset : u.inReset = s.inReset
  host : u.host = s.host

theorem Completes.same (s : State) : Completes s s :=
  ⟨rfl, rfl, List.prefix_refl _, List.prefix_refl _, rfl, rfl, rfl, rfl, rfl, rfl⟩

/-- `UPE` raises no other error than the two of its rows (60_exceptions.md R250). -/
theorem unpackStream_error {B : List Byte} {e : ErrorKind} (h : unpackStream B = .error e) : e ∈ raisedBy .upe := by
  unfold unpackStream at h
  dsimp only at h
  split at h
  · cases h; simp [raisedBy]
  · split at h <;> cases h
    simp [raisedBy]

/-- What a command can do: be refused, raise, reset, or complete with status 0. -/
theorem exec_outcome {i : Instr} {s t : State} (h : exec i s = .next t) :
    (s.err ≠ 0 ∧ runsHalted i = false ∧ t = refuseHalted s) ∨
    (s.err = 0 ∧ ∃ e ∈ raisedBy i, t = raise e s) ∨
    (i = .rst ∧ t = respond {} (toReset s)) ∨
    (i ≠ .rst ∧ (s.err = 0 ∨ runsHalted i = true) ∧ ∃ r u, r.st = 0 ∧ t = respond r u ∧ Completes s u) := by
  have same := Completes.same s
  cases i
  case nop => exact .inr (.inr (.inr ⟨by simp, .inr rfl, _, _, rfl, execNop_next h, same⟩))
  case rst => exact .inr (.inr (.inl ⟨rfl, execRst_next h⟩))
  case sts => exact .inr (.inr (.inr ⟨by simp, .inr rfl, _, _, rfl, execSts_next h, same⟩))
  case cnt a =>
    rcases execCnt_next h with ⟨h0, -, rfl⟩ | ⟨h0, -, rfl⟩ | ⟨h0, rfl⟩
    · exact .inr (.inl ⟨h0, _, by simp [raisedBy], rfl⟩)
    · exact .inr (.inr (.inr ⟨by simp, .inl h0, _, _, rfl, rfl, ⟨rfl, rfl, same.bout, same.sout, rfl, rfl, rfl, rfl, rfl, rfl⟩⟩))
    · exact .inl ⟨h0, rfl, rfl⟩
  case fwr a c =>
    rcases execFwr_next h with ⟨h0, rfl⟩ | ⟨h0, rfl⟩
    · exact .inr (.inr (.inr ⟨by simp, .inl h0, _, _, rfl, rfl, ⟨rfl, rfl, same.bout, same.sout, rfl, rfl, rfl, rfl, rfl, rfl⟩⟩))
    · exact .inl ⟨h0, rfl, rfl⟩
  case frd a =>
    rcases execFrd_next h with ⟨h0, rfl⟩ | ⟨h0, rfl⟩
    · exact .inr (.inr (.inr ⟨by simp, .inl h0, _, _, rfl, rfl, same⟩))
    · exact .inl ⟨h0, rfl, rfl⟩
  case nrd n =>
    rcases execNrd_next h with ⟨h0, rfl⟩ | ⟨h0, rfl⟩
    · refine .inr (.inr (.inr ⟨by simp, .inl h0, _, _, ?_, rfl, same⟩))
      rcases nodeAt s.node n with _ | _ | _ <;> rfl
    · exact .inl ⟨h0, rfl, rfl⟩
  case trd a =>
    rcases execTrd_next h with ⟨h0, rfl⟩ | ⟨h0, rfl⟩
    · refine .inr (.inr (.inr ⟨by simp, .inl h0, _, _, ?_, rfl, same⟩))
      cases codeOf s.ct a <;> rfl
    · exact .inl ⟨h0, rfl, rfl⟩
  case bld =>
    rcases execBld_next h with ⟨h0, -, rfl⟩ | ⟨h0, -, rfl⟩ | ⟨h0, rfl⟩
    · exact .inr (.inl ⟨h0, _, by simp [raisedBy], rfl⟩)
    · exact .inr (.inr (.inr ⟨by simp, .inl h0, _, _, rfl, rfl, ⟨rfl, rfl, same.bout, same.sout, rfl, rfl, rfl, rfl, rfl, rfl⟩⟩))
    · exact .inl ⟨h0, rfl, rfl⟩
  case gen =>
    rcases execGen_next h with ⟨h0, -, rfl⟩ | ⟨h0, -, as, -, rfl⟩ | ⟨h0, rfl⟩
    · exact .inr (.inl ⟨h0, _, by simp [raisedBy], rfl⟩)
    · exact .inr (.inr (.inr ⟨by simp, .inl h0, _, _, rfl, rfl, ⟨rfl, rfl, same.bout, same.sout, rfl, rfl, rfl, rfl, rfl, rfl⟩⟩))
    · exact .inl ⟨h0, rfl, rfl⟩
  case pks a =>
    rcases packSymbol_next h with ⟨h0, -, rfl⟩ | ⟨c, h0, -, -, rfl⟩ | ⟨c, h0, -, -, rfl⟩ | ⟨h0, rfl⟩
    · exact .inr (.inl ⟨h0, .missingCode, by simp [raisedBy], rfl⟩)
    · exact .inr (.inl ⟨h0, .bufferOverflow, by simp [raisedBy], rfl⟩)
    · exact .inr (.inr (.inr ⟨by simp, .inl h0, _, _, rfl, rfl, ⟨rfl, rfl, same.bout, same.sout, rfl, rfl, rfl, rfl, rfl, rfl⟩⟩))
    · exact .inl ⟨h0, rfl, rfl⟩
  case pke =>
    rcases packEnd_next h with ⟨h0, rfl⟩ | ⟨h0, rfl⟩
    · exact .inr (.inr (.inr ⟨by simp, .inl h0, _, _, rfl, rfl,
        ⟨rfl, rfl, List.prefix_append _ _, same.sout, rfl, rfl, rfl, rfl, rfl, rfl⟩⟩))
    · exact .inl ⟨h0, rfl, rfl⟩
  case upb b =>
    rcases giveByte_next h with ⟨h0, -, rfl⟩ | ⟨h0, -, rfl⟩ | ⟨h0, rfl⟩
    · exact .inr (.inl ⟨h0, _, by simp [raisedBy], rfl⟩)
    · exact .inr (.inr (.inr ⟨by simp, .inl h0, _, _, rfl, rfl, ⟨rfl, rfl, same.bout, same.sout, rfl, rfl, rfl, rfl, rfl, rfl⟩⟩))
    · exact .inl ⟨h0, rfl, rfl⟩
  case upe =>
    rcases execUpe_next h with ⟨e, h0, hu, rfl⟩ | ⟨pad, bits, h0, -, rfl⟩ | ⟨h0, rfl⟩
    · exact .inr (.inl ⟨h0, e, unpackStream_error hu, rfl⟩)
    · exact .inr (.inr (.inr ⟨by simp, .inl h0, _, _, rfl, rfl, ⟨rfl, rfl, same.bout, same.sout, rfl, rfl, rfl, rfl, rfl, rfl⟩⟩))
    · exact .inl ⟨h0, rfl, rfl⟩
  case dec =>
    rcases execDec_next h with ⟨out, h0, -, rfl⟩ | ⟨_, _, _, h0, -, rfl⟩ | ⟨h0, rfl⟩
    · exact .inr (.inr (.inr ⟨by simp, .inl h0, _, _, rfl, rfl,
        ⟨rfl, rfl, same.bout, List.prefix_append _ _, rfl, rfl, rfl, rfl, rfl, rfl⟩⟩))
    · exact .inr (.inl ⟨h0, _, by simp [raisedBy], rfl⟩)
    · exact .inl ⟨h0, rfl, rfl⟩

/-- No command looks at the host's coming events or changes them. -/
theorem exec_nextEvents (i : Instr) (rest : List HostEvent) (s : State) :
    exec i (nextEvents rest s) = mapNext (nextEvents rest) (exec i s) := by
  have gate : ∀ k k' : Out, k' = mapNext (nextEvents rest) k →
      haltGate (nextEvents rest s) k' = mapNext (nextEvents rest) (haltGate s k) := by
    intro k k' hk
    unfold haltGate
    rw [hk]
    show (if s.err = 0 then _ else _) = _
    split <;> rfl
  cases i
  case nop => rfl
  case rst => rfl
  case sts => rfl
  case cnt a => refine gate _ _ ?_; show (if count s.ft a = _ then _ else _) = _; split <;> rfl
  case fwr a c => exact gate _ _ rfl
  case frd a => exact gate _ _ rfl
  case bld => refine gate _ _ ?_; show (if noSymbol s.ft = true then _ else _) = _; split <;> rfl
  case nrd n => exact gate _ _ rfl
  case gen =>
    refine gate _ _ ?_
    show (if s.treeV = false then _ else match assignments s.node s.root with | none => _ | some as => _) = _
    split
    · rfl
    · cases assignments s.node s.root <;> rfl
  case trd a => exact gate _ _ rfl
  case pks a =>
    refine gate _ _ ?_
    show (match codeOf s.ct a with | none => _ | some c => if overPbuf _ (s.pbuf.length + c.length) then _ else _) = _
    cases codeOf s.ct a with
    | none => rfl
    | some c => dsimp only; split <;> rfl
  case pke => exact gate _ _ rfl
  case upb b => refine gate _ _ ?_; show (if ubufFull _ s.ubuf.length = true then _ else _) = _; split <;> rfl
  case upe =>
    refine gate _ _ ?_
    show (match unpackStream s.ubuf with | .error e => _ | .ok (pad, bits) => _) = _
    rcases unpackStream s.ubuf with e | ⟨pad, bits⟩ <;> rfl
  case dec =>
    refine gate _ _ ?_
    show (match scan s.ict s.ebits [] [] with | ([], out) => _ | (_ :: _, _) => _) = _
    rcases scan s.ict s.ebits [] [] with ⟨_ | _, _⟩ <;> rfl

end Sys2Proof.Machine
end

