-- ==== Sys2Proof/Laws/Invariant.lean ====
section
/-! SUPPORT. The shared operations keep the invariant of reachable states (10_state.md R44, R30); what a command word can do;
and that every command is answered once. -/

namespace Sys2Proof.Machine

theorem coreInv_respond {s : State} (r : Response) (h : CoreInv s) : CoreInv (respond r s) :=
  ⟨h.ft, h.node, h.ct, h.noTree, h.tree, h.noTables, h.tables, h.codes, h.prefixFree, h.inverse, h.ictSize,
    h.pbuf, h.ubuf, h.ebits, h.err, h.nxt, h.idle, h.waiting, h.abandoned⟩

theorem coreInv_raise {s : State} (e : ErrorKind) (h : CoreInv s) : CoreInv (raise e s) :=
  ⟨h.ft, h.node, h.ct, h.noTree, h.tree, h.noTables, h.tables, h.codes, h.prefixFree, h.inverse, h.ictSize,
    h.pbuf, h.ubuf, h.ebits, .inr ⟨e, rfl⟩, h.nxt, h.idle, h.waiting, h.abandoned⟩

theorem coreInv_refuseHalted {s : State} (h : CoreInv s) : CoreInv (refuseHalted s) := coreInv_respond _ h

theorem coreInv_nextEvents {s : State} (rest : List HostEvent) (h : CoreInv s) : CoreInv (nextEvents rest s) :=
  ⟨h.ft, h.node, h.ct, h.noTree, h.tree, h.noTables, h.tables, h.codes, h.prefixFree, h.inverse, h.ictSize,
    h.pbuf, h.ubuf, h.ebits, h.err, h.nxt, h.idle, h.waiting, h.abandoned⟩

theorem coreInv_endReset {s : State} (h : CoreInv s) : CoreInv (endReset s) :=
  ⟨h.ft, h.node, h.ct, h.noTree, h.tree, h.noTables, h.tables, h.codes, h.prefixFree, h.inverse, h.ictSize,
    h.pbuf, h.ubuf, h.ebits, h.err, h.nxt, h.idle, h.waiting, by simp⟩

theorem coreInv_completeTransfers {s : State} (h : CoreInv s) : CoreInv (completeTransfers s) :=
  ⟨h.ft, h.node, h.ct, h.noTree, h.tree, h.noTables, h.tables, h.codes, h.prefixFree, h.inverse, h.ictSize,
    h.pbuf, h.ubuf, h.ebits, h.err, h.nxt, fun _ => ⟨rfl, rfl, rfl⟩, by simp, fun _ => rfl⟩

theorem coreInv_becomeReady {s : State} (h : CoreInv s) : CoreInv (becomeReady s) := by
  unfold becomeReady
  split
  · exact coreInv_endReset h
  · exact coreInv_completeTransfers h

theorem coreInv_setCount {s : State} (a : Sym) (c : Count) (h : CoreInv s) : CoreInv (setCount a c s) :=
  ⟨ftWf_writeCount h.ft _ _, h.node, h.ct, h.noTree, h.tree, h.noTables, h.tables, h.codes, h.prefixFree, h.inverse, h.ictSize,
    h.pbuf, h.ubuf, h.ebits, h.err, h.nxt, h.idle, h.waiting, h.abandoned⟩

/-- The stripped bits are at most eight for each byte after the header (44_bit_unpacker.md R192). -/
theorem unpackStream_length {B : List Byte} {pad : Nat} {bits : Bits} (h : unpackStream B = .ok (pad, bits)) :
    bits.length ≤ 8 * (B.length - 1) := by
  unfold unpackStream at h
  simp only at h
  split at h
  · cases h
  · split at h
    · cases h
    · simp only [Except.ok.injEq, Prod.mk.injEq] at h
      obtain ⟨-, rfl⟩ := h
      simp [slice]; omega

/-- What a command word can do (46_system.md R230). -/
theorem runWord_cases {w : CmdWord} {s t : State} (h : runWord w s = .next t) :
    (∃ i, decode w = .instr i ∧ exec i s = .next t) ∨
    (∃ op, decode w = .reserved op ∧
      ((s.err = 0 ∧ t = raise .illegalCommand s) ∨ (s.err ≠ 0 ∧ t = refuseHalted s))) := by
  unfold runWord at h
  split at h
  · exact .inl ⟨_, by assumption, h⟩
  · exact .inr ⟨_, by assumption, execReserved_next h⟩

/-- A command word is answered once, and nothing that has left the core is taken back (60_exceptions.md R274,
10_state.md R38). -/
theorem runWord_sinks {w : CmdWord} {s t : State} (h : runWord w s = .next t) :
    (∃ r, t.rsps = s.rsps ++ [r]) ∧ s.bout <+: t.bout ∧ s.sout <+: t.sout := by
  have same := Completes.same s
  rcases runWord_cases h with ⟨i, -, h⟩ | ⟨op, -, ⟨-, rfl⟩ | ⟨-, rfl⟩⟩
  · rcases exec_outcome h with ⟨-, -, rfl⟩ | ⟨-, e, -, rfl⟩ | ⟨-, rfl⟩ | ⟨-, -, r, u, -, rfl, hu⟩
    · exact ⟨⟨_, rfl⟩, same.bout, same.sout⟩
    · exact ⟨⟨_, rfl⟩, same.bout, same.sout⟩
    · exact ⟨⟨_, rfl⟩, same.bout, same.sout⟩
    · exact ⟨⟨r, by simp [hu.rsps]⟩, hu.bout, hu.sout⟩
  · exact ⟨⟨_, rfl⟩, same.bout, same.sout⟩
  · exact ⟨⟨_, rfl⟩, same.bout, same.sout⟩

/-- A command word leaves nothing at the ports and does not make the core busy or put it in reset (R93). -/
theorem runWord_ports {w : CmdWord} {s t : State} (h : runWord w s = .next t) :
    (s.rspPort = none → t.rspPort = none) ∧ (s.boPort = [] → t.boPort = []) ∧ (s.soPort = [] → t.soPort = []) ∧
      (s.busy = false → t.busy = false) ∧ (s.inReset = false → t.inReset = false) ∧ t.host = s.host := by
  rcases runWord_cases h with ⟨i, -, h⟩ | ⟨op, -, ⟨-, rfl⟩ | ⟨-, rfl⟩⟩
  · rcases exec_outcome h with ⟨-, -, rfl⟩ | ⟨-, e, -, rfl⟩ | ⟨-, rfl⟩ | ⟨-, -, r, u, -, rfl, hu⟩
    · simp
    · simp
    · exact ⟨fun _ => rfl, fun _ => rfl, fun _ => rfl, fun _ => rfl, fun _ => rfl, rfl⟩
    · simp [hu.rspPort, hu.boPort, hu.soPort, hu.busy, hu.inReset, hu.host]
  · simp
  · simp

/-- A command word, like a command, does not look at the host's coming events. -/
theorem runWord_nextEvents (w : CmdWord) (rest : List HostEvent) (s : State) :
    runWord w (nextEvents rest s) = mapNext (nextEvents rest) (runWord w s) := by
  unfold runWord
  split
  · exact exec_nextEvents _ _ _
  · show (if s.err = 0 then _ else _) = mapNext _ (if s.err = 0 then _ else _)
    split <;> rfl

end Sys2Proof.Machine
end

