-- ==== Sys2Proof/Laws/Optimal.lean ====
section
/-! SUPPORT. What the tree of a build costs: code lengths weigh as much as its internal nodes, and these cost what merging
the two lowest weights costs (spec/42_code_table_generator.md R158). -/

namespace Sys2Proof.Machine

/-- The slots of the internal nodes, in pre-order. -/
def Shape.internals : Shape → List Nat
  | .leaf _ => []
  | .branch i l r => i :: (l.internals ++ r.internals)

/-- The weighted code lengths of a tree are the frequencies of its internal nodes (R158). -/
theorem Shape.codes_weight {node : Table Node} {t : Shape} (h : t.In node) : ∀ path : Bits,
    ((t.codes path).map (fun e => (freqAt node e.1.toNat).toNat * e.2.length)).sum =
      (t.internals.map (fun i => (freqAt node i).toNat)).sum + path.length * (freqAt node t.slot).toNat := by
  induction t with
  | leaf a =>
    intro path
    have := h.1
    simp [Shape.codes, Shape.internals, Nat.mod_eq_of_lt this, Nat.mul_comm]
  | branch i l r ihl ihr =>
    intro path
    obtain ⟨-, hi, -, -, ⟨f, hf, hs⟩, hl, hr⟩ := h
    have hfi : freqAt node i = f := by simp [freqAt, hf, Node.freq]
    simp only [Shape.codes, Shape.internals, List.map_append, List.sum_append, ihl hl, ihr hr, List.map_cons,
      List.sum_cons, Shape.slot_branch, hfi, hs, List.length_append, List.length_singleton]
    ring

/-- The internal nodes of a tree are its slots from 256 on (10_state.md R24). -/
theorem Shape.internals_eq {node : Table Node} {t : Shape} (h : t.In node) :
    t.internals = t.slots.filter (fun i => decide (256 ≤ i)) := by
  induction t with
  | leaf a => have := h.1; simp [Shape.internals, Shape.slots]; omega
  | branch i l r ihl ihr =>
    have := h.1
    simp [Shape.internals, Shape.slots, this, ihl h.2.2.2.2.2.1, ihr h.2.2.2.2.2.2]

/-- The frequencies of the first `m` internal slots. -/
def internalsTo (m : Nat) (node : Table Node) : Nat :=
  ((List.range m).map (fun j => (freqAt node (256 + j)).toNat)).sum

theorem internalsTo_succ (m : Nat) (node : Table Node) :
    internalsTo (m + 1) node = internalsTo m node + (freqAt node (256 + m)).toNat := by
  simp [internalsTo, List.range_succ]

/-- Writing an empty internal slot adds its frequency. -/
theorem internalsTo_insert {node : Table Node} {k : Nat} {n : Node} (h : 256 ≤ k) (hn : node.get? k = none) (m : Nat) :
    internalsTo m (node.insert k n) = internalsTo m node + if k < 256 + m then n.freq.toNat else 0 := by
  induction m with
  | zero => rw [if_neg (by omega)]; rfl
  | succ m ih =>
    rw [internalsTo_succ, internalsTo_succ, ih]
    by_cases hk : k = 256 + m
    · subst hk
      simp [freqAt, Table.get?_insert, hn]
    · have : freqAt (node.insert k n) (256 + m) = freqAt node (256 + m) := by simp [freqAt, Table.get?_insert, hk]
      rw [this]
      by_cases hlt : k < 256 + m
      · rw [if_pos hlt, if_pos (by omega)]; omega
      · rw [if_neg hlt, if_neg (by omega)]; omega

/-- Empty internal slots add up to nothing. -/
theorem internalsTo_empty {node : Table Node} (h : ∀ i, 256 ≤ i → node.get? i = none) (m : Nat) :
    internalsTo m node = 0 := by
  induction m with
  | zero => rfl
  | succ m ih => rw [internalsTo_succ, ih]; simp [freqAt, h]

/-- The frequencies of the queued slots. -/
def queueWeights (e : Engine) : Multiset Nat := (e.inq.map (fun i => (freqAt e.node i).toNat) : List Nat)

/-- A merge takes the two lowest weights and adds their sum, to the queue and to the internal nodes (R134). -/
theorem merge_weights {P : Table Count} {e : Engine} {F : List Shape} (h : Forest P e F) (hk : P.length ≤ 256)
    (ht : total P < 2 ^ 40) (hF : 1 < F.length) :
    ∃ a b S, queueWeights e = a ::ₘ b ::ₘ S ∧ a ≤ b ∧ (∀ x ∈ S, b ≤ x) ∧ queueWeights (merge e) = (a + b) ::ₘ S ∧
      internalsTo 255 (merge e).node = internalsTo 255 e.node + (a + b) := by
  have hlen : e.inq.length = F.length := by rw [h.queued.length_eq, List.length_map]
  obtain ⟨p, q, rest, hperm, hpq, hlt, hrest, hm⟩ := merge_pops h.inq_nodup (hlen ▸ hF)
  have hnx := h.nxt
  have h256 : 256 ≤ e.nxt.toNat := by
    have := leaves_length F
    rw [h.leaves.length_eq, List.length_map] at this
    omega
  have hnone : e.node.get? e.nxt.toNat = none := by
    simpa using (h.filled _ h256).not.2 (lt_irrefl _)
  have hin : ∀ i ∈ e.inq, i ≠ e.nxt.toNat := by
    rintro i hi rfl
    obtain ⟨t, htF, hts⟩ := List.mem_map.1 (h.queued.mem_iff.1 hi)
    have := (h.used e.nxt.toNat).2 (List.mem_flatMap.2 ⟨t, htF, hts ▸ t.slot_mem⟩)
    rw [hnone] at this; simp at this
  have hw : ∀ l : List Nat, e.inq.Perm l → queueWeights e = (l.map (fun i => (freqAt e.node i).toNat) : List Nat) :=
    fun l hl => Multiset.coe_eq_coe.2 (hl.map _)
  have hsum : (freqAt e.node p).toNat + (freqAt e.node q).toNat < 2 ^ 40 := by
    have h1 : topSum e.node F = (e.inq.map (fun i => (freqAt e.node i).toNat)).sum := by
      rw [(h.queued.map _).sum_eq, List.map_map]; rfl
    rw [(hperm.map _).sum_eq, h.sum, List.map_cons, List.map_cons, List.sum_cons, List.sum_cons] at h1
    omega
  have hadd : (freqAt e.node p + freqAt e.node q).toNat = (freqAt e.node p).toNat + (freqAt e.node q).toNat := by
    rw [BitVec.toNat_add, Nat.mod_eq_of_lt hsum]
  refine ⟨(freqAt e.node p).toNat, (freqAt e.node q).toNat,
    (rest.map (fun i => (freqAt e.node i).toNat) : List Nat), hw _ hperm, ?_, ?_, ?_, ?_⟩
  · rw [keyLt_iff] at hlt; omega
  · intro x hx
    obtain ⟨j, hj, rfl⟩ := List.mem_map.1 (Multiset.mem_coe.1 hx)
    have := keyLt_iff.1 (hrest j hj)
    omega
  · have herase : ((e.inq.erase p).erase q).Perm rest := by
      have := (hperm.erase p).erase q
      simpa using this
    have hq : (merge e).inq.Perm (e.nxt.toNat :: rest) := by
      rw [hm]
      refine (enqueue_perm fun hmem => ?_).trans (herase.cons _)
      exact hin _ (List.mem_of_mem_erase (List.mem_of_mem_erase hmem)) rfl
    refine (Multiset.coe_eq_coe.2 (hq.map _)).trans ?_
    rw [List.map_cons, hm]
    have h1 : (freqAt (push p q { e with inq := (e.inq.erase p).erase q }).node e.nxt.toNat).toNat =
        (freqAt e.node p).toNat + (freqAt e.node q).toNat := by
      rw [← hadd]; simp [push, freqAt, Table.get?_insert, Node.freq]
    have h2 : ∀ i ∈ rest, (freqAt (push p q { e with inq := (e.inq.erase p).erase q }).node i).toNat =
        (freqAt e.node i).toNat := by
      intro i hi
      have := hin i (hperm.mem_iff.2 (by simp [hi]))
      simp [push, freqAt, Table.get?_insert, Ne.symm this]
    rw [h1, List.map_congr_left h2]
    rfl
  · rw [hm]
    refine (internalsTo_insert h256 hnone 255).trans ?_
    rw [if_pos (by omega), Node.freq, hadd]

/-- What is left to merge costs what the remaining merges add (R158). -/
theorem mergeAll_cost {P : Table Count} (hk : P.length ≤ 256) (ht : total P < 2 ^ 40) :
    ∀ (k : Nat) (e : Engine) (F : List Shape), Forest P e F → F ≠ [] → F.length ≤ k + 1 →
      ∃ c, Huffman.Cost (queueWeights e) c ∧ internalsTo 255 (mergeAll k e).node = internalsTo 255 e.node + c := by
  have one : ∀ (e : Engine) (F : List Shape), Forest P e F → F.length = 1 →
      Huffman.Cost (queueWeights e) 0 := by
    intro e F h h1
    have hl : e.inq.length = 1 := by rw [h.queued.length_eq, List.length_map, h1]
    obtain ⟨i, hi⟩ := List.length_eq_one_iff.1 hl
    rw [queueWeights, hi]
    exact .one _
  intro k
  induction k with
  | zero =>
    intro e F h hF hl
    have : F.length = 1 := by have := List.length_pos_iff.2 hF; omega
    exact ⟨0, one e F h this, by simp only [mergeAll, Nat.add_zero]⟩
  | succ k ih =>
    intro e F h hF hl
    have hlen : e.inq.length = F.length := by rw [h.queued.length_eq, List.length_map]
    simp only [mergeAll]
    split
    · obtain ⟨G, hG, hGl⟩ := merge_forest h hk ht (by omega)
      obtain ⟨a, b, S, h1, hab, hb, h2, h3⟩ := merge_weights h hk ht (by omega)
      obtain ⟨c, hc, hs⟩ := ih _ G hG (by rintro rfl; simp at hGl; omega) (by omega)
      rw [h2] at hc
      refine ⟨c + (a + b), h1 ▸ .merge hab hb hc, ?_⟩
      rw [hs, h3]; omega
    · have : F.length = 1 := by have := List.length_pos_iff.2 hF; omega
      exact ⟨0, one e F h this, by simp only [Nat.add_zero]⟩

/-- The internal nodes of a build cost what merging the two lowest counts costs (R158). -/
theorem build_cost {ft : Table Count} (h : ftWf ft) (hne : ft ≠ []) :
    Huffman.Cost (ft.map (fun e => e.2.toNat) : List Nat) (internalsTo 255 (build ft).node) := by
  have hs := seed_forest h
  have hl : (seed ft).inq.length = ft.length := by rw [hs.queued.length_eq]; simp
  obtain ⟨c, hc, hsum⟩ := mergeAll_cost (ftWf_length h) (total_lt (ftWf_length h)) (seed ft).inq.length _ _ hs
    (by simpa using hne) (by simp [hl])
  have hw := Table.wf_iff.1 h
  have hfreq : ∀ e ∈ ft, (freqAt (seed ft).node e.1).toNat = e.2.toNat := by
    intro e he
    rw [freqAt, hs.leafNode _ (hw.2 e he).1, Table.get?_of_mem hw.1 (show (e.1, e.2) ∈ ft from he)]
    have := e.2.isLt
    simp [Node.freq]; omega
  have h0 : internalsTo 255 (seed ft).node = 0 := by
    refine internalsTo_empty (fun i hi => ?_) 255
    have hnx : (seed ft).nxt.toNat = 256 := rfl
    have := (hs.filled i hi).not.2 (by omega)
    simpa using this
  have hq : queueWeights (seed ft) = (ft.map (fun e => e.2.toNat) : List Nat) := by
    refine Multiset.coe_eq_coe.2 ?_
    have hi : (seed ft).inq = ft.map Prod.fst := by simp only [seed, presentSyms_of_ftWf h]
    rw [hi, List.map_map]
    exact List.Perm.of_eq (List.map_congr_left fun e he => hfreq e he)
  rw [← hq, build, hsum, h0, Nat.zero_add]
  exact hc

end Sys2Proof.Machine
end

