-- ==== Sys2Proof/Laws/PerInstr.lean ====
section
/-! SUPPORT. The family Canonical, a statement for all commands: a command's word has an `op` of the opcode map and holds 0
in every bit the command does not use (spec/30_encoding.md R83, R97). -/

namespace Sys2Proof.Laws.Canonical

/-- What the family says of one command. -/
def Statement (i : Instr) : Prop := CmdWord.op (encode i) ∈ Machine.definedOps ∧ encode i &&& usedBits i = encode i

/-- Every command's word is canonical in this sense. -/
theorem every (i : Instr) : Statement i := by
  cases i <;> refine ⟨?_, ?_⟩ <;>
    simp [encode, Machine.definedOps, usedBits, cmd48_and, and_ff, and_ffffffff, and_1ff]

theorem nop : Statement .nop := every _
theorem rst : Statement .rst := every _
theorem sts : Statement .sts := every _
theorem cnt (a : Sym) : Statement (.cnt a) := every _
theorem fwr (a : Sym) (c : Count) : Statement (.fwr a c) := every _
theorem frd (a : Sym) : Statement (.frd a) := every _
theorem bld : Statement .bld := every _
theorem nrd (n : Idx) : Statement (.nrd n) := every _
theorem gen : Statement .gen := every _
theorem trd (a : Sym) : Statement (.trd a) := every _
theorem pks (a : Sym) : Statement (.pks a) := every _
theorem pke : Statement .pke := every _
theorem upb (b : Byte) : Statement (.upb b) := every _
theorem upe : Statement .upe := every _
theorem dec : Statement .dec := every _

end Sys2Proof.Laws.Canonical
end

