-- ==== Sys2Proof/Laws/Run.lean ====
section
/-! SUPPORT. Runs of commands compose. -/

namespace Sys2Proof.Machine

/-- A run goes on where its first part ended. -/
theorem runInstrs_append (a b : List Instr) {s t : State} (h : runInstrs a s = .next t) :
    runInstrs (a ++ b) s = runInstrs b t := by
  induction a generalizing s with
  | nil => cases h; rfl
  | cons i a ih =>
    simp only [List.cons_append, runInstrs] at h ⊢
    split at h
    · exact ih h
    · cases h
    · cases h

end Sys2Proof.Machine
end

