-- ==== Sys2Proof/Laws/Step.lean ====
section
/-! SUPPORT. Everything a step can do, said once: accept a command word, become ready for it, transfer what is pending, take
the input `rst`, or do nothing but leave reset. -/

namespace Sys2Proof.Machine

theorem cmdReady_iff {s : State} : cmdReady s = true ↔ s.busy = false ∧ s.inReset = false := by
  simp [cmdReady]

/-- Outside reset, leaving it changes nothing. -/
theorem endReset_running {s : State} (h : s.inReset = false) : endReset s = s := by
  cases s; simp_all [endReset]

/-- A busy core becomes ready by completing its transfers (R93). -/
theorem becomeReady_busy {s : State} (h : s.inReset = false) : becomeReady s = completeTransfers s := by
  simp [becomeReady, h]

/-- A core in reset becomes ready by leaving it (R290). -/
theorem becomeReady_inReset {s : State} (h : s.inReset = true) : becomeReady s = endReset s := by
  simp [becomeReady, h]

/-- Becoming ready keeps what is presented to the core and all core state; what was pending leaves the core. -/
theorem becomeReady_keeps (s : State) :
    (becomeReady s).host = s.host ∧ (becomeReady s).err = s.err ∧ s.bout <+: (becomeReady s).bout ∧
      s.sout <+: (becomeReady s).sout ∧ s.rsps <+: (becomeReady s).rsps := by
  unfold becomeReady
  split <;> simp

/-- From a reachable state, a core that is not ready is ready after becoming so: no command word waits for ever. -/
theorem becomeReady_ready {s : State} (h : CoreInv s) : cmdReady (becomeReady s) = true := by
  unfold becomeReady
  cases hr : s.inReset with
  | false => simp [cmdReady, hr]
  | true => simp [cmdReady, h.abandoned hr]

/-- What a step can do. A command that is held up (`k` elements taken) runs like one that is not (R93). -/
theorem step_cases {s t : State} (h : step s = .next t) :
    (s.host = [] ∧ t = endReset s) ∨
    (cmdReady s = false ∧ t = becomeReady s ∧
      ∃ w rest, s.host = .command w :: rest ∨ ∃ k, s.host = .commandHeld w k :: rest) ∨
    (cmdReady s = true ∧ ∃ w rest u, runWord w (nextEvents rest s) = .next u ∧
      ((s.host = .command w :: rest ∧ t = u) ∨
        ∃ k, s.host = .commandHeld w k :: rest ∧ t = holdBack (nextEvents rest s) k u)) ∨
    (∃ rest, s.host = .ready :: rest ∧ t = completeTransfers (nextEvents rest s)) ∨
    (∃ rest, s.host = .rst :: rest ∧ t = resetInput (nextEvents rest s)) := by
  unfold step hostStep at h
  split at h <;> rename_i hh
  · cases h; exact .inl ⟨hh, rfl⟩
  · split at h <;> rename_i hr
    · exact .inr (.inr (.inl ⟨hr, _, _, _, h, .inl ⟨hh, rfl⟩⟩))
    · cases h; exact .inr (.inl ⟨by simpa using hr, rfl, _, _, .inl hh⟩)
  · rename_i w k rest
    split at h <;> rename_i hr
    · cases hu : runWord w (nextEvents rest s) with
      | next u =>
        rw [hu] at h
        cases h
        exact .inr (.inr (.inl ⟨hr, _, _, _, hu, .inr ⟨_, hh, rfl⟩⟩))
      | fault r => rw [hu] at h; cases h
      | refused r => rw [hu] at h; cases h
    · cases h; exact .inr (.inl ⟨by simpa using hr, rfl, _, _, .inr ⟨_, hh⟩⟩)
  · cases h; exact .inr (.inr (.inr (.inl ⟨_, hh, rfl⟩)))
  · cases h; exact .inr (.inr (.inr (.inr ⟨_, hh, rfl⟩)))

end Sys2Proof.Machine
end

