-- ==== Sys2Proof/Tests/Slice0.lean ====
section
/-! SUPPORT. The model's own tests. Expected results come from spec/95_test_vectors.md; each theorem names its vector. The
second half holds, for each statement with hypotheses, a witness that meets them. -/

namespace Sys2Proof.Tests

open Sys2Proof.Machine

-- One theorem at a time: many kernel evaluations waiting for each other would each hold a thread.
set_option Elab.async false

/-! ### Small states -/

/-- The state of vector V42-2: two symbols, their tree and their tables. -/
def demo : State := { State.reset with
  ft := [(7, 3), (9, 1)]
  node := [(7, .leaf 3 7), (9, .leaf 1 9), (256, .internal 4 9 7)]
  inq := [256], root := 256, nxt := 257, treeV := true
  ct := [(7, [true]), (9, [false])], ict := [⟨[false], 9⟩, ⟨[true], 7⟩], tblV := true }

/-- The state of vector V42-3: one symbol, its tree and its tables. -/
def single : State := { State.reset with
  ft := [(42, 3)], node := [(42, .leaf 3 42)], inq := [42], root := 42, treeV := true
  ct := [(42, [false])], ict := [⟨[false], 42⟩], tblV := true }

/-- A frequency table alone. -/
def counted (ft : Table Count) : State := { State.reset with ft := ft }

/-- A core with an error latched. -/
def latched : State := { demo with err := 2 }

/-- The state a command's outcome shows, if it is a next state. -/
def see {α : Type} (f : State → α) : Out → Option α
  | .next t => some (f t)
  | .fault _ => none
  | .refused _ => none

/-- The answer of a command. -/
def answer (o : Out) : Option Response := (see (fun t => t.rsps.getLast?) o).join

/-! ### Decoding: words written out from R80 to R83 -/

theorem test_decode_system :
    decode (0x00#8 ++ 0xFF#8 ++ 0xFFFFFFFF#32) = .instr .nop ∧ decode (0x01#8 ++ 0x00#8 ++ 0x00000000#32) = .instr .rst ∧
      decode (0x02#8 ++ 0x00#8 ++ 0x00000000#32) = .instr .sts := by decide +kernel
theorem test_decode_counter :
    decode (0x10#8 ++ 0x07#8 ++ 0xDEADBEEF#32) = .instr (.cnt 7) ∧
      decode (0x11#8 ++ 0x61#8 ++ 0x00000005#32) = .instr (.fwr 0x61 5) ∧
      decode (0x12#8 ++ 0x61#8 ++ 0x00000000#32) = .instr (.frd 0x61) := by decide +kernel
theorem test_decode_tree :
    decode (0x20#8 ++ 0xAB#8 ++ 0xCDEF0123#32) = .instr .bld ∧ decode (0x21#8 ++ 0x00#8 ++ 0xFFFFFE07#32) = .instr (.nrd 7) ∧
      decode (0x21#8 ++ 0x00#8 ++ 0x00000102#32) = .instr (.nrd 258) := by decide +kernel
theorem test_decode_generator :
    decode (0x30#8 ++ 0x00#8 ++ 0x00000000#32) = .instr .gen ∧
      decode (0x31#8 ++ 0x2A#8 ++ 0x00000000#32) = .instr (.trd 42) := by decide +kernel
theorem test_decode_packer :
    decode (0x40#8 ++ 0x07#8 ++ 0x00000000#32) = .instr (.pks 7) ∧
      decode (0x41#8 ++ 0x00#8 ++ 0x00000000#32) = .instr .pke := by decide +kernel
theorem test_decode_unpacker :
    decode (0x50#8 ++ 0xE0#8 ++ 0x00000000#32) = .instr (.upb 0xE0) ∧
      decode (0x51#8 ++ 0x00#8 ++ 0x00000000#32) = .instr .upe := by decide +kernel
theorem test_decode_decoder : decode (0x60#8 ++ 0x00#8 ++ 0x00000000#32) = .instr .dec := by decide +kernel
theorem test_decode_reserved :
    decode (0x03#8 ++ 0x00#8 ++ 0x00000000#32) = .reserved 0x03 ∧ decode (0xFF#8 ++ 0x00#8 ++ 0x00000000#32) = .reserved 0xFF ∧
      decode (0x61#8 ++ 0xFF#8 ++ 0xFFFFFFFF#32) = .reserved 0x61 := by decide +kernel
/-- The host's numbering: the last two rows of the table, and a reserved word. -/
theorem test_decodeTableWord :
    decodeTableWord 48 0x510000000000 = some .upe ∧ decodeTableWord 48 0x600000000000 = some .dec ∧
      decodeTableWord 48 0x030000000000 = none := by decide +kernel
/-- The encoder, word for word (V30-2, V30-3, P1). -/
theorem test_encode :
    encode (.fwr 0x61 5) = 0x116100000005 ∧ encode (.nrd 258) = 0x210000000102 ∧ encode (.pks 7) = 0x400700000000 := by
  decide +kernel

/-! ### Well-formedness: each check refuses an ill-formed term (R95, R87, R97) -/

theorem test_wf_refuses_symbol :
    (AsmCommand.cnt 256).wellFormed = false ∧ (AsmCommand.frd 256).wellFormed = false ∧
      (AsmCommand.trd 256).wellFormed = false ∧ (AsmCommand.pks 256).wellFormed = false := by decide
theorem test_wf_refuses_byte : (AsmCommand.upb 256).wellFormed = false := by decide
theorem test_wf_refuses_count :
    (AsmCommand.fwr 256 0).wellFormed = false ∧ (AsmCommand.fwr 0 4294967296).wellFormed = false := by decide
theorem test_wf_refuses_index : (AsmCommand.nrd 512).wellFormed = false := by decide
theorem test_wf_accepts_bounds :
    (AsmCommand.cnt 255).wellFormed = true ∧ (AsmCommand.fwr 255 4294967295).wellFormed = true ∧
      (AsmCommand.nrd 511).wellFormed = true ∧ (AsmCommand.upb 255).wellFormed = true := by decide
/-- V30-4, V30-7 and V30-8: two words with an ignored bit set, and a reserved one. -/
theorem test_wf_refuses_word :
    canonicalWord 0x00FFFFFFFFFF = false ∧ canonicalWord 0x2100FFFFFE07 = false ∧ canonicalWord 0x030000000000 = false := by
  decide +kernel
theorem test_wf_accepts_word : canonicalWord 0x210000000102 = true := by decide +kernel

/-! ### The assembler (R95): lines as character codes -/

/-- `CNT 0x07` -/
theorem test_asm_cnt :
    assembleLine [0x43, 0x4E, 0x54, 0x20, 0x30, 0x78, 0x30, 0x37] = .command 0x100700000000 := by decide +kernel
/-- `FWR 0x61, 5` and a comment -/
theorem test_asm_fwr :
    assembleLine [0x46, 0x57, 0x52, 0x20, 0x30, 0x78, 0x36, 0x31, 0x2C, 0x20, 0x35, 0x20, 0x3B, 0x78] =
      .command 0x116100000005 := by decide +kernel
/-- `PKS 'a'` -/
theorem test_asm_char :
    assembleLine [0x50, 0x4B, 0x53, 0x20, 0x27, 0x61, 0x27] = .command 0x406100000000 := by decide +kernel
/-- `NRD 512` is an error, `; x` is no command -/
theorem test_asm_error :
    assembleLine [0x4E, 0x52, 0x44, 0x20, 0x35, 0x31, 0x32] = .error ∧ assembleLine [0x3B, 0x20, 0x78] = .empty := by
  decide +kernel
/-- The pseudo-command of program P1 (R96). -/
theorem test_expand_decompress : expand (.decompress [0x04, 0xE0]) = [.upb 0x04, .upb 0xE0, .upe, .dec] := by decide

/-! ### System commands and faults -/

/-- V46-3 -/
theorem test_nop : answer (exec .nop latched) = some {} := by decide +kernel
theorem test_nop_keeps : see State.err (exec .nop latched) = some 2 := by decide +kernel
/-- V60-2 -/
theorem test_rst : see (fun t => (t.err, t.ct, t.nxt)) (exec .rst latched) = some (0, [], 256) := by decide +kernel
/-- R38: what has left the core stays -/
theorem test_rst_sinks : see State.bout (exec .rst { demo with bout := [(4, true)] }) = some [(4, true)] := by decide +kernel
/-- V43-21 -/
theorem test_sts : answer (exec .sts latched) = some { d := 50 } := by decide +kernel
/-- V46-2 -/
theorem test_sts_tables : answer (exec .sts demo) = some { d := 48 } := by decide +kernel
/-- V30-8 -/
theorem test_reserved : see State.err (runWord 0x030000000000 State.reset) = some 11 := by decide +kernel
/-- V60-3 -/
theorem test_reserved_halted : answer (runWord 0x030000000000 latched) = some { st := 15 } := by decide +kernel

/-! ### Unit 1 -/

/-- V40-1 -/
theorem test_cnt : answer (exec (.cnt 7) (counted [(7, 2)])) = some { d := 3 } := by decide +kernel
/-- V40-3 -/
theorem test_cnt_overflow :
    see (fun t => (t.err, t.ft)) (exec (.cnt 7) (counted [(7, 0xFFFFFFFF)])) = some (8, [(7, 0xFFFFFFFF)]) := by decide +kernel
/-- V40-3 -/
theorem test_fwr : see State.ft (exec (.fwr 7 0xFFFFFFFE) demo) = some [(7, 0xFFFFFFFE), (9, 1)] := by decide +kernel
/-- V40-4: a count of 0 is no entry -/
theorem test_fwr_zero : see State.ft (exec (.fwr 7 0) demo) = some [(9, 1)] := by decide +kernel
/-- V40-2 -/
theorem test_frd : answer (exec (.frd 7) demo) = some { f := 1, d := 3 } := by decide +kernel
/-- V40-2: an absent symbol -/
theorem test_frd_absent : answer (exec (.frd 8) demo) = some {} := by decide +kernel

/-! ### Unit 2 -/

/-- V41-2: the ties of the second merge -/
theorem test_bld :
    see (fun t => (t.node.drop 4, t.root, t.nxt)) (exec .bld (counted [(0x61, 5), (0x62, 2), (0x63, 1), (0x64, 1)])) =
      some ([(256, .internal 2 0x63 0x64), (257, .internal 4 0x62 256), (258, .internal 9 257 0x61)], 258, 259) := by
  decide +kernel
/-- V41-10: a sum wider than a count -/
theorem test_bld_wide :
    answer (exec .bld (counted [(0, 0xFFFFFFFF), (1, 0xFFFFFFFF)])) = some { x := 256, d := 8589934590 } := by decide +kernel
/-- V41-21 in the tree of V41-1 -/
theorem test_nrd : answer (exec (.nrd 256) demo) = some { f := 1, x := 9, y := 7, d := 4 } := by decide +kernel
/-- V41-26: no such slot -/
theorem test_nrd_511 : answer (exec (.nrd 511) demo) = some {} := by decide +kernel

/-! ### Unit 3 -/

/-- V42-2 -/
theorem test_gen :
    see (fun t => (t.ct, t.ict)) (exec .gen { demo with ct := [], ict := [], tblV := false }) = some (demo.ct, demo.ict) := by
  decide +kernel
/-- V42-3: one symbol -/
theorem test_gen_single : see State.ct (exec .gen { single with ct := [], ict := [] }) = some [(42, [false])] := by
  decide +kernel
/-- Section 2.1: the whole response word of `TRD` for the code "1" -/
theorem test_trd : (answer (exec (.trd 7) demo)).map Response.toWord = some (BitVec.ofNat 327 (2 ^ 321 + 2 ^ 255 + 2 ^ 254)) := by
  decide +kernel
/-- A symbol without a code -/
theorem test_trd_absent : answer (exec (.trd 8) demo) = some {} := by decide +kernel

/-! ### Unit 4 -/

/-- V43-21 -/
theorem test_pks : see (fun t => (t.pbuf, t.err)) (exec (.pks 7) demo) = some ([true], 0) := by decide +kernel
/-- V43-22: a small capacity -/
theorem test_pks_overflow :
    see (fun t => (t.pbuf, t.err)) (packSymbol { Config.thisHardware with pbufBits := some 3 } 7
      { demo with pbuf := [true, false, false] }) = some ([true, false, false], 9) := by decide +kernel
/-- V43-1 -/
theorem test_pke :
    see State.bout (exec .pke { demo with pbuf := [true, true, true, false] }) = some [(0x04, false), (0xE0, true)] := by
  decide +kernel
/-- V43-6: the reference pad mode -/
theorem test_pke_reference : packStream .reference (zeros 8) = [0x08, 0x00, 0x00] := by decide +kernel

/-! ### Unit 5 -/

/-- P2 -/
theorem test_upb : see State.ubuf (exec (.upb 0xE0) { demo with ubuf := [0x04] }) = some [0x04, 0xE0] := by decide +kernel
/-- V44-16: a small capacity -/
theorem test_upb_overflow :
    see (fun t => (t.ubuf, t.err)) (giveByte { Config.thisHardware with ubufBytes := some 2 } 3
      { demo with ubuf := [1, 2] }) = some ([1, 2], 9) := by decide +kernel
/-- V44-10: the pad bits are not examined -/
theorem test_upe :
    see (fun t => (t.ebits, t.ubuf)) (exec .upe { demo with ubuf := [0x03, 0xB7] }) =
      some ([true, false, true, true, false], []) := by decide +kernel
/-- V44-12 -/
theorem test_upe_corrupt : answer (exec .upe { demo with ubuf := [0x09, 0xFF] }) = some { st := 4 } := by decide +kernel

/-! ### Unit 6 -/

/-- V45-1 -/
theorem test_dec :
    see (fun t => (t.sout, t.ebits)) (exec .dec { demo with ebits := [true, true, true, false] }) =
      some ([(7, false), (7, false), (7, false), (9, true)], []) := by decide +kernel
/-- V45-8: a bad tail emits nothing -/
theorem test_dec_tail :
    see (fun t => (t.sout, t.ebits, t.err)) (exec .dec { single with ebits := [false, true] }) =
      some ([], [false, true], 5) := by decide +kernel

/-! ### The step -/

/-- A held command: one byte taken, then the rest (R93). -/
theorem test_step_held :
    see (fun t => (t.bout, t.boPort, t.rsps.length, t.busy))
      (step { demo with pbuf := [true], host := [.commandHeld 0x410000000000 1] }) =
      some ([(0x07, false)], [(0x80, true)], 0, true) := by decide +kernel
theorem test_step_ready :
    see (fun t => (t.bout, t.busy)) (step { demo with boPort := [(0x80, true)], busy := true, host := [.ready] }) =
      some ([(0x80, true)], false) := by decide +kernel
/-- A command word at a busy core: what is pending is transferred and the word stays presented (R93, R274). -/
theorem test_step_busy :
    see (fun t => (t.bout, t.busy, t.host))
      (step { demo with boPort := [(0x80, true)], busy := true, host := [.command 0, .rst] }) =
      some ([(0x80, true)], false, [.command 0, .rst]) := by decide +kernel
/-- `rst` at a busy core: in reset, and what was pending never comes (R290, R292). -/
theorem test_step_rst :
    see (fun t => (t.treeV, t.boPort, t.inReset, cmdReady t, t.host))
      (step { demo with boPort := [(0x80, true)], busy := true, host := [.rst, .command 0] }) =
      some (false, [], true, false, [.command 0]) := by decide +kernel
/-- The first instruction after reset, as the host places it. -/
theorem test_first_word : answer (step (State.reset.withFetchWord 48 0x100700000000)) = some { d := 1 } := by decide +kernel

/-! ### Witnesses: states and operands that meet each statement's hypotheses -/

theorem demo_ftWf : ftWf demo.ft := by decide
theorem demo_present : ∃ a, count demo.ft a ≠ 0 := ⟨7, by decide⟩

theorem demo_tree : TreeOk demo.node demo.root := by
  refine ⟨.branch 256 (.leaf 9) (.leaf 7), ?_, rfl, by decide, fun i => ?_⟩
  · exact ⟨by decide, by decide, by decide, by decide, ⟨4, rfl, by decide⟩, ⟨by decide, 1, rfl⟩, ⟨by decide, 3, rfl⟩⟩
  · simp only [demo, Table.get?_cons, Table.get?_nil, Shape.slots, List.mem_cons, List.cons_append, List.nil_append,
      List.not_mem_nil, or_false]
    by_cases h7 : 7 = i
    · subst h7; decide
    · by_cases h9 : 9 = i
      · subst h9; decide
      · by_cases h256 : 256 = i
        · subst h256; decide
        · simp [h7, h9, h256]; omega

/-- There is a list of any length. -/
theorem list_of_length {α : Type} (v : α) (n : Nat) : ∃ l : List α, l.length = n :=
  ⟨List.replicate n v, List.length_replicate⟩

theorem demo_good : GoodCodes [((9 : Sym), [false]), ((7 : Sym), [true])] :=
  ⟨by decide, by decide, by decide, by decide⟩

theorem demo_tables : tablesOf [((9 : Sym), [false]), ((7 : Sym), [true])] = { ct := demo.ct, ict := demo.ict } := by
  decide +kernel

theorem demo_prefixFree : PrefixFree demo.ct := by
  have h := prefixFree_tablesOf demo_good; rw [demo_tables] at h; exact h
theorem demo_inverse : ExactInverse demo.ct demo.ict := by
  have h := exactInverse_tablesOf demo_good; rw [demo_tables] at h; exact h
theorem demo_bounded : CodesBounded demo.ct := by
  have h := codesBounded_tablesOf demo_good; rw [demo_tables] at h; exact h

/-- UnusedFieldsIgnored: two different words of `NRD 511`, and two of `NOP`. -/
theorem test_hyp_UnusedFieldsIgnored :
    CmdWord.op 0x2100FFFFFFFF = CmdWord.op 0x21AA000001FF ∧
      (∀ i, decode 0x2100FFFFFFFF = .instr i → 0x2100FFFFFFFF &&& usedBits i = 0x21AA000001FF &&& usedBits i) ∧
      (∀ i, decode 0x00FFFFFFFFFF = .instr i → 0x00FFFFFFFFFF &&& usedBits i = 0x000000000000 &&& usedBits i) := by
  refine ⟨by decide +kernel, fun i h => ?_, fun i h => ?_⟩
  · rw [show decode 0x2100FFFFFFFF = .instr (.nrd 511) by decide +kernel] at h; cases h; decide +kernel
  · rw [show decode 0x00FFFFFFFFFF = .instr .nop by decide +kernel] at h; cases h; decide +kernel
/-- ReservedOpsRaiseIllegalCommand: the values next to defined ones, in a running and in a halted core. -/
theorem test_hyp_ReservedOps :
    CmdWord.op 0x030000000000 ∉ definedOps ∧ CmdWord.op 0x610000000000 ∉ definedOps ∧ CmdWord.op 0xFF0000000000 ∉ definedOps ∧
      demo.err = 0 ∧ latched.err ≠ 0 := by decide +kernel
/-- AssemblerChecksOperands: each operand at its bound assembles, one above it does not. -/
theorem test_hyp_AssemblerChecksOperands :
    assemble (.cnt 255) = some 0x10FF00000000 ∧ assemble (.frd 255) = some 0x12FF00000000 ∧
      assemble (.trd 255) = some 0x31FF00000000 ∧ assemble (.pks 255) = some 0x40FF00000000 ∧
      assemble (.upb 255) = some 0x50FF00000000 ∧ assemble (.fwr 255 4294967295) = some 0x11FFFFFFFFFF ∧
      assemble (.nrd 511) = some 0x2100000001FF ∧ assemble (.nrd 512) = none ∧ assemble (.cnt 256) = none := by
  decide +kernel
/-- StepRunsDecodedCommand: a command and a reserved word. -/
theorem test_hyp_StepRunsDecodedCommand :
    (presentWord 0x100700000000 demo).host = [.command 0x100700000000] ∧ (presentWord 0x100700000000 demo).busy = false ∧
      (presentWord 0x100700000000 demo).inReset = false ∧
      decode 0x100700000000 = .instr (.cnt 7) ∧ decode 0x130000000000 = .reserved 0x13 := by decide +kernel
/-- IdleAndBusyKeepState: one state for each clause and each of its cases. -/
theorem test_hyp_IdleAndBusyKeepState :
    (demo.host = [] ∧ demo.inReset = false) ∧
      (∃ s : State, s.host = [.command 0] ∧ s.busy = true ∧ s.inReset = false) ∧
      (∃ s : State, s.host = [.commandHeld 0 0] ∧ s.busy = true ∧ s.inReset = false) ∧
      (∃ s : State, s.host = [] ∧ s.inReset = true) ∧ (∃ s : State, s.host = [.command 0] ∧ s.inReset = true) ∧
      ∃ s : State, s.host = [.commandHeld 0 0] ∧ s.inReset = true :=
  ⟨⟨rfl, rfl⟩, ⟨{ demo with host := [.command 0], busy := true }, rfl, rfl, rfl⟩,
    ⟨{ demo with host := [.commandHeld 0 0], busy := true }, rfl, rfl, rfl⟩, ⟨{ State.reset with inReset := true }, rfl, rfl⟩,
    ⟨{ State.reset with inReset := true, host := [.command 0] }, rfl, rfl⟩,
    ⟨{ State.reset with inReset := true, host := [.commandHeld 0 0] }, rfl, rfl⟩⟩
/-- RstInputEqualsRstCommand and ResetValues: in the middle of a command, a command word behind it, and the step after it,
where `cmd_ready` becomes 1. -/
theorem test_hyp_RstInputEqualsRstCommand :
    ∃ s t u : State, s.host = [.rst, .command 0] ∧ s.busy = true ∧ step s = .next t ∧ step t = .next u ∧ cmdReady u = true :=
  ⟨{ demo with host := [.rst, .command 0], busy := true }, _, _, rfl, rfl, rfl, rfl, rfl⟩
/-- HeldCommandLosesNothing and ResetAbandonsCommand: `PKE` in a core with a payload; what follows begins with a command. -/
theorem test_hyp_HeldCommand :
    ∃ s t : State, s.busy = false ∧ s.inReset = false ∧ s.rspPort = none ∧ s.boPort = [] ∧ s.soPort = [] ∧
      step { s with host := .command 0x410000000000 :: [.command 0] } = .next t ∧ t.bout ≠ s.bout :=
  ⟨{ demo with pbuf := [true] }, _, rfl, rfl, rfl, rfl, rfl, rfl, by decide +kernel⟩
/-- WhatLeftTheCoreStays: a step that puts something out. -/
theorem test_hyp_WhatLeftTheCoreStays :
    ∃ t, step { demo with pbuf := [true], bout := [(1, true)], host := [.command 0x410000000000] } = .next t := ⟨_, rfl⟩
/-- NopDoesNothing, RstRestoresReset, StsReadsStatus, FwrSetsCount, FrdReadsCount, NrdReadsSlot, TrdReadsCode: words with every ignored bit set. -/
theorem test_hyp_SystemWords :
    CmdWord.op 0x00FFFFFFFFFF = 0x00 ∧ CmdWord.op 0x01FFFFFFFFFF = 0x01 ∧ CmdWord.op 0x02FFFFFFFFFF = 0x02 ∧
      CmdWord.op 0x11FFFFFFFFFF = 0x11 ∧ CmdWord.op 0x12FFFFFFFFFF = 0x12 ∧ CmdWord.op 0x21FFFFFFFFFF = 0x21 ∧
      CmdWord.op 0x31FFFFFFFFFF = 0x31 := by decide +kernel
/-- HaltedCommandsRefused: the least and the greatest code, and a command that is refused. -/
theorem test_hyp_HaltedCommandsRefused :
    latched.err ≠ 0 ∧ runsHalted (.cnt 7) = false ∧ runsHalted .dec = false ∧ ({ demo with err := 1 } : State).err ≠ 0 := by
  decide +kernel
/-- FaultsWriteOnlyErr and OneResponsePerCommand: a command that completes, one that raises, one that is refused. -/
theorem test_hyp_FaultsWriteOnlyErr :
    demo.err = 0 ∧ (∃ t, exec (.cnt 7) demo = .next t) ∧ (∃ t, exec .bld State.reset = .next t) ∧
      ∃ t, exec .gen latched = .next t := ⟨rfl, ⟨_, rfl⟩, ⟨_, rfl⟩, ⟨_, rfl⟩⟩
/-- OnlyResetClearsErr: a halted core is given a command that is no reset. -/
theorem test_hyp_OnlyResetClearsErr :
    ∃ t, step { latched with host := [.command 0x100700000000] } = .next t ∧ latched.err ≠ 0 ∧
      asksReset { latched with host := [.command 0x100700000000] } = false :=
  ⟨_, rfl, by decide +kernel, by decide +kernel⟩
/-- StoresAreIndependent: each of the four writers. -/
theorem test_hyp_StoresAreIndependent :
    (∃ t, exec (.cnt 255) demo = .next t) ∧ (∃ t, exec (.fwr 0 0) demo = .next t) ∧ (∃ t, exec .bld demo = .next t) ∧
      ∃ t, exec .gen demo = .next t := ⟨⟨_, rfl⟩, ⟨_, rfl⟩, ⟨_, rfl⟩, ⟨_, by rfl⟩⟩
/-- CntCountsOne: the greatest count that is still counted. -/
theorem test_hyp_CntCountsOne :
    (counted [(7, 0xFFFFFFFE)]).err = 0 ∧ (count (counted [(7, 0xFFFFFFFE)]).ft 7).toNat ≠ 2 ^ 32 - 1 := by decide +kernel
theorem test_hyp_CntOverflowFaults :
    (counted [(7, 0xFFFFFFFF)]).err = 0 ∧ (count (counted [(7, 0xFFFFFFFF)]).ft 7).toNat = 2 ^ 32 - 1 := by decide +kernel
/-- FwrSetsCount, FrdReadsCount, NrdReadsSlot, PksFaults, UpbOverflowFaults, UpeFaults, EmptyDecodes,
PrefixFsmRefinesDec: a core that is not halted, with something in it. -/
theorem test_hyp_running : demo.err = 0 ∧ demo.ict ≠ [] := by decide +kernel
theorem test_hyp_CountingGivesOccurrences :
    State.reset.err = 0 ∧ (∀ a, count State.reset.ft a = 0) ∧ ∀ a, List.count a [(7 : Sym), 7, 7, 9] < 2 ^ 32 :=
  ⟨rfl, fun _ => rfl, fun _ => lt_of_le_of_lt List.count_le_length (by decide)⟩
theorem test_hyp_BldEmptyAlphabetFaults :
    ftWf State.reset.ft ∧ State.reset.err = 0 ∧ ∀ a, count State.reset.ft a = 0 := ⟨by decide, rfl, fun _ => rfl⟩
/-- BldBuildsTree, TotalLengthIsInternalSum, MergeEngineRefinesBld: two symbols, and one. -/
theorem test_hyp_BldBuildsTree :
    ftWf demo.ft ∧ demo.err = 0 ∧ (∃ a, count demo.ft a ≠ 0) ∧ ftWf single.ft ∧ single.err = 0 ∧
      (∀ b, count single.ft b ≠ 0 ↔ b = 42) ∧
      ((List.range 256).filter (fun k => count single.ft (BitVec.ofNat 8 k) != 0)).length = 1 ∧
      2 ≤ ((List.range 256).filter (fun k => count demo.ft (BitVec.ofNat 8 k) != 0)).length :=
  ⟨demo_ftWf, rfl, demo_present, by decide, rfl, by decide +kernel, by decide +kernel, by decide +kernel⟩
/-- CodesAreOptimal: the counts of V41-1 and the other prefix code of two one-bit words. -/
theorem test_hyp_CodesAreOptimal :
    ftWf demo.ft ∧ demo.err = 0 ∧ (∃ a, count demo.ft a ≠ 0) ∧
      (∀ a, count demo.ft a ≠ 0 → 1 ≤ (if a = 7 then [false] else [true] : Bits).length) ∧
      (∀ a b, count demo.ft a ≠ 0 → count demo.ft b ≠ 0 → a ≠ b →
        ¬ (if a = 7 then [false] else [true] : Bits) <+: (if b = 7 then [false] else [true] : Bits)) := by
  have key : ∀ a, count demo.ft a ≠ 0 → a = 7 ∨ a = 9 := by decide +kernel
  refine ⟨demo_ftWf, rfl, demo_present, by decide +kernel, fun a b ha hb hab => ?_⟩
  rcases key a ha with rfl | rfl <;> rcases key b hb with rfl | rfl
  · exact absurd rfl hab
  · decide
  · decide
  · exact absurd rfl hab
/-- MergeTakesTheTwoLowest: the last merge there is room for, two keys that tie. -/
theorem test_hyp_MergeTakesTheTwoLowest :
    ∃ e : Engine, e.inq.Nodup ∧ 1 < e.inq.length ∧ (∀ i ∈ e.inq, i < e.nxt.toNat) ∧ e.nxt.toNat < 511 :=
  ⟨⟨[(508, .internal 128 0 1), (509, .internal 128 2 3)], [508, 509], 510⟩, by decide, by decide, by decide, by decide⟩
/-- BldIsAFunctionOfCounts and TablesAreAFunctionOfCounts: two cores with equal counts, one with stale tables. -/
theorem test_hyp_FunctionOfCounts :
    ftWf demo.ft ∧ ftWf (counted demo.ft).ft ∧ (∀ a, count demo.ft a = count (counted demo.ft).ft a) ∧
      demo.err = 0 ∧ (counted demo.ft).err = 0 ∧ (∃ a, count demo.ft a ≠ 0) ∧
      (∃ t, exec .bld demo = .next t) ∧ (∃ t, exec .bld (counted demo.ft) = .next t) ∧
      (∃ t, runInstrs [.bld, .gen] demo = .next t) ∧ ∃ t, runInstrs [.bld, .gen] (counted demo.ft) = .next t :=
  ⟨demo_ftWf, demo_ftWf, fun _ => rfl, rfl, rfl, demo_present, ⟨_, rfl⟩, ⟨_, rfl⟩, ⟨_, rfl⟩, ⟨_, rfl⟩⟩
/-- NrdReadsSlot: one index for each clause, at the bounds. -/
theorem test_hyp_NrdReadsSlot :
    demo.err = 0 ∧ (511 : Idx).toNat = 511 ∧ ((510 : Idx).toNat < 511 ∧ demo.node.get? (510 : Idx).toNat = none) ∧
      demo.node.get? (9 : Idx).toNat = some (.leaf 1 9) ∧ demo.node.get? (256 : Idx).toNat = some (.internal 4 9 7) := by
  decide +kernel
theorem test_hyp_GenNoTreeFaults : State.reset.err = 0 ∧ State.reset.treeV = false := by decide
/-- GenWritesTables, CodesSpellPaths, CodeIsComplete, TraversalRefinesGen: the tree of V41-1. -/
theorem test_hyp_GenWritesTables :
    demo.err = 0 ∧ demo.treeV = true ∧ TreeOk demo.node demo.root ∧
      nodeAt demo.node demo.root = some (.internal 4 9 7) ∧ ∃ t, exec .gen demo = .next t :=
  ⟨rfl, rfl, demo_tree, by decide +kernel, ⟨_, rfl⟩⟩
theorem test_hyp_OneLeafTreeGetsCodeZero :
    single.err = 0 ∧ single.treeV = true ∧ nodeAt single.node single.root = some (.leaf 3 42) := by decide +kernel
/-- TrdReadsCode: a symbol with a code, and one without. -/
theorem test_hyp_TrdReadsCode :
    demo.err = 0 ∧ CodesBounded demo.ct ∧ codeOf demo.ct 7 = some [true] ∧ codeOf demo.ct 255 = none :=
  ⟨rfl, demo_bounded, by decide, by decide⟩
/-- PksAppendsCode: the last bit that fits. -/
theorem test_hyp_PksAppendsCode :
    ∃ s : State, s.err = 0 ∧ codeOf s.ct 7 = some [true] ∧ s.pbuf.length + [true].length ≤ 524288 ∧
      ¬ s.pbuf.length + 1 + [true].length ≤ 524288 := by
  obtain ⟨l, h⟩ := list_of_length false 524287
  exact ⟨{ demo with pbuf := l }, rfl, rfl, by simp [h], by simp [h]⟩
/-- PksFaults: no code; a code at a capacity that is full; a code with no capacity to fill. -/
theorem test_hyp_PksFaults :
    demo.err = 0 ∧ codeOf demo.ct 8 = none ∧ codeOf demo.ct 7 = some [true] ∧
      ({ Config.thisHardware with pbufBits := some 0 } : Config.Params).pbufBits = some 0 ∧
      0 < demo.pbuf.length + [true].length ∧
      ({ Config.thisHardware with pbufBits := none } : Config.Params).pbufBits = none := by decide +kernel
theorem test_hyp_PkeEmitsStream :
    ∃ s : State, s.err = 0 ∧ s.pbuf.length ≤ 524288 ∧ s.pbuf.length = 524288 := by
  obtain ⟨l, h⟩ := list_of_length false 524288
  exact ⟨{ demo with pbuf := l }, rfl, h.le, h⟩
theorem test_hyp_UpbAppendsByte : ∃ s : State, s.err = 0 ∧ s.ubuf.length < 65538 ∧ ¬ s.ubuf.length + 1 < 65538 := by
  obtain ⟨l, h⟩ := list_of_length (0 : Byte) 65537
  exact ⟨{ demo with ubuf := l }, rfl, by simp [h], by simp [h]⟩
/-- UpbOverflowFaults: a full buffer, and a buffer without end. -/
theorem test_hyp_UpbOverflowFaults :
    (∃ s : State, s.err = 0 ∧ Config.thisHardware.ubufBytes = some s.ubuf.length) ∧
      ({ Config.thisHardware with ubufBytes := none } : Config.Params).ubufBytes = none := by
  obtain ⟨l, h⟩ := list_of_length (0 : Byte) 65538
  exact ⟨⟨{ demo with ubuf := l }, rfl, by simp [Config.thisHardware, h]⟩, rfl⟩
/-- UpeStripsHeaderAndPadding: a header equal to all the bits (V44-9). -/
theorem test_hyp_UpeStrips :
    ∃ (s : State) (h : Byte) (B : List Byte), s.err = 0 ∧ s.ubuf = h :: B ∧ h.toNat ≤ 8 * B.length ∧ B.length < 65538 ∧
      h.toNat = 8 * B.length :=
  ⟨{ demo with ubuf := [0x08, 0xFF] }, 0x08, [0xFF], rfl, rfl, by decide, by decide, by decide⟩
/-- UpeFaults: no byte, a header one above the bits (V44-12), and a header equal to them (V44-4). -/
theorem test_hyp_UpeFaults :
    demo.err = 0 ∧ demo.ubuf = [] ∧
      (∃ (s : State) (h : Byte) (B : List Byte), s.err = 0 ∧ s.ubuf = h :: B ∧ 8 * B.length < h.toNat) ∧
      ∃ (s : State) (h : Byte) (B : List Byte), s.err = 0 ∧ s.ubuf = h :: B ∧ 8 * B.length = h.toNat :=
  ⟨rfl, rfl, ⟨{ demo with ubuf := [0x09, 0xFF] }, 0x09, [0xFF], rfl, rfl, by decide⟩,
    { demo with ubuf := [0x00] }, 0x00, [], rfl, rfl, by decide⟩
/-- UnpackInvertsPack: the longest payload, a core that holds it, and a core that takes its bytes. -/
theorem test_hyp_UnpackInvertsPack :
    ∃ (P : Bits) (u s : State), P.length ≤ 524288 ∧ P.length = 524288 ∧ u.err = 0 ∧ u.pbuf = P ∧ s.err = 0 ∧ s.ubuf = [] := by
  obtain ⟨l, h⟩ := list_of_length true 524288
  exact ⟨l, { demo with pbuf := l }, demo, h.le, h, rfl, rfl, rfl, rfl⟩
theorem test_hyp_DecEmitsSymbols :
    ∃ (s : State) (S : List Sym), S ≠ [] ∧ s.err = 0 ∧ PrefixFree s.ct ∧ ExactInverse s.ct s.ict ∧
      payloadOf s.ct S = some s.ebits ∧ s.ebits.length < 2 ^ 40 :=
  ⟨{ demo with ebits := [true, true, true, false] }, [7, 7, 7, 9], by decide, rfl, demo_prefixFree, demo_inverse, by decide,
    by decide⟩
/-- DecFaultsOnBadTail: no symbol has a code, so one bit is the code of no sequence. -/
theorem test_hyp_DecFaultsOnBadTail :
    ∃ s : State, s.err = 0 ∧ ExactInverse s.ct s.ict ∧ ∀ S, payloadOf s.ct S ≠ some s.ebits :=
  ⟨{ State.reset with ebits := [false] }, rfl, fun a c => by simp [State.reset, lookup, codeOf],
    fun S => by cases S <;> simp [payloadOf, State.reset, codeOf]⟩
/-- EmptyDecodes: no bits; no table and a bit. -/
theorem test_hyp_EmptyDecodes :
    (demo.err = 0 ∧ demo.ebits = []) ∧ ∃ s : State, s.err = 0 ∧ s.ict = [] ∧ s.ebits ≠ [] :=
  ⟨by decide +kernel, { State.reset with ebits := [false] }, rfl, rfl, by decide⟩
theorem test_hyp_CompressDecompressRoundTrip :
    ∃ S : List Sym, S ≠ [] ∧ (∀ a, S.count a < 2 ^ 32) ∧ ∃ P, payloadOf demo.ct S = some P ∧ P.length ≤ 524288 :=
  ⟨[7, 7, 7, 9], by decide, fun _ => lt_of_le_of_lt List.count_le_length (by decide), [true, true, true, false], by decide,
    by decide⟩
/-- StepKeepsInvariant and StepNeverStops: a state with a tree and tables that meets the invariant, and its step. -/
theorem test_hyp_StepKeepsInvariant : CoreInv demo ∧ ∃ t, step demo = .next t where
  left :=
    { ft := demo_ftWf, node := by decide, ct := by decide, noTree := by decide, tree := fun _ => demo_tree
      noTables := by decide, tables := by decide, codes := demo_bounded, prefixFree := demo_prefixFree
      inverse := demo_inverse, ictSize := by decide, pbuf := by decide, ubuf := by decide, ebits := by decide
      err := .inl rfl, nxt := by decide, idle := fun _ => ⟨rfl, rfl, rfl⟩, waiting := by decide
      abandoned := by decide }
  right := ⟨_, rfl⟩

end Sys2Proof.Tests
end

section
/-! PROOFS of the family 10_state.md: the invariant of reachable states holds at reset and every step keeps it, no step
stops from it, nothing that has left the core is taken back, and the reset values (spec/10_state.md R38, R43, R44). -/

namespace Sys2Proof.Machine

/-! ### The reset values (R43) -/

theorem hasResetValues_reset : HasResetValues State.reset where
  ft _ := rfl
  node _ := rfl
  inq := rfl
  root := rfl
  nxt := rfl
  treeV := rfl
  ct _ := rfl
  ict _ := by simp [State.reset, lookup]
  tblV := rfl
  pbuf := rfl
  ubuf := rfl
  ebits := rfl
  cand := ⟨rfl, rfl⟩
  dpos := rfl
  stk := ⟨rfl, rfl⟩
  err := rfl
  busy := rfl

/-- Both ways to reset, `RST` and the input `rst`, go through `toReset`, which leaves the reset values (R291). -/
theorem hasResetValues_toReset (s : State) : HasResetValues (toReset s) := { hasResetValues_reset with }

theorem hasResetValues_respond {s : State} (r : Response) (h : HasResetValues s) : HasResetValues (respond r s) :=
  { h with }

theorem hasResetValues_endReset_resetInput (s : State) : HasResetValues (endReset (resetInput s)) :=
  { hasResetValues_toReset s with }

/-- In reset no command word is accepted, so a core that one step made ready has left reset and changed nothing else
(70_reset_and_hazards.md R290). -/
theorem eq_endReset_of_ready {s t : State} (hs : s.inReset = true) (h : step s = .next t) (hr : cmdReady t = true) :
    t = endReset s := by
  rw [cmdReady_iff] at hr
  rcases step_cases h with ⟨-, rfl⟩ | ⟨-, rfl, -⟩ | ⟨hready, -⟩ | ⟨rest, -, rfl⟩ | ⟨rest, -, rfl⟩
  · rfl
  · exact becomeReady_inReset hs
  · simp [cmdReady, hs] at hready
  · simp [hs] at hr
  · simp at hr

/-- The input `rst` is taken whatever the core does (70_reset_and_hazards.md R290). -/
theorem step_rst {s : State} {rest : List HostEvent} (h : s.host = .rst :: rest) :
    step s = .next (resetInput (nextEvents rest s)) := by
  simp [step, hostStep, h]

/-- Settles O10: `RST` and the input `rst` both go through `toReset`, and a core in reset becomes ready only by leaving
it. -/
theorem resetValues : Obligations.ResetValues := by
  refine ⟨hasResetValues_reset, rfl, rfl, fun s => ?_, fun s rest h => ?_⟩
  · exact ⟨_, rfl, hasResetValues_respond _ (hasResetValues_toReset s), rfl, rfl⟩
  · refine ⟨_, step_rst h, by simp [cmdReady], rfl, rfl, fun u hu hr => ?_⟩
    obtain rfl := eq_endReset_of_ready rfl hu hr
    exact ⟨hasResetValues_endReset_resetInput _, rfl, rfl⟩

/-! ### What has left the core (R38) -/

/-- Settles O14: by what a step can do. A held command keeps the old histories as its own beginning, the input `rst` keeps
them whole, and a transfer appends. -/
theorem whatLeftTheCoreStays : Obligations.WhatLeftTheCoreStays := by
  intro s t h
  rcases step_cases h with ⟨-, rfl⟩ | ⟨-, rfl, -⟩ | ⟨-, w, rest, u, hu, ⟨-, rfl⟩ | ⟨k, -, rfl⟩⟩ | ⟨rest, -, rfl⟩ |
    ⟨rest, -, rfl⟩
  · simp
  · obtain ⟨-, -, hb, hs, hr⟩ := becomeReady_keeps s
    exact ⟨hb, hs, hr⟩
  · obtain ⟨⟨r, hr⟩, hb, hs⟩ := runWord_sinks hu
    exact ⟨hb, hs, hr ▸ List.prefix_append _ _⟩
  · exact ⟨List.prefix_append _ _, List.prefix_append _ _, List.prefix_rfl⟩
  · simp
  · simp

/-! ### The operations keep the invariant (R44) -/

/-- Resetting establishes the invariant, from any state (R43, R44). -/
theorem coreInv_toReset (s : State) : CoreInv (toReset s) where
  ft := Table.wf_nil
  node := Table.wf_nil
  ct := Table.wf_nil
  noTree _ := rfl
  tree := by simp [State.reset]
  noTables _ := ⟨rfl, rfl⟩
  tables := by simp [State.reset]
  codes a c h := by simp [State.reset, codeOf] at h
  prefixFree a b c d h := by simp [State.reset, codeOf] at h
  inverse a c := by simp [State.reset, codeOf, lookup]
  ictSize := Nat.zero_le _
  pbuf := Nat.zero_le _
  ubuf := Nat.zero_le _
  ebits := Nat.zero_le _
  err := .inl rfl
  nxt := ⟨le_rfl, show 256 ≤ 511 by decide⟩
  idle _ := ⟨rfl, rfl, rfl⟩
  waiting := by simp [State.reset]
  abandoned _ := rfl

/-- Settles O58: the reset state is what resetting it leaves. -/
theorem resetMeetsInvariant : Obligations.ResetMeetsInvariant := coreInv_toReset State.reset

theorem coreInv_resetInput (s : State) : CoreInv (resetInput s) := { coreInv_toReset s with abandoned := fun _ => rfl }

theorem coreInv_emitBytes {s : State} (v : List Byte) (h : CoreInv s) : CoreInv (emitBytes v s) := { h with }

theorem coreInv_emitSyms {s : State} (v : List Sym) (h : CoreInv s) : CoreInv (emitSyms v s) := { h with }

theorem coreInv_setScan {s : State} (pos : Nat) (h : CoreInv s) : CoreInv (setScan pos s) := { h with }

theorem coreInv_setPbuf {s : State} {v : Bits} (hv : v.length ≤ 524288) (h : CoreInv s) : CoreInv (setPbuf v s) :=
  { h with pbuf := hv }

theorem coreInv_setUbuf {s : State} {v : List Byte} (hv : v.length ≤ 65538) (h : CoreInv s) : CoreInv (setUbuf v s) :=
  { h with ubuf := hv }

theorem coreInv_setEbits {s : State} {v : Bits} (hv : v.length ≤ 8 * (65538 - 1)) (h : CoreInv s) :
    CoreInv (setEbits v s) :=
  { h with ebits := hv }

/-- Storing a build with at least one symbol establishes R44(a) and R44(f) (R133, R135, R141). -/
theorem coreInv_storeTree_build {s : State} (h : CoreInv s) (hne : noSymbol s.ft = false) :
    CoreInv (storeTree (build s.ft).node (build s.ft).inq (build s.ft).nxt
      (BitVec.ofNat 9 (rootOf (build s.ft))) s) := by
  have hft : s.ft ≠ [] := by
    intro h0
    simp [h0, noSymbol, presentSyms] at hne
  obtain ⟨t, hf⟩ := build_forest h.ft hft
  obtain ⟨-, hroot, -, hok⟩ := hf.treeOk
  have hnxt := hf.nxt
  have hpos := List.length_pos_iff.2 hft
  have hle := ftWf_length h.ft
  rw [List.length_singleton] at hnxt
  exact { h with
    node := hf.wf
    noTree := by simp
    tree := fun _ => hroot ▸ hok
    nxt := ⟨show 256 ≤ (build s.ft).nxt.toNat by omega, show (build s.ft).nxt.toNat ≤ 511 by omega⟩ }

/-- Storing the tables of a walk establishes R44(c) and R30 (R154, R156, R157). -/
theorem coreInv_storeTables {s : State} {as : List (Sym × Bits)} (h : CoreInv s) (has : GoodCodes as) :
    CoreInv (storeTables (tablesOf as).ct (tablesOf as).ict s) :=
  { h with
    ct := ctWf_tablesOf as
    noTables := by simp
    tables := fun _ => by
      rw [← List.length_pos_iff]
      exact (ct_length_tablesOf has).symm ▸ List.length_pos_iff.2 has.ne
    codes := codesBounded_tablesOf has
    prefixFree := prefixFree_tablesOf has
    inverse := exactInverse_tablesOf has
    ictSize := by
      rw [storeTables_ict, ict_tablesOf has, List.length_map]
      exact has.length_le }

/-- A command held up waits with its response, at a core that is not in reset (30_encoding.md R93). -/
theorem coreInv_holdBack {s t : State} (k : Nat) (h : CoreInv t) (hreset : t.inReset = false)
    (hrsp : ∃ r, t.rsps = s.rsps ++ [r]) : CoreInv (holdBack s k t) :=
  { h with
    idle := by simp [holdBack]
    waiting := fun _ => by
      obtain ⟨r, hr⟩ := hrsp
      simp [holdBack, hr]
    abandoned := by simp [holdBack, hreset] }

/-! ### The commands keep the invariant (R44) -/

/-- From the invariant the traversal succeeds and gives good codes (R44(a), 42_code_table_generator.md R157). -/
theorem assignments_of_coreInv {s : State} (h : CoreInv s) (htree : s.treeV = true) :
    ∃ as, assignments s.node s.root = some as ∧ GoodCodes as := by
  obtain ⟨t, hin, hslot, hnodup, -⟩ := h.tree htree
  obtain ⟨as, heq, hgood, -⟩ := assignments_tree hin hslot hnodup
  exact ⟨as, heq, hgood⟩

theorem length_le_of_not_overPbuf {n : Nat} (h : overPbuf Config.thisHardware n = false) : n ≤ 524288 := by
  simpa [overPbuf, Config.thisHardware] using h

theorem length_ne_of_not_ubufFull {n : Nat} (h : ubufFull Config.thisHardware n = false) : n ≠ 65538 := by
  simpa [ubufFull, Config.thisHardware] using h

theorem coreInv_exec {i : Instr} {s t : State} (hs : CoreInv s) (h : exec i s = .next t) : CoreInv t := by
  have refused := coreInv_refuseHalted hs
  have raised := fun e => coreInv_raise e hs
  have answered := fun r => coreInv_respond r hs
  cases i
  case nop => exact execNop_next h ▸ answered _
  case rst => exact execRst_next h ▸ coreInv_respond _ (coreInv_toReset s)
  case sts => exact execSts_next h ▸ answered _
  case cnt a =>
    rcases execCnt_next h with ⟨-, -, rfl⟩ | ⟨-, -, rfl⟩ | ⟨-, rfl⟩
    · exact raised _
    · exact coreInv_respond _ (coreInv_setCount _ _ hs)
    · exact refused
  case fwr a c =>
    rcases execFwr_next h with ⟨-, rfl⟩ | ⟨-, rfl⟩
    · exact coreInv_respond _ (coreInv_setCount _ _ hs)
    · exact refused
  case frd a =>
    rcases execFrd_next h with ⟨-, rfl⟩ | ⟨-, rfl⟩
    · exact answered _
    · exact refused
  case bld =>
    rcases execBld_next h with ⟨-, -, rfl⟩ | ⟨-, hne, rfl⟩ | ⟨-, rfl⟩
    · exact raised _
    · exact coreInv_respond _ (coreInv_storeTree_build hs hne)
    · exact refused
  case nrd n =>
    rcases execNrd_next h with ⟨-, rfl⟩ | ⟨-, rfl⟩
    · exact answered _
    · exact refused
  case gen =>
    rcases execGen_next h with ⟨-, -, rfl⟩ | ⟨-, htree, as, has, rfl⟩ | ⟨-, rfl⟩
    · exact raised _
    · obtain ⟨as', has', hgood⟩ := assignments_of_coreInv hs htree
      obtain rfl : as' = as := Option.some.inj (has'.symm.trans has)
      exact coreInv_respond _ (coreInv_storeTables hs hgood)
    · exact refused
  case trd a =>
    rcases execTrd_next h with ⟨-, rfl⟩ | ⟨-, rfl⟩
    · exact answered _
    · exact refused
  case pks a =>
    rcases packSymbol_next h with ⟨-, -, rfl⟩ | ⟨c, -, -, -, rfl⟩ | ⟨c, -, -, hfits, rfl⟩ | ⟨-, rfl⟩
    · exact raised _
    · exact raised _
    · rw [← List.length_append] at hfits
      exact coreInv_respond _ (coreInv_setPbuf (length_le_of_not_overPbuf hfits) hs)
    · exact refused
  case pke =>
    rcases packEnd_next h with ⟨-, rfl⟩ | ⟨-, rfl⟩
    · exact coreInv_respond _ (coreInv_setPbuf (Nat.zero_le _) (coreInv_emitBytes _ hs))
    · exact refused
  case upb b =>
    rcases giveByte_next h with ⟨-, -, rfl⟩ | ⟨-, hroom, rfl⟩ | ⟨-, rfl⟩
    · exact raised _
    · have hlen : (s.ubuf ++ [b]).length ≤ 65538 := by
        have := length_ne_of_not_ubufFull hroom
        have := hs.ubuf
        rw [List.length_append, List.length_singleton]
        omega
      exact coreInv_respond _ (coreInv_setUbuf hlen hs)
    · exact refused
  case upe =>
    rcases execUpe_next h with ⟨e, -, -, rfl⟩ | ⟨pad, bits, -, hu, rfl⟩ | ⟨-, rfl⟩
    · exact raised _
    · have hlen : bits.length ≤ 8 * (65538 - 1) :=
        (unpackStream_length hu).trans (Nat.mul_le_mul_left 8 (Nat.sub_le_sub_right hs.ubuf 1))
      exact coreInv_respond _ (coreInv_setUbuf (Nat.zero_le _) (coreInv_setEbits hlen hs))
    · exact refused
  case dec =>
    rcases execDec_next h with ⟨out, -, -, rfl⟩ | ⟨b, cand, out, -, -, rfl⟩ | ⟨-, rfl⟩
    · exact coreInv_respond _ (coreInv_setEbits (Nat.zero_le _) (coreInv_setScan _ (coreInv_emitSyms _ hs)))
    · exact raised _
    · exact refused

theorem coreInv_runWord {w : CmdWord} {s t : State} (hs : CoreInv s) (h : runWord w s = .next t) : CoreInv t := by
  rcases runWord_cases h with ⟨i, -, h⟩ | ⟨op, -, ⟨-, rfl⟩ | ⟨-, rfl⟩⟩
  · exact coreInv_exec hs h
  · exact coreInv_raise _ hs
  · exact coreInv_refuseHalted hs

/-- Settles O59: by what a step can do, each operation and each command keeping the invariant. A command is accepted only
outside reset, so a held one leaves the core busy and not in reset. -/
theorem stepKeepsInvariant : Obligations.StepKeepsInvariant := by
  intro s t hs h
  rcases step_cases h with ⟨-, rfl⟩ | ⟨-, rfl, -⟩ | ⟨hready, w, rest, u, hu, ⟨-, rfl⟩ | ⟨k, -, rfl⟩⟩ |
    ⟨rest, -, rfl⟩ | ⟨rest, -, rfl⟩
  · exact coreInv_endReset hs
  · exact coreInv_becomeReady hs
  · exact coreInv_runWord (coreInv_nextEvents rest hs) hu
  · obtain ⟨-, -, -, -, hreset, -⟩ := runWord_ports hu
    exact coreInv_holdBack k (coreInv_runWord (coreInv_nextEvents rest hs) hu) (hreset (cmdReady_iff.1 hready).2)
      (runWord_sinks hu).1
  · exact coreInv_completeTransfers (coreInv_nextEvents rest hs)
  · exact coreInv_resetInput _

/-! ### No step stops -/

/-- The halt gate stops no command that does not stop behind it. -/
theorem haltGate_total {s : State} {k : Out} (h : ∃ t, k = .next t) : ∃ t, haltGate s k = .next t := by
  obtain ⟨t, rfl⟩ := h
  unfold haltGate
  split
  · exact ⟨_, rfl⟩
  · exact ⟨_, rfl⟩

/-- `GEN` completes or raises `NoTree`: the traversal of a tree succeeds (R44(a)). -/
theorem execGen_total {s : State} (h : CoreInv s) : ∃ t, execGen s = .next t := by
  refine haltGate_total ?_
  split
  · exact ⟨_, rfl⟩
  · rename_i htree
    obtain ⟨as, has, -⟩ := assignments_of_coreInv h (by simpa using htree)
    rw [has]
    exact ⟨_, rfl⟩

/-- `GEN` apart, no command stops in any state; `GEN` does not stop from the invariant. -/
theorem exec_total (i : Instr) {s : State} (h : CoreInv s) : ∃ t, exec i s = .next t := by
  cases i
  case nop => exact ⟨_, rfl⟩
  case rst => exact ⟨_, rfl⟩
  case sts => exact ⟨_, rfl⟩
  case fwr a c => exact haltGate_total ⟨_, rfl⟩
  case frd a => exact haltGate_total ⟨_, rfl⟩
  case nrd n => exact haltGate_total ⟨_, rfl⟩
  case trd a => exact haltGate_total ⟨_, rfl⟩
  case pke => exact haltGate_total ⟨_, rfl⟩
  case gen => exact execGen_total h
  case cnt a => exact haltGate_total (by split <;> exact ⟨_, rfl⟩)
  case bld => exact haltGate_total (by split <;> exact ⟨_, rfl⟩)
  case upb b => exact haltGate_total (by split <;> exact ⟨_, rfl⟩)
  case upe => exact haltGate_total (by split <;> exact ⟨_, rfl⟩)
  case dec => exact haltGate_total (by split <;> exact ⟨_, rfl⟩)
  case pks a =>
    refine haltGate_total ?_
    split
    · exact ⟨_, rfl⟩
    · split <;> exact ⟨_, rfl⟩

theorem runWord_total (w : CmdWord) {s : State} (h : CoreInv s) : ∃ t, runWord w s = .next t := by
  unfold runWord
  split
  · exact exec_total _ h
  · exact haltGate_total ⟨_, rfl⟩

/-- Settles O60: along the host's events. Only an accepted command word can stop, and from the invariant none does. -/
theorem stepNeverStops : Obligations.StepNeverStops := by
  intro s hs
  unfold step hostStep
  split
  · exact ⟨_, rfl⟩
  · rename_i w rest _
    split
    · exact runWord_total w (coreInv_nextEvents rest hs)
    · exact ⟨_, rfl⟩
  · rename_i w k rest _
    split
    · obtain ⟨u, hu⟩ := runWord_total w (coreInv_nextEvents rest hs)
      rw [hu]
      exact ⟨_, rfl⟩
    · exact ⟨_, rfl⟩
  · exact ⟨_, rfl⟩
  · exact ⟨_, rfl⟩

end Sys2Proof.Machine
end

section
/-! PROOFS of the family 30_encoding.md: the decoder against the encoder and the bits a command uses, the assembler, the
response word, one answer for each command, and a held command (spec/30_encoding.md R80 to R97, 60_exceptions.md R274). -/

namespace Sys2Proof

/-! ### What the decoder says of a word (R81 to R83, R87) -/

/-- A word cut down to the bits of a mask, field by field (R80). -/
theorem and_cmd48 (w : CmdWord) (op a : BitVec 8) (d : BitVec 32) :
    w &&& cmd48 op a d = cmd48 (CmdWord.op w &&& op) (CmdWord.a w &&& a) (CmdWord.d w &&& d) := by
  rw [← cmd48_and, cmd48_fields]

theorem op_eq_of_toNat {w : CmdWord} {n : Nat} (h : (CmdWord.op w).toNat = n) : CmdWord.op w = BitVec.ofNat 8 n := by
  rw [← h, BitVec.ofNat_toNat, BitVec.setWidth_eq]

/-- The index operand is what a word holds in the low 9 bits of `d` (R81). -/
theorem idx_setWidth (w : CmdWord) : (CmdWord.idx w).setWidth 32 = CmdWord.d w &&& 511#32 := (and_1ff _).symm

/-- A decoded word holds its command's canonical word in the bits the command uses: along the rows of the opcode map
(R82, R83, R97). -/
theorem and_usedBits_of_decode {w : CmdWord} {i : Instr} (h : decode w = .instr i) : w &&& usedBits i = encode i := by
  unfold decode at h
  split at h
  case h_16 => cases h
  all_goals
    rename_i hop
    cases h
    rw [usedBits, and_cmd48, op_eq_of_toNat hop]
    simp [encode, and_ff, and_ffffffff, idx_setWidth, CmdWord.sym, CmdWord.byte, CmdWord.count]

/-- The converse, along the commands: the fields a command uses tell its row and its operands (R81 to R83). -/
theorem decode_of_and_usedBits {w : CmdWord} {i : Instr} (h : w &&& usedBits i = encode i) : decode w = .instr i := by
  cases i <;> rw [usedBits, and_cmd48] at h <;> obtain ⟨hop, ha, hd⟩ := cmd48_inj h
  case nrd n =>
    have hidx : CmdWord.idx w = n := by
      have hd' := congrArg (BitVec.setWidth 9) ((idx_setWidth w).trans hd)
      simpa using hd'
    simp_all [decode, and_ff]
  all_goals simp_all [decode, and_ff, and_ffffffff, CmdWord.sym, CmdWord.byte, CmdWord.count]

/-- What the decoder reads as a command, said once: the command's canonical word stands in the bits it uses. -/
theorem decode_eq_instr_iff {w : CmdWord} {i : Instr} : decode w = .instr i ↔ w &&& usedBits i = encode i :=
  ⟨and_usedBits_of_decode, decode_of_and_usedBits⟩

@[simp] theorem decode_encode (i : Instr) : decode (encode i) = .instr i :=
  decode_eq_instr_iff.2 (Laws.Canonical.every i).2

/-- What the decoder rejects: exactly the words with a reserved `op`, by its value (R87). -/
theorem decode_eq_reserved_iff {w : CmdWord} {op : BitVec 8} :
    decode w = .reserved op ↔ op = CmdWord.op w ∧ CmdWord.op w ∉ Machine.definedOps := by
  unfold decode
  split
  case h_16 => simp_all [Machine.definedOps, ← BitVec.toNat_inj, eq_comm]
  all_goals rename_i hop; simp [op_eq_of_toNat hop, Machine.definedOps]

/-! ### The encoder against the decoder (R97) -/

@[simp] theorem canonicalWord_encode (i : Instr) : canonicalWord (encode i) = true := by
  simp [canonicalWord, (Laws.Canonical.every i).2]

/-- A canonical word has nothing outside the bits its command uses, so it is that command's encoding. -/
theorem eq_encode_of_canonicalWord {w : CmdWord} (h : canonicalWord w = true) : ∃ i, w = encode i := by
  unfold canonicalWord at h
  split at h
  · rename_i i hi
    exact ⟨i, (beq_iff_eq.1 h).symm.trans (decode_eq_instr_iff.1 hi)⟩
  · cases h

/-- Settles O2: a command's word holds itself in the bits the command uses, which is all the decoder looks at. -/
theorem decodeInvertsEncode : Obligations.DecodeInvertsEncode :=
  fun i => ⟨decode_encode i, canonicalWord_encode i⟩

/-- Settles O5: a canonical word is its own command's encoding. -/
theorem canonicalWordsAreEncodings : Obligations.CanonicalWordsAreEncodings := by
  refine fun w => ⟨eq_encode_of_canonicalWord, ?_⟩
  rintro ⟨i, rfl⟩
  exact canonicalWord_encode i

/-- Settles O3: what is read as a command is told by its used bits, on which the words agree, and what is rejected is told
by the `op`. -/
theorem unusedFieldsIgnored : Obligations.UnusedFieldsIgnored := by
  intro w v hop hused
  cases hw : decode w with
  | instr i =>
    have hv : v &&& usedBits i = encode i := (hused i hw).symm.trans (decode_eq_instr_iff.1 hw)
    exact (decode_eq_instr_iff.2 hv).symm
  | reserved op =>
    rw [decode_eq_reserved_iff, hop] at hw
    exact (decode_eq_reserved_iff.2 hw).symm

/-- Settles O1: the decoder evaluated on the words of the test vectors. -/
theorem specWordsDecode : Obligations.SpecWordsDecode := by
  unfold Obligations.SpecWordsDecode
  decide

end Sys2Proof

namespace Sys2Proof.Machine

/-! ### Reserved words (R87, 60_exceptions.md R261) -/

theorem runWord_reserved {w : CmdWord} (h : CmdWord.op w ∉ definedOps) (s : State) :
    runWord w s = haltGate s (.next (raise .illegalCommand s)) := by
  simp [runWord, decode_eq_reserved_iff.2 ⟨rfl, h⟩, execReserved]

/-- Settles O4: by the halt gate. -/
theorem reservedOpsRaiseIllegalCommand : Obligations.ReservedOpsRaiseIllegalCommand := by
  refine fun w hop => ⟨decode_eq_reserved_iff.2 ⟨rfl, hop⟩, fun s => ⟨fun hrun => ?_, fun hhalt => ?_⟩⟩
  · rw [runWord_reserved hop, haltGate_running _ hrun]
    rfl
  · rw [runWord_reserved hop, haltGate_halted _ hhalt]
    rfl

/-! ### The assembler (R95) -/

theorem asmInstr_eq_none_iff (c : AsmCommand) : asmInstr c = none ↔ c.wellFormed = false := by
  unfold asmInstr
  split
  case isTrue h => cases c <;> simp [h]
  case isFalse h => simpa using h

theorem assemble_eq_none_iff (c : AsmCommand) : assemble c = none ↔ c.wellFormed = false := by
  rw [assemble, Option.map_eq_none_iff, asmInstr_eq_none_iff]

theorem assemble_eq_some_iff {c : AsmCommand} {w : CmdWord} :
    assemble c = some w ↔ ∃ i, asmInstr c = some i ∧ encode i = w :=
  Option.map_eq_some_iff

/-- Settles O7: an assembled word is the encoding of the command with the operands' values, which its bounds test let
through. -/
theorem assemblerChecksOperands : Obligations.AssemblerChecksOperands := by
  refine fun c => ⟨assemble_eq_none_iff c, fun w hw => ?_⟩
  obtain ⟨i, hi, rfl⟩ := assemble_eq_some_iff.1 hw
  refine ⟨canonicalWord_encode i, (Laws.Canonical.every i).1, ?_, ?_, ?_, ?_, ?_, ?_, ?_⟩
  all_goals
    intros
    subst_vars
    simp only [asmInstr, AsmCommand.wellFormed, Option.ite_none_right_eq_some, Option.some.injEq, Bool.and_eq_true,
      decide_eq_true_eq] at hi
    obtain ⟨hfits, rfl⟩ := hi
    exact ⟨decode_encode _, by omega⟩

/-! ### The response word (R84) -/

/-- Settles O6: the parts below a field are taken off one by one, and what is left ends in the field. -/
theorem responseWordLayout : Obligations.ResponseWordLayout := by
  intro r
  unfold Response.toWord
  refine ⟨?_, ?_, ?_, ?_, ?_, ?_, ?_⟩ <;> repeat rw [BitVec.extractLsb'_append_eq_of_le (by decide)]
  · exact BitVec.extractLsb'_eq_self
  all_goals exact BitVec.extractLsb'_append_eq_right

/-! ### One answer for each command (R84, R85, 60_exceptions.md R274) -/

/-- Settles O20: a refusal and a raised error answer with a status alone, a reset and a completion with status 0. -/
theorem oneResponsePerCommand : Obligations.OneResponsePerCommand := by
  intro i s t h
  rcases exec_outcome h with ⟨hhalt, -, rfl⟩ | ⟨-, e, he, rfl⟩ | ⟨-, rfl⟩ | ⟨-, -, r, u, hr, rfl, hu⟩
  · exact ⟨_, rfl, fun _ => rfl, .inr (.inl ⟨rfl, hhalt⟩)⟩
  · exact ⟨_, rfl, fun _ => rfl, .inr (.inr ⟨e, he, rfl⟩)⟩
  · exact ⟨_, rfl, fun hst => absurd rfl hst, .inl rfl⟩
  · exact ⟨r, by rw [respond_rsps, hu.rsps], fun hst => absurd hr hst, .inl hr⟩

/-! ### A held command (R93) -/

/-- At a ready core a command word is accepted (46_system.md R230). -/
theorem step_command {s : State} {w : CmdWord} {rest : List HostEvent} (hready : cmdReady s = true)
    (h : s.host = .command w :: rest) : step s = runWord w (nextEvents rest s) := by
  simp [step, hostStep, h, hready]

theorem step_commandHeld {s : State} {w : CmdWord} {k : Nat} {rest : List HostEvent} (hready : cmdReady s = true)
    (h : s.host = .commandHeld w k :: rest) :
    step s = mapNext (holdBack (nextEvents rest s) k) (runWord w (nextEvents rest s)) := by
  simp [step, hostStep, h, hready]

theorem step_ready {s : State} {rest : List HostEvent} (h : s.host = .ready :: rest) :
    step s = .next (completeTransfers (nextEvents rest s)) := by
  simp [step, hostStep, h]

/-- At a core that is not ready a command word waits while the core becomes so (60_exceptions.md R274). -/
theorem step_not_ready {s : State} {w : CmdWord} {rest : List HostEvent} (hready : cmdReady s = false)
    (h : s.host = .command w :: rest ∨ ∃ k, s.host = .commandHeld w k :: rest) : step s = .next (becomeReady s) := by
  rcases h with h | ⟨k, h⟩ <;> simp [step, hostStep, h, hready]

theorem nextEvents_eq_self {s : State} {rest : List HostEvent} (h : s.host = rest) : nextEvents rest s = s := by
  subst h
  rfl

/-- What a command word does is the same whatever events come after it. -/
theorem runWord_other_events {w : CmdWord} {s t : State} {rest : List HostEvent}
    (h : runWord w (nextEvents rest s) = .next t) (more : List HostEvent) :
    runWord w (nextEvents more s) = .next (nextEvents more t) := by
  calc runWord w (nextEvents more s)
      = mapNext (nextEvents more) (runWord w (nextEvents rest s)) := runWord_nextEvents w more (nextEvents rest s)
    _ = .next (nextEvents more t) := by rw [h]; rfl

/-- Completing the transfers of a held command word gives what the word does at once: the elements taken and those that
wait make up what it put out, however many were taken. -/
theorem completeTransfers_holdBack {w : CmdWord} {s t : State} (h : runWord w s = .next t) (hbusy : s.busy = false)
    (hrp : s.rspPort = none) (hbp : s.boPort = []) (hsp : s.soPort = []) (k : Nat) :
    completeTransfers (holdBack s k t) = t := by
  obtain ⟨⟨r, hr⟩, ⟨bs, hb⟩, ⟨ss, hs⟩⟩ := runWord_sinks h
  obtain ⟨hrp', hbp', hsp', hbusy', -, -⟩ := runWord_ports h
  have hbout : s.bout ++ (t.bout.drop s.bout.length).take k ++ (t.bout.drop s.bout.length).drop k = t.bout := by
    rw [List.append_assoc, List.take_append_drop, ← hb, List.drop_left]
  have hsout : s.sout ++ (t.sout.drop s.sout.length).take k ++ (t.sout.drop s.sout.length).drop k = t.sout := by
    rw [List.append_assoc, List.take_append_drop, ← hs, List.drop_left]
  have hrsps : s.rsps ++ (t.rsps.drop s.rsps.length).head?.toList = t.rsps := by
    simp [hr]
  cases t
  obtain rfl := hrp' hrp
  obtain rfl := hbp' hbp
  obtain rfl := hsp' hsp
  obtain rfl := hbusy' hbusy
  simp only [completeTransfers, holdBack, hbout, hsout, hrsps]

/-- Settles O12: both ways to raise every `ready` complete the transfers of the held word, whose run does not depend on the
events after it. -/
theorem heldCommandLosesNothing : Obligations.HeldCommandLosesNothing := by
  intro s w k rest t hbusy hreset hrp hbp hsp h
  have hready : cmdReady s = true := cmdReady_iff.2 ⟨hbusy, hreset⟩
  have hrun : runWord w (nextEvents rest s) = .next t :=
    (step_command (s := nextEvents (.command w :: rest) s) hready rfl).symm.trans h
  have hheld (more : List HostEvent) : step (nextEvents (.commandHeld w k :: more) s) =
      .next (holdBack (nextEvents more s) k (nextEvents more t)) :=
    (step_commandHeld (s := nextEvents (.commandHeld w k :: more) s) hready rfl).trans
      (congrArg _ (runWord_other_events hrun more))
  obtain ⟨-, -, -, -, hreset', hhost⟩ := runWord_ports hrun
  have hself : nextEvents rest t = t := nextEvents_eq_self hhost
  have hdone : completeTransfers (holdBack (nextEvents rest s) k (nextEvents rest t)) = t :=
    hself.symm ▸ completeTransfers_holdBack hrun hbusy hrp hbp hsp k
  refine ⟨⟨_, hheld (.ready :: rest), rfl, (step_ready rfl).trans (congrArg _ hdone)⟩, ?_⟩
  rintro ⟨v, more, hnext⟩
  have hrunning : (holdBack (nextEvents rest s) k (nextEvents rest t)).inReset = false := hreset' hreset
  refine ⟨_, hheld rest, rfl, ?_⟩
  rw [step_not_ready rfl hnext, becomeReady_busy hrunning, hdone]

end Sys2Proof.Machine
end

section
/-! PROOFS of the family 40_frequency_counter.md: what `CNT`, `FWR` and `FRD` do, and that counting a sequence gives each
symbol's number of occurrences (spec/40_frequency_counter.md R110 to R114). -/

namespace Sys2Proof.Machine

/-! ### Counting one symbol (R111, R112) -/

theorem eq_countMax_iff {c : Count} : c = Config.countMax ↔ c.toNat = 2 ^ 32 - 1 := BitVec.toNat_inj.symm

/-- Below the greatest count, counting does not wrap around. -/
theorem toNat_add_one_of_ne {c : Count} (h : c.toNat ≠ 2 ^ 32 - 1) : (c + 1).toNat = c.toNat + 1 := by
  have hlt : c.toNat < 2 ^ 32 := c.isLt
  exact BitVec.toNat_add_of_lt (y := 1) (show c.toNat + 1 < 2 ^ 32 by omega)

/-- A count keeps its value in the response's wider field `d`. -/
theorem toNat_setWidth_count (c : Count) : (c.setWidth 40).toNat = c.toNat :=
  BitVec.toNat_setWidth_of_le (by decide)

theorem count_writeCount_self (ft : Table Count) (a : Sym) (c : Count) : count (writeCount ft a c) a = c := by
  rw [count_writeCount, if_pos rfl]

theorem count_writeCount_of_ne (ft : Table Count) {a b : Sym} (c : Count) (h : b ≠ a) :
    count (writeCount ft a c) b = count ft b := by
  rw [count_writeCount, if_neg h.symm]

/-- Settles O23: the gate is open, the count is below the greatest, and what is written is read back. -/
theorem cntCountsOne : Obligations.CntCountsOne := by
  intro s a hrun hbelow
  have hexec : exec (.cnt a) s =
      .next (respond { d := (count s.ft a + 1).setWidth 40 } (setCount a (count s.ft a + 1) s)) :=
    (haltGate_running _ hrun).trans (if_neg (mt eq_countMax_iff.1 hbelow))
  refine ⟨_, _, hexec, ?_, ?_, fun b hb => count_writeCount_of_ne _ _ hb⟩
  · rw [toNat_setWidth_count, toNat_add_one_of_ne hbelow]
  · rw [setCount_ft, count_writeCount_self, toNat_add_one_of_ne hbelow]

/-- Settles O24: the gate is open and the count is the greatest one. -/
theorem cntOverflowFaults : Obligations.CntOverflowFaults :=
  fun _ _ hrun hmax => (haltGate_running _ hrun).trans (if_pos (eq_countMax_iff.2 hmax))

/-! ### Writing and reading a count (R113, R114) -/

/-- Settles O25: what is written is read back, 0 included, and no other count is touched. -/
theorem fwrSetsCount : Obligations.FwrSetsCount := by
  refine ⟨fun w hop => by rw [decode, hop]; rfl, fun s a c hrun => ?_⟩
  exact ⟨_, haltGate_running _ hrun, count_writeCount_self _ _ _, fun b hb => count_writeCount_of_ne _ _ hb⟩

theorem validFlag_present (c : Count) : validFlag (present c) = if 0 < c.toNat then 1 else 0 := by
  by_cases hc : c = 0
  · subst hc
    rfl
  · have hpos : 0 < c.toNat := Nat.pos_of_ne_zero (mt (BitVec.toNat_inj (y := 0)).1 hc)
    rw [if_pos hpos, present, bne_iff_ne.2 hc]
    rfl

/-- Settles O26: the answer's flag tells whether the count is present, and its field `d` holds every count. -/
theorem frdReadsCount : Obligations.FrdReadsCount := by
  refine ⟨fun w hop => by rw [decode, hop]; rfl, fun s a hrun => ?_⟩
  exact ⟨_, _, haltGate_running _ hrun, toNat_setWidth_count _, validFlag_present _⟩

/-! ### Counting a sequence (R110) -/

/-- Counting a sequence adds its occurrences to any table whose counts have room for them. -/
theorem runInstrs_cnt (S : List Sym) : ∀ s : State, s.err = 0 → (∀ a, (count s.ft a).toNat + S.count a < 2 ^ 32) →
    ∃ t, runInstrs (S.map .cnt) s = .next t ∧ (∀ a, (count t.ft a).toNat = (count s.ft a).toNat + S.count a) ∧
      t = { s with ft := t.ft, rsps := t.rsps } ∧ t.rsps.length = s.rsps.length + S.length := by
  induction S with
  | nil => exact fun s _ _ => ⟨s, rfl, fun _ => rfl, rfl, rfl⟩
  | cons x S ih =>
    intro s hrun hroom
    have hbelow : (count s.ft x).toNat ≠ 2 ^ 32 - 1 := by
      have := hroom x
      rw [List.count_cons_self] at this
      omega
    obtain ⟨ft, d, hexec, -, hself, hother⟩ := cntCountsOne s x hrun hbelow
    have hone (a : Sym) : (count ft a).toNat + S.count a = (count s.ft a).toNat + (x :: S).count a := by
      by_cases hax : a = x
      · subst hax
        rw [hself, List.count_cons_self]
        omega
      · rw [hother a hax, List.count_cons_of_ne (Ne.symm hax)]
    obtain ⟨t, hrest, hcounts, hframe, hlen⟩ :=
      ih { s with ft := ft, rsps := s.rsps ++ [{ d := d }] } hrun fun a => (hone a).symm ▸ hroom a
    refine ⟨t, ?_, fun a => (hcounts a).trans (hone a), hframe, ?_⟩
    · rw [List.map_cons, runInstrs, hexec]
      exact hrest
    · rw [hlen, List.length_append, List.length_singleton, List.length_cons]
      omega

/-- Settles O27: from a table of zeros, the counts are what was added. -/
theorem countingGivesOccurrences : Obligations.CountingGivesOccurrences := by
  intro S s hrun hzero hfits
  have hnone (a : Sym) : (count s.ft a).toNat + S.count a = S.count a := by
    simp [hzero a]
  obtain ⟨t, hruns, hcounts, hframe, hlen⟩ := runInstrs_cnt S s hrun fun a => (hnone a).symm ▸ hfits a
  exact ⟨t, hruns, fun a => (hcounts a).trans (hnone a), hframe, hlen⟩

end Sys2Proof.Machine
end

section
/-! PROOFS of the family 41_tree_builder.md: `BLD` leaves one tree over the present symbols, the merge engine's state
machine does what `BLD` does, and what `NRD` answers (spec/41_tree_builder.md R131 to R141). -/

namespace Sys2Proof.Machine

/-! ### The outcome of `BLD` (R131, R132) -/

/-- The state a build leaves: the engine's tables stored, and `ROOT` with its frequency as the answer (R131). -/
def answerTree (e : Engine) (s : State) : State :=
  respond { x := BitVec.ofNat 9 (rootOf e), d := freqAt e.node (rootOf e) }
    (storeTree e.node e.inq e.nxt (BitVec.ofNat 9 (rootOf e)) s)

theorem exec_bld_of_noSymbol {s : State} (hrun : s.err = 0) (h : noSymbol s.ft = true) :
    exec .bld s = .next (raise .emptyAlphabet s) :=
  (haltGate_running _ hrun).trans (if_pos h)

theorem exec_bld_of_symbol {s : State} (hrun : s.err = 0) (h : noSymbol s.ft = false) :
    exec .bld s = .next (answerTree (build s.ft) s) :=
  (haltGate_running _ hrun).trans (if_neg (by simp [h]))

theorem noSymbol_eq_false_iff {ft : Table Count} (h : ftWf ft) : noSymbol ft = false ↔ ∃ a, count ft a ≠ 0 := by
  rw [← Bool.not_eq_true, noSymbol_iff h, not_forall]

/-- Settles O28: the gate is open and no symbol is present. -/
theorem bldEmptyAlphabetFaults : Obligations.BldEmptyAlphabetFaults :=
  fun _ hft hrun hnone => exec_bld_of_noSymbol hrun ((noSymbol_iff hft).2 hnone)

/-- Settles O31: canonical tables with equal counts are equal, and a build depends on nothing else. -/
theorem bldIsAFunctionOfCounts : Obligations.BldIsAFunctionOfCounts := by
  intro s₁ s₂ t₁ t₂ hft₁ hft₂ hcounts hrun₁ hrun₂ hsome h₁ h₂
  have heq : s₁.ft = s₂.ft := ft_ext hft₁ hft₂ hcounts
  have hsym : noSymbol s₁.ft = false := (noSymbol_eq_false_iff hft₁).2 hsome
  obtain rfl : answerTree (build s₁.ft) s₁ = t₁ := by simpa [exec_bld_of_symbol hrun₁ hsym] using h₁
  obtain rfl : answerTree (build s₂.ft) s₂ = t₂ := by simpa [exec_bld_of_symbol hrun₂ (heq ▸ hsym)] using h₂
  simp [answerTree, heq]

/-! ### Reading a node (R139, R68) -/

theorem nodeAt_of_lt {node : Table Node} {i : Idx} (h : i.toNat < 511) : nodeAt node i = node.get? i.toNat :=
  if_neg (Nat.not_le.2 h)

theorem nodeAt_of_eq_511 {node : Table Node} {i : Idx} (h : i.toNat = 511) : nodeAt node i = none :=
  if_pos h.ge

/-- Every symbol names its leaf's slot (10_state.md R24). -/
theorem nodeAt_setWidth_sym (node : Table Node) (a : Sym) : nodeAt node (a.setWidth 9) = node.get? a.toNat := by
  have ha : (a.setWidth 9).toNat = a.toNat := BitVec.toNat_setWidth_of_le (by decide)
  rw [nodeAt_of_lt (by omega), ha]

/-- Settles O32: the answer is the response to what the index names. -/
theorem nrdReadsSlot : Obligations.NrdReadsSlot := by
  refine ⟨fun w hop => ?_, fun s i hrun => ⟨nodeResponse (nodeAt s.node i), haltGate_running _ hrun, ?_, ?_, ?_, ?_⟩⟩
  · rw [decode, hop, ← BitVec.setWidth_eq_extractLsb' (by decide)]
    rfl
  · intro h
    rw [nodeAt_of_eq_511 h, nodeResponse]
  · intro h hget
    rw [nodeAt_of_lt h, hget, nodeResponse]
  · intro f a h hget
    rw [nodeAt_of_lt h, hget, nodeResponse]
  · intro f l r h hget
    rw [nodeAt_of_lt h, hget, nodeResponse]

/-! ### A merge (R134) -/

/-- A fresh slot joins the queue, and every other slot is queued as before (10_state.md R25). -/
theorem mem_enqueue {i j : Nat} {q : List Nat} (h : i ∉ q) : j ∈ enqueue i q ↔ j = i ∨ j ∈ q :=
  (enqueue_perm h).mem_iff.trans List.mem_cons

/-- Settles O30: the two pops take the lowest keys, and the push writes and queues the fresh slot `NXT`. -/
theorem mergeTakesTheTwoLowest : Obligations.MergeTakesTheTwoLowest := by
  intro e hnodup hlen hbelow hroom
  obtain ⟨p, q, rest, hperm, hpq, hkey, hrest, hmerge⟩ := merge_pops hnodup hlen
  have hmem {j : Nat} : j ∈ e.inq ↔ j = p ∨ j = q ∨ j ∈ rest := by simp [hperm.mem_iff]
  have hq {j : Nat} (hj : j ∈ e.inq) (hjp : j ≠ p) (hjq : j ≠ q) : keyLt e.node q j = true :=
    hrest j (((hmem.1 hj).resolve_left hjp).resolve_left hjq)
  have hp {j : Nat} (hj : j ∈ e.inq) (hjp : j ≠ p) : keyLt e.node p j = true := by
    rcases eq_or_ne j q with rfl | hjq
    · exact hkey
    · exact keyLt_trans hkey (hq hj hjp hjq)
  have hleft {j : Nat} : j ∈ (e.inq.erase p).erase q ↔ j ∈ e.inq ∧ j ≠ p ∧ j ≠ q := by
    rw [(hnodup.erase p).mem_erase_iff, hnodup.mem_erase_iff]
    tauto
  have hfresh : e.nxt.toNat ∉ (e.inq.erase p).erase q :=
    fun h => (hbelow _ (hleft.1 h).1).false
  refine ⟨p, q, hmem.2 (.inl rfl), hmem.2 (.inr (.inl rfl)), hpq, fun j hj hjp => keyLt_iff.1 (hp hj hjp),
    fun j hj hjp hjq => keyLt_iff.1 (hq hj hjp hjq), fun i => ?_, fun i => ?_, ?_⟩
  · simp only [hmerge, push, Table.get?_insert, eq_comm]
  · rw [hmerge, push, mem_enqueue hfresh, hleft]
  · rw [hmerge, push, BitVec.toNat_add_of_lt (y := 1) (show e.nxt.toNat + 1 < 2 ^ 10 by omega)]
    rfl

/-! ### The tree of a build (R131, R133, R135, R141) -/

/-- No symbol is listed in an empty table, so a build with a symbol ends with one tree. -/
theorem build_forest_of_count {ft : Table Count} (h : ftWf ft) (hsome : ∃ a, count ft a ≠ 0) :
    ∃ t, Forest ft (build ft) [t] := by
  refine build_forest h ?_
  rintro rfl
  obtain ⟨a, ha⟩ := hsome
  exact ha rfl

section
variable {ft : Table Count} {e : Engine} {t : Shape}

/-- The leaves are the present symbols with their counts (R133). -/
theorem Forest.nodeAt_symbol {F : List Shape} (h : Forest ft e F) (hft : ftWf ft) (a : Sym) :
    nodeAt e.node (a.setWidth 9) = if count ft a = 0 then none else some (.leaf ((count ft a).setWidth 40) a) := by
  rw [nodeAt_setWidth_sym, h.leafNode _ a.isLt, get?_eq_count hft, BitVec.ofNat_toNat, BitVec.setWidth_eq]
  by_cases hc : count ft a = 0
  · rw [if_pos hc, if_neg (fun h => h.2 hc), Option.map_none]
  · rw [if_neg hc, if_pos ⟨a.isLt, hc⟩, Option.map_some]

/-- The root's frequency is the sum of all counts (R136). -/
theorem Forest.freqAt_root (h : Forest ft e [t]) (hft : ftWf ft) :
    (freqAt e.node t.slot).toNat = ((List.range 256).map (fun k => (count ft (BitVec.ofNat 8 k)).toNat)).sum := by
  calc (freqAt e.node t.slot).toNat = total ft := by simpa [topSum] using h.sum
    _ = _ := (range_sum_count hft (fun _ c => c.toNat) (fun _ => rfl)).symm

theorem Forest.root_used (h : Forest ft e [t]) : (e.node.get? t.slot).isSome = true :=
  (h.used _).2 (by simpa using t.slot_mem)

/-- With one symbol present the root is its leaf: no slot from 256 on is used (R135). -/
theorem Forest.root_of_one (h : Forest ft e [t]) (hft : ftWf ft) (hone : ft.length = 1) :
    ∃ a : Sym, BitVec.ofNat 9 t.slot = a.setWidth 9 ∧ count ft a ≠ 0 := by
  have hnxt := h.nxt
  rw [List.length_singleton] at hnxt
  have hslot : t.slot < 256 := by
    by_contra hge
    have := (h.filled _ (Nat.not_lt.1 hge)).1 h.root_used
    omega
  refine ⟨BitVec.ofNat 8 t.slot, ?_, fun hzero => ?_⟩
  · rw [BitVec.setWidth_ofNat_of_le_of_lt (by decide) hslot]
  · have hused := h.root_used
    simp [h.leafNode _ hslot, get?_eq_count hft, hzero] at hused

/-- With more symbols the root is the slot filled last (R135). -/
theorem Forest.root_of_two (h : Forest ft e [t]) (htwo : 2 ≤ ft.length) : t.slot + 2 = 256 + ft.length := by
  have hnxt := h.nxt
  rw [List.length_singleton] at hnxt
  have hlast : e.nxt.toNat - 1 ∈ t.slots := by
    have := (h.used (e.nxt.toNat - 1)).1 ((h.filled _ (by omega)).2 (by omega))
    simpa using this
  have hge : e.nxt.toNat - 1 ≤ t.slot := t.slot_max (h.inNode t (by simp)) _ hlast
  have hlt : t.slot < e.nxt.toNat := (h.filled _ (by omega)).1 h.root_used
  omega

end

/-- Settles O29: the forest that every merge keeps is one tree at the end, and what it says of the queue, `NXT`, the leaves
and the frequency sum is what is asked of the root. -/
theorem bldBuildsTree : Obligations.BldBuildsTree := by
  intro s hft hrun hsome
  obtain ⟨t, hforest⟩ := build_forest_of_count hft hsome
  obtain ⟨hslot, hroot, hinq, htree⟩ := hforest.treeOk
  have htoNat : (BitVec.ofNat 9 t.slot).toNat = t.slot := by
    rw [BitVec.toNat_ofNat, Nat.mod_eq_of_lt (by omega)]
  have hnxt := hforest.nxt
  rw [List.length_singleton] at hnxt
  rw [range_filter_count hft, List.length_map]
  refine ⟨(build s.ft).node, (build s.ft).nxt, BitVec.ofNat 9 t.slot, freqAt (build s.ft).node t.slot, ?_, htree,
    hforest.wf, hforest.nodeAt_symbol hft, by rw [htoNat], hforest.freqAt_root hft, hnxt, hforest.root_of_one hft, ?_⟩
  · rw [exec_bld_of_symbol hrun ((noSymbol_eq_false_iff hft).2 hsome), answerTree, hroot, hinq, htoNat]
    rfl
  · rw [htoNat]
    exact hforest.root_of_two

/-! ### The merge loop (R131, R134) -/

theorem pop_of_length_pos {e : Engine} (h : 0 < e.inq.length) :
    ∃ p ∈ e.inq, pop e = some (p, { e with inq := e.inq.erase p }) := by
  cases hp : lowest e.node e.inq with
  | none =>
    rw [lowest_eq_none] at hp
    simp [hp] at h
  | some p => exact ⟨p, (lowest_spec hp).1, by simp only [pop, hp]⟩

/-- Two queued slots let both pops of a merge succeed. -/
theorem merge_eq_push {e : Engine} (h : 1 < e.inq.length) :
    ∃ p e₁ q e₂, pop e = some (p, e₁) ∧ pop e₁ = some (q, e₂) ∧ merge e = push p q e₂ ∧
      e₂.inq.length + 2 = e.inq.length := by
  obtain ⟨p, hp, hpop⟩ := pop_of_length_pos (e := e) (by omega)
  have hlen := List.length_erase_of_mem hp
  obtain ⟨q, hq, hpop'⟩ := pop_of_length_pos (e := { e with inq := e.inq.erase p })
    (show 0 < (e.inq.erase p).length by omega)
  have hlen' : ((e.inq.erase p).erase q).length = (e.inq.erase p).length - 1 := List.length_erase_of_mem hq
  exact ⟨p, _, q, _, hpop, hpop', by simp only [merge, hpop, hpop'],
    show ((e.inq.erase p).erase q).length + 2 = _ by omega⟩

theorem length_enqueue_le (i : Nat) (q : List Nat) : (enqueue i q).length ≤ q.length + 1 := by
  induction q with
  | nil => exact le_rfl
  | cons j q ih =>
    rw [enqueue]
    split
    · exact le_rfl
    · split
      · exact Nat.le_succ _
      · exact Nat.succ_le_succ ih

/-- A merge makes the queue shorter (R135). -/
theorem length_merge_lt {e : Engine} (h : 1 < e.inq.length) : (merge e).inq.length < e.inq.length := by
  obtain ⟨p, e₁, q, e₂, -, -, hmerge, hlen⟩ := merge_eq_push h
  have hle : (merge e).inq.length ≤ e₂.inq.length + 1 := by
    rw [hmerge]
    exact length_enqueue_le _ _
  omega

theorem mergeAll_of_length_le_one {e : Engine} (k : Nat) (h : e.inq.length ≤ 1) : mergeAll k e = e := by
  cases k with
  | zero => rfl
  | succ k => rw [mergeAll, if_neg (by omega)]

theorem mergeAll_succ_of_one_lt {e : Engine} (k : Nat) (h : 1 < e.inq.length) :
    mergeAll (k + 1) e = mergeAll k (merge e) := by
  rw [mergeAll, if_pos h]

/-- More fuel than one merge for each queued slot but one changes nothing. -/
theorem mergeAll_fuel {n m : Nat} {e : Engine} (hn : e.inq.length ≤ n + 1) (hm : e.inq.length ≤ m + 1) :
    mergeAll n e = mergeAll m e := by
  induction n generalizing m e with
  | zero => rw [mergeAll_of_length_le_one _ hn, mergeAll_of_length_le_one _ hn]
  | succ n ih =>
    rcases Nat.lt_or_ge 1 e.inq.length with h | h
    · obtain ⟨m, rfl⟩ : ∃ k, m = k + 1 := ⟨m - 1, by omega⟩
      have := length_merge_lt h
      rw [mergeAll_succ_of_one_lt _ h, mergeAll_succ_of_one_lt _ h]
      exact ih (by omega) (by omega)
    · rw [mergeAll_of_length_le_one _ h, mergeAll_of_length_le_one _ h]

/-! ### The merge engine's state machine (R137) -/

@[simp] theorem engineOf_putEngine (e : Engine) (s : State) : engineOf (putEngine e s) = e := rfl

@[simp] theorem putEngine_putEngine (e e' : Engine) (s : State) : putEngine e (putEngine e' s) = putEngine e s := rfl

@[simp] theorem answerTree_putEngine (e e' : Engine) (s : State) : answerTree e (putEngine e' s) = answerTree e s := rfl

/-- A micro-step that does not end the run leaves the rest of it. -/
theorem runBld_succ_of_ne {k : Nat} {b b' : BldState} {s t : State} (h : bldMicro b s = (b', t)) (hne : b' ≠ .idle) :
    runBld (k + 1) b s = runBld k b' t := by
  rw [runBld, h]
  cases b' with
  | idle => exact absurd rfl hne
  | _ => rfl

theorem runBld_succ_of_idle {k : Nat} {b : BldState} {s t : State} (h : bldMicro b s = (.idle, t)) :
    runBld (k + 1) b s = some t := by
  rw [runBld, h]

/-- One round of the loop is one merge: a test, two pops and a push. -/
theorem runBld_merge (k : Nat) {s : State} (h : 1 < s.inq.length) :
    runBld (k + 4) .test s = runBld k .test (putEngine (merge (engineOf s)) s) := by
  obtain ⟨p, e₁, q, e₂, hpop, hpop', hmerge, -⟩ := merge_eq_push (e := engineOf s) h
  have htest : bldMicro .test s = (.pop1, s) := if_pos h
  have hpop1 : bldMicro .pop1 s = (.pop2 p, putEngine e₁ s) := by simp only [bldMicro, hpop]
  have hpop2 : bldMicro (.pop2 p) (putEngine e₁ s) = (.push p q, putEngine e₂ s) := by
    simp only [bldMicro, engineOf_putEngine, hpop', putEngine_putEngine]
  have hpush : bldMicro (.push p q) (putEngine e₂ s) = (.test, putEngine (merge (engineOf s)) s) := by
    rw [hmerge]
    rfl
  rw [runBld_succ_of_ne htest (by simp), runBld_succ_of_ne hpop1 (by simp), runBld_succ_of_ne hpop2 (by simp),
    runBld_succ_of_ne hpush (by simp)]

/-- With at most one slot queued the loop ends, and the engine answers. -/
theorem runBld_done (k : Nat) {s : State} (h : s.inq.length ≤ 1) :
    runBld (k + 2) .test s = some (answerTree (engineOf s) s) := by
  have htest : bldMicro .test s = (.done, s) := if_neg (by omega)
  rw [runBld_succ_of_ne htest (by simp), runBld_succ_of_idle rfl]
  rfl

/-- The loop does all the merges, four micro-steps for each. -/
theorem runBld_mergeAll {n : Nat} {s : State} (h : s.inq.length ≤ n + 1) :
    runBld (4 * n + 2) .test s = some (answerTree (mergeAll n (engineOf s)) s) := by
  induction n generalizing s with
  | zero => exact runBld_done 0 h
  | succ n ih =>
    rcases Nat.lt_or_ge 1 s.inq.length with hmore | hdone
    · have hlen : (merge (engineOf s)).inq.length < s.inq.length := length_merge_lt hmore
      calc runBld (4 * n + 2 + 4) .test s
          = runBld (4 * n + 2) .test (putEngine (merge (engineOf s)) s) := runBld_merge _ hmore
        _ = some (answerTree (mergeAll n (merge (engineOf s))) s) :=
          ih (show (merge (engineOf s)).inq.length ≤ n + 1 by omega)
        _ = some (answerTree (mergeAll (n + 1) (engineOf s)) s) := by rw [mergeAll_succ_of_one_lt _ hmore]
    · rw [mergeAll_of_length_le_one (e := engineOf s) _ hdone]
      exact runBld_done (4 * n + 4) hdone

/-- With no symbol present the engine fails at once (R132). -/
theorem runBld_of_noSymbol (k : Nat) {s : State} (h : noSymbol s.ft = true) :
    runBld (k + 2) .idle s = some (raise .emptyAlphabet s) := by
  have hidle : bldMicro .idle s = (.fail, s) := if_pos h
  rw [runBld_succ_of_ne hidle (by simp), runBld_succ_of_idle rfl]

theorem length_seed_inq_le {ft : Table Count} (h : ftWf ft) : (seed ft).inq.length ≤ 256 := by
  rw [(seed_forest h).queued.length_eq, List.length_map, List.length_map]
  exact ftWf_length h

/-- Seeding, at most 255 merges and the answer take 1024 micro-steps at most (R305). -/
theorem runBld_of_symbol {s : State} (hft : ftWf s.ft) (h : noSymbol s.ft = false) :
    runBld 1024 .idle s = some (answerTree (build s.ft) s) := by
  have hlen : (seed s.ft).inq.length ≤ 255 + 1 := length_seed_inq_le hft
  have hidle : bldMicro .idle s = (.seed, s) := if_neg (by simp [h])
  have hbuild : mergeAll 255 (seed s.ft) = build s.ft := mergeAll_fuel hlen (Nat.le_succ _)
  calc runBld (4 * 255 + 2 + 2) .idle s
      = runBld (4 * 255 + 2) .test (putEngine (seed s.ft) s) := by
        rw [runBld_succ_of_ne hidle (by simp), runBld_succ_of_ne rfl (by simp)]
    _ = some (answerTree (mergeAll 255 (seed s.ft)) s) := runBld_mergeAll hlen
    _ = some (answerTree (build s.ft) s) := by rw [hbuild]

/-- Settles O33: with no symbol both raise; else the engine's rounds are the merges of the build. -/
theorem mergeEngineRefinesBld : Obligations.MergeEngineRefinesBld := by
  intro s hft hrun
  cases h : noSymbol s.ft with
  | true => exact ⟨_, exec_bld_of_noSymbol hrun h, runBld_of_noSymbol 1022 h⟩
  | false => exact ⟨_, exec_bld_of_symbol hrun h, runBld_of_symbol hft h⟩

end Sys2Proof.Machine
end

section
/-! PROOFS of the family 42_code_table_generator.md: `GEN` leaves a complete code over the leaves of the tree, none
beginning another, of least total length; the generator's state machine does what `GEN` does; what `TRD` answers
(spec/42_code_table_generator.md R151 to R160). -/

namespace Sys2Proof.Machine

/-! ### The outcome of `GEN` (R151) -/

/-- The state a generation leaves: both tables written from the assignments, and their number as the answer (R151). -/
def answerTables (as : List (Sym × Bits)) (s : State) : State :=
  respond { d := BitVec.ofNat 40 (tablesOf as).ct.length } (storeTables (tablesOf as).ct (tablesOf as).ict s)

@[simp] theorem answerTables_ct (as : List (Sym × Bits)) (s : State) : (answerTables as s).ct = (tablesOf as).ct := rfl

@[simp] theorem answerTables_ict (as : List (Sym × Bits)) (s : State) : (answerTables as s).ict = (tablesOf as).ict := rfl

theorem exec_gen_of_assignments {s : State} {as : List (Sym × Bits)} (hrun : s.err = 0) (htree : s.treeV = true)
    (h : assignments s.node s.root = some as) : exec .gen s = .next (answerTables as s) := by
  refine (haltGate_running _ hrun).trans ((if_neg (by simp [htree])).trans ?_)
  rw [h]
  rfl

/-- The converse: on a built tree `GEN` answers nothing but the tables of the assignments. -/
theorem assignments_of_exec_gen {s t : State} (hrun : s.err = 0) (htree : s.treeV = true)
    (h : exec .gen s = .next t) : ∃ as, assignments s.node s.root = some as ∧ t = answerTables as s := by
  rcases execGen_next h with ⟨-, hnone, -⟩ | ⟨-, -, as, has, rfl⟩ | ⟨hhalt, -⟩
  · simp [htree] at hnone
  · exact ⟨as, has, rfl⟩
  · exact absurd hrun hhalt

theorem assignments_of_leaf {node : Table Node} {root : Idx} {f : Freq} {a : Sym}
    (h : nodeAt node root = some (.leaf f a)) : assignments node root = some [(a, [false])] := by
  rw [assignments, h]

/-- The assignments of a root that is no leaf are those of its walk (R152). -/
theorem assignments_of_not_leaf {node : Table Node} {root : Idx} (h : ∀ f a, nodeAt node root ≠ some (.leaf f a)) :
    assignments node root = walk node 256 root [] := by
  unfold assignments
  split
  · exact absurd ‹_› (h _ _)
  · rfl

/-! ### The leaves of a tree (10_state.md R24) -/

/-- The leaves of a tree are its slots below 256. -/
theorem Shape.mem_leaves_iff {node : Table Node} {t : Shape} (h : t.In node) {i : Nat} :
    i ∈ t.leaves ↔ i ∈ t.slots ∧ i < 256 := by
  refine ⟨fun hi => ⟨t.leaves_sublist.subset hi, t.leaves_lt h i hi⟩, fun hi => ?_⟩
  induction t with
  | leaf a => exact hi.1
  | branch j l r ihl ihr =>
    obtain ⟨hj, -, -, -, -, hl, hr⟩ := h
    obtain ⟨hi, hlt⟩ := hi
    rw [Shape.slots, List.mem_cons, List.mem_append] at hi
    rw [Shape.leaves, List.mem_append]
    rcases hi with rfl | hi | hi
    · omega
    · exact .inl (ihl hl ⟨hi, hlt⟩)
    · exact .inr (ihr hr ⟨hi, hlt⟩)

theorem Shape.node_of_mem_leaves {node : Table Node} {t : Shape} (h : t.In node) {i : Nat} (hi : i ∈ t.leaves) :
    ∃ f, node.get? i = some (.leaf f (BitVec.ofNat 8 i)) := by
  induction t with
  | leaf a =>
    obtain rfl := List.mem_singleton.1 hi
    exact h.2
  | branch j l r ihl ihr =>
    obtain ⟨-, -, -, -, -, hl, hr⟩ := h
    rcases List.mem_append.1 hi with hi | hi
    · exact ihl hl hi
    · exact ihr hr hi

/-- When the tree fills the node store, the symbols with a leaf are those whose slot holds one. -/
theorem Shape.mem_leaves_iff_node {node : Table Node} {t : Shape} (h : t.In node)
    (hused : ∀ i, (node.get? i).isSome ↔ i ∈ t.slots) (a : Sym) :
    a.toNat ∈ t.leaves ↔ ∃ f, node.get? a.toNat = some (.leaf f a) := by
  constructor
  · intro ha
    simpa using Shape.node_of_mem_leaves h ha
  · rintro ⟨f, hf⟩
    exact (Shape.mem_leaves_iff h).2 ⟨(hused _).1 (by simp [hf]), a.isLt⟩

/-- Symbols counted over the alphabet are counted in any list of them without repeats. -/
theorem length_filter_range {l : List Nat} {p : Nat → Bool} (hn : l.Nodup) (h : ∀ k, k ∈ l ↔ k < 256 ∧ p k = true) :
    ((List.range 256).filter p).length = l.length :=
  ((List.perm_ext_iff_of_nodup (List.nodup_range.filter _) hn).2 fun k => by
    rw [List.mem_filter, List.mem_range, h]).length_eq

/-! ### The codes of a tree (R152, R157) -/

/-- Which symbols the tables of assignments code. -/
theorem isSome_codeOf_tablesOf {as : List (Sym × Bits)} (h : GoodCodes as) (a : Sym) :
    (codeOf (tablesOf as).ct a).isSome ↔ a ∈ as.map Prod.fst := by
  simp [Option.isSome_iff_exists, codeOf_tablesOf h]

/-- The assignments of a tree, by its shape: the one-leaf tree gets `"0"`, else each leaf the path to it (R152, R153). -/
def Shape.assigned : Shape → List (Sym × Bits)
  | .leaf a => [(BitVec.ofNat 8 a, [false])]
  | .branch i l r => (Shape.branch i l r).codes []

theorem Shape.assigned_fst (t : Shape) : t.assigned.map Prod.fst = t.leaves.map (BitVec.ofNat 8) := by
  cases t with
  | leaf a => rfl
  | branch i l r => exact Shape.codes_fst _ _

theorem Shape.assigned_length (t : Shape) : t.assigned.length = t.leaves.length := by
  simpa using congrArg List.length t.assigned_fst

/-- The generator on a tree, by its shape: it assigns `assigned`, which are good codes (R152, R153, R157). -/
theorem Shape.assignments_eq {node : Table Node} {root : Idx} {t : Shape} (h : t.In node) (hs : t.slot = root.toNat)
    (hn : t.slots.Nodup) : assignments node root = some t.assigned ∧ GoodCodes t.assigned := by
  obtain ⟨as, has, hgood, -⟩ := assignments_tree h hs hn
  suffices heq : assignments node root = some t.assigned by
    obtain rfl := Option.some.inj (has.symm.trans heq)
    exact ⟨heq, hgood⟩
  cases t with
  | leaf a =>
    obtain ⟨ha, f, hf⟩ := h
    have hroot : nodeAt node root = some (.leaf f (BitVec.ofNat 8 a)) := by
      rw [nodeAt_of_lt (by rw [← hs, Shape.slot_leaf]; omega), ← hs, Shape.slot_leaf, hf]
    exact assignments_of_leaf hroot
  | branch i l r => exact assignments_branch h hs hn

theorem mem_map_ofNat8_iff {l : List Nat} (hl : ∀ k ∈ l, k < 256) (a : Sym) :
    a ∈ l.map (BitVec.ofNat 8) ↔ a.toNat ∈ l := by
  constructor
  · intro ha
    obtain ⟨k, hk, rfl⟩ := List.mem_map.1 ha
    rwa [BitVec.toNat_ofNat, Nat.mod_eq_of_lt (hl k hk)]
  · exact fun ha => List.mem_map.2 ⟨_, ha, by simp⟩

/-- Settles O35: the walk gives good codes for exactly the leaves, and the tables are written from these. -/
theorem genWritesTables : Obligations.GenWritesTables := by
  intro s hrun htree ⟨t, hin, hslot, hnodup, hused⟩
  obtain ⟨has, hgood⟩ := Shape.assignments_eq hin hslot hnodup
  have hcoded (a : Sym) : (codeOf (tablesOf t.assigned).ct a).isSome ↔ a.toNat ∈ t.leaves := by
    rw [isSome_codeOf_tablesOf hgood, Shape.assigned_fst, mem_map_ofNat8_iff (t.leaves_lt hin)]
  refine ⟨(tablesOf t.assigned).ct, (tablesOf t.assigned).ict, BitVec.ofNat 40 (tablesOf t.assigned).ct.length,
    exec_gen_of_assignments hrun htree has, ctWf_tablesOf _, codesBounded_tablesOf hgood, prefixFree_tablesOf hgood,
    exactInverse_tablesOf hgood, fun a => (hcoded a).trans (Shape.mem_leaves_iff_node hin hused a), ?_⟩
  have hleaves := t.assigned_length
  have hle := hgood.length_le
  rw [length_filter_range (hnodup.sublist t.leaves_sublist), ← hleaves, ct_length_tablesOf hgood, BitVec.toNat_ofNat,
    Nat.mod_eq_of_lt (by omega)]
  intro k
  have hlt := t.leaves_lt hin k
  rw [hcoded, BitVec.toNat_ofNat]
  exact ⟨fun hk => ⟨hlt hk, by rwa [Nat.mod_eq_of_lt (hlt hk)]⟩, fun ⟨h, hk⟩ => by rwa [Nat.mod_eq_of_lt h] at hk⟩

/-- The one-leaf code is good (R153). -/
theorem goodCodes_one (a : Sym) : GoodCodes [(a, [false])] := ⟨by simp, by simp, by simp, by simp⟩

/-- Settles O36: the tables are those of the one assignment. -/
theorem oneLeafTreeGetsCodeZero : Obligations.OneLeafTreeGetsCodeZero := by
  intro s f a hrun htree hroot
  have hgood := goodCodes_one a
  have hcode (b : Sym) (c : Bits) : codeOf (tablesOf [(a, [false])]).ct b = some c ↔ b = a ∧ c = [false] := by
    rw [codeOf_tablesOf hgood, List.mem_singleton, Prod.mk.injEq]
  refine ⟨_, exec_gen_of_assignments hrun htree (assignments_of_leaf hroot), (hcode a _).2 ⟨rfl, rfl⟩, fun b hb => ?_,
    fun c b => ((exactInverse_tablesOf hgood b c).trans (hcode b c)).trans and_comm⟩
  exact Option.eq_none_iff_forall_ne_some.2 fun c hc => hb ((hcode b c).1 hc).1

/-- On a tree with an internal root `GEN` writes the codes of the leaves (R152). -/
theorem codes_of_exec_gen {s t : State} {f : Freq} {l r : Idx} (hrun : s.err = 0) (htree : s.treeV = true)
    (hok : TreeOk s.node s.root) (hroot : nodeAt s.node s.root = some (.internal f l r)) (h : exec .gen s = .next t) :
    ∃ u : Shape, u.In s.node ∧ BitVec.ofNat 9 u.slot = s.root ∧ GoodCodes (u.codes []) ∧
      t = answerTables (u.codes []) s := by
  obtain ⟨u, hin, hslot, hnodup, -⟩ := hok
  obtain ⟨as, has, rfl⟩ := assignments_of_exec_gen hrun htree h
  obtain ⟨has', hgood⟩ := Shape.assignments_eq hin hslot hnodup
  obtain rfl := Option.some.inj (has.symm.trans has')
  have hofNat : BitVec.ofNat 9 u.slot = s.root := by rw [hslot, BitVec.ofNat_toNat, BitVec.setWidth_eq]
  cases u with
  | leaf i =>
    obtain ⟨hi, g, hg⟩ := hin
    rw [← hofNat, Shape.slot_leaf, nodeAt_ofNat (by omega), hg] at hroot
    cases hroot
  | branch i l' r' => exact ⟨_, hin, hofNat, hgood, rfl⟩

/-- Settles O37: a code is what the tree's codes say, and these lead from the root to their leaves. -/
theorem codesSpellPaths : Obligations.CodesSpellPaths := by
  intro s t f l r hrun htree hok hroot h a c hc
  obtain ⟨u, hin, hofNat, hgood, rfl⟩ := codes_of_exec_gen hrun htree hok hroot h
  obtain ⟨p, hp, hfollow⟩ := Shape.codes_follow hin [] _ ((codeOf_tablesOf hgood a c).1 hc)
  obtain rfl : c = p := hp
  rwa [hofNat] at hfollow

/-- A beginning of a bit sequence begins every longer one. -/
theorem prefix_range_map {bits : Nat → Bool} {c : Bits} (hc : c = (List.range c.length).map bits) {n : Nat}
    (h : c.length ≤ n) : c <+: (List.range n).map bits := by
  rwa [List.prefix_iff_eq_take, ← List.map_take, List.take_range, min_eq_left h]

/-- Settles O38: the codes of a tree cover every bit sequence, and two that begin the same one are the same. -/
theorem codeIsComplete : Obligations.CodeIsComplete := by
  intro s t f l r hrun htree hok hroot h bits
  obtain ⟨u, hin, -, hgood, rfl⟩ := codes_of_exec_gen hrun htree hok hroot h
  obtain ⟨⟨a, c⟩, hmem, hc⟩ := u.codes_cover bits [] rfl
  refine ⟨a, ⟨c, (codeOf_tablesOf hgood a c).2 hmem, hc⟩, ?_⟩
  rintro b ⟨d, hcode, hd⟩
  have hmem' := (codeOf_tablesOf hgood b d).1 hcode
  rcases List.prefix_or_prefix_of_prefix (prefix_range_map hc (le_max_left _ d.length))
    (prefix_range_map hd (le_max_right c.length _)) with hp | hp
  · exact (congrArg Prod.fst (hgood.eq_of_prefix hmem hmem' hp)).symm
  · exact congrArg Prod.fst (hgood.eq_of_prefix hmem' hmem hp)

/-! ### Reading a code (R155) -/

/-- Settles O42: the answer is the response to what the symbol names. -/
theorem trdReadsCode : Obligations.TrdReadsCode := by
  refine ⟨fun w hop => ?_, fun s a hrun hbound => ⟨codeResponse (codeOf s.ct a), haltGate_running _ hrun, ?_, ?_⟩⟩
  · rw [decode, hop]
    rfl
  · intro h
    rw [h, codeResponse]
  · intro c hc
    have hlen : c.length ≤ 255 := (hbound a c hc).2
    rw [hc]
    exact ⟨rfl, by rw [codeResponse, BitVec.toNat_ofNat, Nat.mod_eq_of_lt (by omega)], codeField_getMsbD hlen⟩

/-! ### From counts to code tables (R159) -/

/-- `BLD` and then `GEN`, from a table with a symbol: one tree, and the tables of its assignments (R151, R157). -/
theorem runInstrs_bld_gen {s : State} (hft : ftWf s.ft) (hrun : s.err = 0) (hsome : ∃ a, count s.ft a ≠ 0) :
    ∃ t, Forest s.ft (build s.ft) [t] ∧
      assignments (build s.ft).node (BitVec.ofNat 9 (rootOf (build s.ft))) = some t.assigned ∧ GoodCodes t.assigned ∧
      runInstrs [.bld, .gen] s = .next (answerTables t.assigned (answerTree (build s.ft) s)) := by
  obtain ⟨t, hforest⟩ := build_forest_of_count hft hsome
  obtain ⟨hlt, hroot, -, -⟩ := hforest.treeOk
  have hslot : t.slot = (BitVec.ofNat 9 (rootOf (build s.ft))).toNat := by
    rw [hroot, BitVec.toNat_ofNat, Nat.mod_eq_of_lt (by omega)]
  obtain ⟨has, hgood⟩ := Shape.assignments_eq (hforest.inNode t (by simp)) hslot (by simpa using hforest.nodup)
  have hbld := exec_bld_of_symbol hrun ((noSymbol_eq_false_iff hft).2 hsome)
  have hgen : exec .gen (answerTree (build s.ft) s) = .next (answerTables t.assigned (answerTree (build s.ft) s)) :=
    exec_gen_of_assignments hrun rfl has
  exact ⟨t, hforest, has, hgood, by simp only [runInstrs, hbld, hgen]⟩

/-- Settles O39: canonical tables with equal counts are equal, and so are the builds and the assignments. -/
theorem tablesAreAFunctionOfCounts : Obligations.TablesAreAFunctionOfCounts := by
  intro s₁ s₂ t₁ t₂ hft₁ hft₂ hcounts hrun₁ hrun₂ hsome h₁ h₂
  have heq : s₁.ft = s₂.ft := ft_ext hft₁ hft₂ hcounts
  obtain ⟨u₁, -, has₁, -, hr₁⟩ := runInstrs_bld_gen hft₁ hrun₁ hsome
  obtain ⟨u₂, -, has₂, -, hr₂⟩ := runInstrs_bld_gen hft₂ hrun₂ (heq ▸ hsome)
  have has : u₁.assigned = u₂.assigned := by
    rw [heq] at has₁
    exact Option.some.inj (has₁.symm.trans has₂)
  cases hr₁.symm.trans h₁
  cases hr₂.symm.trans h₂
  simp [has]

/-! ### The total length of a code (R158) -/

/-- The total of count times code length over the listed symbols. -/
def totalLength (ft : Table Count) (len : Sym → Nat) : Nat :=
  (ft.map (fun e => e.2.toNat * len (BitVec.ofNat 8 e.1))).sum

/-- Symbols that are not present add nothing to the total over the alphabet. -/
theorem range_sum_totalLength {ft : Table Count} (h : ftWf ft) (len : Sym → Nat) :
    ((List.range 256).map (fun k => (count ft (BitVec.ofNat 8 k)).toNat * len (BitVec.ofNat 8 k))).sum =
      totalLength ft len :=
  range_sum_count h (fun k c => c.toNat * len (BitVec.ofNat 8 k)) (fun _ => by simp)

/-- The length of a symbol's code, 0 without one. -/
def codeLen (ct : Table Bits) (a : Sym) : Nat := ((codeOf ct a).getD []).length

/-- What a symbol's leaf adds to the total: its frequency times the length of its code. -/
def leafCost (node : Table Node) (ct : Table Bits) (a : Sym) : Nat := (freqAt node a.toNat).toNat * codeLen ct a

theorem codeLen_tablesOf {as : List (Sym × Bits)} (h : GoodCodes as) {e : Sym × Bits} (he : e ∈ as) :
    codeLen (tablesOf as).ct e.1 = e.2.length := by
  rw [codeLen, (codeOf_tablesOf h e.1 e.2).2 he, Option.getD_some]

/-- What is listed is present, with its count (10_state.md R23). -/
theorem count_of_mem {ft : Table Count} (h : ftWf ft) {e : Nat × Count} (he : e ∈ ft) :
    e.1 < 256 ∧ count ft (BitVec.ofNat 8 e.1) = e.2 ∧ e.2 ≠ 0 := by
  obtain ⟨hrising, hall⟩ := Table.wf_iff.1 h
  obtain ⟨hlt, hne⟩ := hall e he
  have hget : ft.get? e.1 = some e.2 := Table.get?_of_mem hrising he
  refine ⟨hlt, ?_, by simpa using hne⟩
  rw [count, BitVec.toNat_ofNat, Nat.mod_eq_of_lt hlt, hget, Option.getD_some]

section
variable {ft : Table Count} {e : Engine} {t : Shape}

/-- The frequency of a symbol's leaf is its count (41_tree_builder.md R133). -/
theorem Forest.freqAt_listed {F : List Shape} (h : Forest ft e F) (hft : ftWf ft) {x : Nat × Count} (hx : x ∈ ft) :
    (freqAt e.node x.1).toNat = x.2.toNat := by
  obtain ⟨hlt, -, -⟩ := count_of_mem hft hx
  rw [freqAt, h.leafNode _ hlt, Table.get?_of_mem (Table.wf_iff.1 hft).1 hx]
  exact toNat_setWidth_count x.2

/-- The assignments of a whole build's tree are for the listed symbols. -/
theorem Forest.assigned_fst_perm (h : Forest ft e [t]) :
    (t.assigned.map Prod.fst).Perm (ft.map (fun x => BitVec.ofNat 8 x.1)) := by
  have hleaves : t.leaves.Perm (ft.map Prod.fst) := by simpa using h.leaves
  rw [Shape.assigned_fst]
  simpa [Function.comp_def] using hleaves.map (BitVec.ofNat 8)

/-- The internal nodes of a whole build's tree are the slots in use from 256 on, the others adding nothing. -/
theorem Forest.internals_sum (h : Forest ft e [t]) :
    (t.internals.map (fun i => (freqAt e.node i).toNat)).sum = internalsTo 255 e.node := by
  have hin := h.inNode t (by simp)
  have hmem (i : Nat) : i ∈ t.internals ↔ (e.node.get? i).isSome ∧ 256 ≤ i := by
    rw [Shape.internals_eq hin, List.mem_filter, h.used, decide_eq_true_iff]
    simp
  have hnodup : t.internals.Nodup := by
    rw [Shape.internals_eq hin]
    exact List.Nodup.filter _ (by simpa using h.nodup)
  have hsub : t.internals.toFinset ⊆ Finset.Ico 256 511 := by
    intro i hi
    obtain ⟨hused, hge⟩ := (hmem i).1 (List.mem_toFinset.1 hi)
    have hle := t.slot_max hin i (by simpa using (h.used i).1 hused)
    exact Finset.mem_Ico.2 ⟨hge, hle.trans_lt (t.slot_lt hin)⟩
  calc (t.internals.map (fun i => (freqAt e.node i).toNat)).sum
      = ∑ i ∈ t.internals.toFinset, (freqAt e.node i).toNat := (List.sum_toFinset _ hnodup).symm
    _ = ∑ i ∈ Finset.Ico 256 511, (freqAt e.node i).toNat := Finset.sum_subset hsub fun i hi hnot => by
        have hnone : e.node.get? i = none := by
          rw [List.mem_toFinset, hmem] at hnot
          simpa [(Finset.mem_Ico.1 hi).1] using hnot
        simp [freqAt, hnone]
    _ = ∑ j ∈ Finset.range 255, (freqAt e.node (256 + j)).toNat := Finset.sum_Ico_eq_sum_range _ _ _
    _ = internalsTo 255 e.node := rfl

/-- The total length over the listed symbols is the one over the assignments, leaf by leaf. -/
theorem Forest.totalLength_eq (h : Forest ft e [t]) (hft : ftWf ft) (hgood : GoodCodes t.assigned) :
    totalLength ft (codeLen (tablesOf t.assigned).ct) =
      (t.assigned.map (fun x => (freqAt e.node x.1.toNat).toNat * x.2.length)).sum := by
  have hfreq {x : Nat × Count} (hx : x ∈ ft) : (freqAt e.node (BitVec.ofNat 8 x.1).toNat).toNat = x.2.toNat := by
    rw [BitVec.toNat_ofNat, Nat.mod_eq_of_lt (count_of_mem hft hx).1, h.freqAt_listed hft hx]
  calc totalLength ft (codeLen (tablesOf t.assigned).ct)
      = ((ft.map (fun x => BitVec.ofNat 8 x.1)).map (leafCost e.node (tablesOf t.assigned).ct)).sum := by
        rw [totalLength, List.map_map]
        exact congrArg _ (List.map_congr_left fun x hx => by simp only [Function.comp, leafCost, hfreq hx])
    _ = ((t.assigned.map Prod.fst).map (leafCost e.node (tablesOf t.assigned).ct)).sum :=
        (h.assigned_fst_perm.map _).sum_eq.symm
    _ = (t.assigned.map (fun x => (freqAt e.node x.1.toNat).toNat * x.2.length)).sum := by
        rw [List.map_map]
        exact congrArg _ (List.map_congr_left fun x hx => by
          simp only [Function.comp, leafCost, codeLen_tablesOf hgood hx])

/-- With an internal root, the total length is the sum of the internal frequencies (R158). -/
theorem Forest.totalLength_branch {i : Nat} {l r : Shape} (h : Forest ft e [.branch i l r]) (hft : ftWf ft)
    (hgood : GoodCodes (Shape.branch i l r).assigned) :
    totalLength ft (codeLen (tablesOf (Shape.branch i l r).assigned).ct) = internalsTo 255 e.node := by
  have hweight := Shape.codes_weight (h.inNode (.branch i l r) (by simp)) []
  rw [List.length_nil, Nat.zero_mul, Nat.add_zero, h.internals_sum] at hweight
  exact (h.totalLength_eq hft hgood).trans hweight

/-- A whole build's tree that is one leaf is over one listed symbol. -/
theorem Forest.eq_singleton_of_leaf {i : Nat} (h : Forest ft e [.leaf i]) : ∃ c, ft = [(i, c)] := by
  have hkeys : ft.map Prod.fst = [i] := List.perm_singleton.1 (by simpa [Shape.leaves] using h.leaves.symm)
  obtain ⟨⟨k, c⟩, rfl, rfl⟩ := List.map_eq_singleton_iff.1 hkeys
  exact ⟨c, rfl⟩

/-- A whole build's tree that has an internal root is over two listed symbols or more. -/
theorem Forest.two_le_of_branch {i : Nat} {l r : Shape} (h : Forest ft e [.branch i l r]) : 2 ≤ ft.length := by
  have hlen := h.leaves.length_eq
  have hl := l.depth_lt_leaves
  have hr := r.depth_lt_leaves
  simp [Shape.leaves] at hlen
  omega

/-- On a one-leaf tree the total length is the count, the code having one bit (R153, R158). -/
theorem totalLength_leaf (i : Nat) (c : Count) :
    totalLength [(i, c)] (codeLen (tablesOf (Shape.leaf i).assigned).ct) = c.toNat := by
  have hlen : codeLen (tablesOf (Shape.leaf i).assigned).ct (BitVec.ofNat 8 i) = 1 :=
    codeLen_tablesOf (goodCodes_one (BitVec.ofNat 8 i)) (List.mem_singleton.2 rfl)
  simp [totalLength, hlen]

end

/-- With one symbol present at most one is listed. -/
theorem length_le_one_of_one {ft : Table Count} (h : ftWf ft) {a : Sym} (hone : ∀ b, count ft b ≠ 0 → b = a) :
    ft.length ≤ 1 := by
  have hsub : ft.map Prod.fst ⊆ [a.toNat] := by
    intro k hk
    obtain ⟨x, hx, rfl⟩ := List.mem_map.1 hk
    obtain ⟨hlt, hcount, hne⟩ := count_of_mem h hx
    obtain rfl := hone _ (hcount ▸ hne)
    simp [Nat.mod_eq_of_lt hlt]
  simpa using (List.Nodup.subperm (Table.keys_nodup (Table.wf_iff.1 h).1) hsub).length_le

/-- Settles O40: along the root of the tree, a leaf when one symbol is present and else an internal node. -/
theorem totalLengthIsInternalSum : Obligations.TotalLengthIsInternalSum := by
  intro s hft hrun hsome
  obtain ⟨t, hforest, -, hgood, hrun'⟩ := runInstrs_bld_gen hft hrun hsome
  have hsum := range_sum_totalLength hft (codeLen (tablesOf t.assigned).ct)
  refine ⟨_, hrun', fun htwo => hsum.trans ?_, fun a hone => hsum.trans ?_⟩
  · rw [range_filter_count hft, List.length_map] at htwo
    cases t with
    | leaf i =>
      obtain ⟨c, hc⟩ := hforest.eq_singleton_of_leaf
      simp [hc] at htwo
    | branch i l r => exact hforest.totalLength_branch hft hgood
  · cases t with
    | leaf i =>
      obtain ⟨c, hc⟩ := hforest.eq_singleton_of_leaf
      obtain ⟨-, hcount, hne⟩ := count_of_mem hft (show (i, c) ∈ s.ft by simp [hc])
      obtain rfl := (hone _).1 (hcount ▸ hne)
      rw [hcount, hc, totalLength_leaf]
    | branch i l r =>
      have htwo := hforest.two_le_of_branch
      have hle := length_le_one_of_one hft fun b => (hone b).1
      omega

/-! ### No other code is shorter in total (R158) -/

/-- Huffman's theorem for codes of weighted things, none beginning another: such codes meet Kraft's inequality. -/
theorem cost_le_of_prefixFree {α : Type} {l : List α} {w : α → Nat} {code : α → Bits} {c : Nat}
    (hcost : Huffman.Cost (l.map w : List Nat) c)
    (hfree : l.Pairwise (fun x y => ¬ code x <+: code y ∧ ¬ code y <+: code x)) :
    c ≤ (l.map (fun x => w x * (code x).length)).sum := by
  have hmax : ∀ d ∈ l.map code, d.length ≤ (l.map (fun x => (code x).length)).sum := by
    intro d hd
    obtain ⟨x, hx, rfl⟩ := List.mem_map.1 hd
    exact List.le_sum_of_mem (List.mem_map.2 ⟨x, hx, rfl⟩)
  have hkraft := Huffman.kraft_le _ (l.map code) hmax (List.pairwise_map.2 hfree)
  have key := hcost.le_weigh _ (l.map (fun x => (w x, (code x).length)) : List (Nat × Nat)) (by simp [Function.comp_def])
    (by simpa using hmax) (by simpa [Huffman.kraft, Function.comp_def] using hkraft)
  simpa [Huffman.weigh, Function.comp_def] using key

/-- When no present symbol's code begins another's, no listed code begins another, earlier or later in the list. -/
theorem pairwise_listed_codes {ft : Table Count} (h : ftWf ft) {code : Sym → Bits}
    (hfree : ∀ a b, count ft a ≠ 0 → count ft b ≠ 0 → a ≠ b → ¬ code a <+: code b) :
    ft.Pairwise (fun x y => ¬ code (BitVec.ofNat 8 x.1) <+: code (BitVec.ofNat 8 y.1) ∧
      ¬ code (BitVec.ofNat 8 y.1) <+: code (BitVec.ofNat 8 x.1)) := by
  have hkeys : ft.Pairwise (fun x y => x.1 ≠ y.1) := List.pairwise_map.1 (Table.keys_nodup (Table.wf_iff.1 h).1)
  refine hkeys.imp_of_mem fun {x y} hx hy hxy => ?_
  obtain ⟨hltx, hcx, hnx⟩ := count_of_mem h hx
  obtain ⟨hlty, hcy, hny⟩ := count_of_mem h hy
  have hne : BitVec.ofNat 8 x.1 ≠ BitVec.ofNat 8 y.1 := fun heq => hxy (ofNat8_inj hltx hlty heq)
  have hpx : count ft (BitVec.ofNat 8 x.1) ≠ 0 := hcx ▸ hnx
  have hpy : count ft (BitVec.ofNat 8 y.1) ≠ 0 := hcy ▸ hny
  exact ⟨hfree _ _ hpx hpy hne, hfree _ _ hpy hpx hne.symm⟩

/-- Settles O41: along the root of the tree. The total of a one-leaf tree is the one count, which a code of length at least
1 does not go below; else the total is what merging the two lowest counts costs, and Huffman's theorem applies. -/
theorem codesAreOptimal : Obligations.CodesAreOptimal := by
  intro s hft hrun hsome
  obtain ⟨t, hforest, -, hgood, hrun'⟩ := runInstrs_bld_gen hft hrun hsome
  refine ⟨_, hrun', fun code hpos hfree => ?_⟩
  have hgen := range_sum_totalLength hft (codeLen (tablesOf t.assigned).ct)
  have hcode := range_sum_totalLength hft (fun a => (code a).length)
  refine hgen.trans_le (le_of_le_of_eq ?_ hcode.symm)
  cases t with
  | leaf i =>
    obtain ⟨c, hc⟩ := hforest.eq_singleton_of_leaf
    obtain ⟨-, hcount, hne⟩ := count_of_mem hft (show (i, c) ∈ s.ft by simp [hc])
    have hlen := hpos _ (hcount ▸ hne)
    rw [hc, totalLength_leaf]
    simpa [totalLength] using Nat.le_mul_of_pos_right c.toNat hlen
  | branch i l r =>
    have hlisted : s.ft ≠ [] := List.ne_nil_of_length_pos (by have := hforest.two_le_of_branch; omega)
    rw [hforest.totalLength_branch hft hgood]
    exact cost_le_of_prefixFree (build_cost hft hlisted) (pairwise_listed_codes hft hfree)

/-! ### The generator's state machine (R160) -/

/-- A micro-step that does not end the run leaves the rest of it. -/
theorem runGen_succ_of_ne {k : Nat} {g : GenState} {s : State} {after : GenState × State} (h : genMicro g s = after)
    (hne : after.1 ≠ .idle) : runGen (k + 1) g s = runGen k after.1 after.2 := by
  obtain ⟨g', t⟩ := after
  rw [runGen, h]
  cases g' with
  | idle => exact absurd rfl hne
  | _ => rfl

theorem runGen_succ_of_idle {k : Nat} {g : GenState} {s t : State} (h : genMicro g s = (.idle, t)) :
    runGen (k + 1) g s = some t := by
  rw [runGen, h]

/-- The generator's state in mid-traversal: its scratch registers and tables, the rest of the state as it was. -/
def midWalk (stk : List (Idx × Phase)) (path : Bits) (t : CodeTables) (s : State) : State :=
  { s with stk := stk, path := path, ct := t.ct, ict := t.ict }

section
variable {s : State} {n : Idx} {rest : List (Idx × Phase)} {path : Bits} {t : CodeTables}

theorem popStack_ne_idle : (popStack rest s).1 ≠ .idle := by
  cases rest <;> simp [popStack]

/-- A pop does not look at the stack it replaces. -/
theorem popStack_midWalk (stk : List (Idx × Phase)) :
    popStack rest (midWalk stk path t s) = popStack rest (midWalk [] path t s) := by
  cases rest <;> rfl

/-- A pop back to a parent takes the last edge off the path. -/
theorem popStack_child (top : Idx × Phase) (b : Bool) :
    popStack (top :: rest) (midWalk [] (path ++ [b]) t s) = (.step, midWalk (top :: rest) path t s) := by
  simp [popStack, midWalk]

/-- At a leaf the path so far is assigned and the stack popped. -/
theorem genMicro_leaf {f : Freq} {a : Sym} (h : nodeAt s.node n = some (.leaf f a)) :
    genMicro .step (midWalk ((n, .L) :: rest) path t s) = popStack rest (midWalk [] path (assign t (a, path)) s) := by
  rw [← popStack_midWalk ((n, .L) :: rest)]
  simp only [genMicro, genStep, midWalk, h]
  rfl

section
variable {f : Freq} {l r : Idx} (h : nodeAt s.node n = some (.internal f l r))
include h

/-- A stack with room takes the left child first. -/
theorem genMicro_left (hroom : rest.length < 255) :
    genMicro .step (midWalk ((n, .L) :: rest) path t s) =
      (.step, midWalk ((l, .L) :: (n, .R) :: rest) (path ++ [false]) t s) := by
  simp only [genMicro, genStep, midWalk, h]
  exact if_neg (Nat.not_lt.2 hroom)

/-- A stack with room takes the right child second. -/
theorem genMicro_right (hroom : rest.length < 255) :
    genMicro .step (midWalk ((n, .R) :: rest) path t s) =
      (.step, midWalk ((r, .L) :: (n, .UP) :: rest) (path ++ [true]) t s) := by
  simp only [genMicro, genStep, midWalk, h]
  exact if_neg (Nat.not_lt.2 hroom)

/-- After both children the stack is popped. -/
theorem genMicro_up :
    genMicro .step (midWalk ((n, .UP) :: rest) path t s) = popStack rest (midWalk [] path t s) := by
  rw [← popStack_midWalk ((n, .UP) :: rest)]
  simp only [genMicro, genStep, midWalk, h]

end

end

/-- What a walk that succeeds has met: a leaf, or an internal node and both its subtrees (R152). -/
theorem walk_succ_cases {node : Table Node} {k : Nat} {n : Idx} {path : Bits} {as : List (Sym × Bits)}
    (h : walk node (k + 1) n path = some as) :
    (∃ f a, nodeAt node n = some (.leaf f a) ∧ as = [(a, path)]) ∨
    (∃ f l r x y, nodeAt node n = some (.internal f l r) ∧ walk node k l (path ++ [false]) = some x ∧
      walk node k r (path ++ [true]) = some y ∧ as = x ++ y) := by
  unfold walk at h
  split at h
  · cases h
  · cases h
    exact .inl ⟨_, _, by assumption, rfl⟩
  · split at h
    · cases h
    · split at h
      · cases h
      · cases h
        exact .inr ⟨_, _, _, _, _, by assumption, by assumption, by assumption, rfl⟩

theorem pos_of_walk {node : Table Node} {k : Nat} {n : Idx} {path : Bits} {as : List (Sym × Bits)}
    (h : walk node k n path = some as) : 0 < k := by
  cases k with
  | zero => cases h
  | succ k => exact k.succ_pos

/-- The machine walks the tree below the top of the stack as `walk` does, one micro-step at a leaf and three at an internal
node, and then pops the top. -/
theorem runGen_walk {s : State} {k : Nat} {n : Idx} {rest : List (Idx × Phase)} {path : Bits} {as : List (Sym × Bits)}
    (h : walk s.node k n path = some as) (hroom : rest.length + k ≤ 256) (t : CodeTables) :
    ∃ j, as.length = j + 1 ∧ ∀ m, runGen (m + (4 * j + 1)) .step (midWalk ((n, .L) :: rest) path t s) =
      runGen m (popStack rest (midWalk [] path (as.foldl assign t) s)).1
        (popStack rest (midWalk [] path (as.foldl assign t) s)).2 := by
  induction k generalizing n rest path as t with
  | zero => cases h
  | succ k ih =>
    rcases walk_succ_cases h with ⟨f, a, hleaf, rfl⟩ | ⟨f, l, r, x, y, hnode, hx, hy, rfl⟩
    · exact ⟨0, rfl, fun m => runGen_succ_of_ne (genMicro_leaf hleaf) popStack_ne_idle⟩
    · have hk := pos_of_walk hx
      have hfree : rest.length < 255 := by omega
      obtain ⟨i, hi, hleft⟩ := ih (rest := (n, .R) :: rest) hx (by simp; omega) t
      obtain ⟨j, hj, hright⟩ := ih (rest := (n, .UP) :: rest) hy (by simp; omega) (x.foldl assign t)
      refine ⟨i + j + 1, by rw [List.length_append]; omega, fun m => ?_⟩
      rw [show m + (4 * (i + j + 1) + 1) = m + 1 + (4 * j + 1) + 1 + (4 * i + 1) + 1 by ring,
        runGen_succ_of_ne (genMicro_left hnode hfree) (by simp), hleft, popStack_child,
        runGen_succ_of_ne (genMicro_right hnode hfree) (by simp), hright, popStack_child,
        runGen_succ_of_ne (genMicro_up hnode) popStack_ne_idle, List.foldl_append]

/-- Without a tree the generator fails at once (60_exceptions.md R260). -/
theorem runGen_of_noTree (m : Nat) {s : State} (h : s.treeV = false) :
    runGen (m + 2) .idle s = some (raise .noTree s) := by
  have hidle : genMicro .idle s = (.fail, s) := if_neg (by simp [h])
  rw [runGen_succ_of_ne hidle (by simp), runGen_succ_of_idle rfl]

theorem rootLeaf_of_leaf {s : State} {f : Freq} {a : Sym} (h : nodeAt s.node s.root = some (.leaf f a)) :
    rootLeaf s = some a := by
  rw [rootLeaf, h]

theorem rootLeaf_of_not_leaf {s : State} (h : ∀ f a, nodeAt s.node s.root ≠ some (.leaf f a)) : rootLeaf s = none := by
  unfold rootLeaf
  split
  · exact absurd ‹_› (h _ _)
  · rfl

/-- The generator ends in the state `GEN` leaves, after at most four micro-steps for each code. -/
theorem runGen_of_assignments {s : State} {as : List (Sym × Bits)} (htree : s.treeV = true)
    (h : assignments s.node s.root = some as) (m : Nat) :
    runGen (m + 4 * as.length) .idle s = some (answerTables as s) := by
  have hidle : genMicro .idle s = (.clear, s) := if_pos htree
  by_cases hleaf : ∃ f a, nodeAt s.node s.root = some (.leaf f a)
  · obtain ⟨f, a, hleaf⟩ := hleaf
    obtain rfl := Option.some.inj ((assignments_of_leaf hleaf).symm.trans h)
    have hclear : genMicro .clear s = (.one, midWalk [] [] clearTables s) := by
      rw [genMicro, rootLeaf_of_leaf hleaf]
      rfl
    have hone : genMicro .one (midWalk [] [] clearTables s) =
        (.done, midWalk [] [] (assign clearTables (a, [false])) s) := by
      rw [genMicro, rootLeaf_of_leaf (s := midWalk [] [] clearTables s) hleaf]
      rfl
    calc runGen (m + 4) .idle s
        = runGen (m + 1) .done (midWalk [] [] (tablesOf [(a, [false])]) s) := by
          rw [runGen_succ_of_ne hidle (by simp), runGen_succ_of_ne hclear (by simp), runGen_succ_of_ne hone (by simp)]
          rfl
      _ = some (answerTables [(a, [false])] s) := runGen_succ_of_idle rfl
  · have hinner : ∀ f a, nodeAt s.node s.root ≠ some (.leaf f a) := fun f a hfa => hleaf ⟨f, a, hfa⟩
    have hclear : genMicro .clear s = (.step, midWalk [(s.root, .L)] [] clearTables s) := by
      rw [genMicro, rootLeaf_of_not_leaf hinner]
      rfl
    rw [assignments_of_not_leaf hinner] at h
    obtain ⟨j, hj, hwalk⟩ := runGen_walk (rest := []) h (by simp) clearTables
    calc runGen (m + 4 * as.length) .idle s
        = runGen (m + 1 + (4 * j + 1)) .step (midWalk [(s.root, .L)] [] clearTables s) := by
          rw [hj, show m + 4 * (j + 1) = m + 1 + (4 * j + 1) + 1 + 1 by ring, runGen_succ_of_ne hidle (by simp),
            runGen_succ_of_ne hclear (by simp)]
      _ = runGen (m + 1) .done (midWalk [] [] (tablesOf as) s) := hwalk (m + 1)
      _ = some (answerTables as s) := runGen_succ_of_idle rfl

/-- Settles O43: without a tree both raise; else the machine walks the tree as `GEN` does, in four micro-steps for each of
the `L` codes, and `4 * L` is at most the bound. -/
theorem traversalRefinesGen : Obligations.TraversalRefinesGen := by
  refine ⟨fun s t hrun h => ?_, fun s hrun htree ⟨t, hin, hslot, hnodup, hused⟩ => ?_⟩
  · cases htree : s.treeV with
    | false =>
      rcases execGen_next h with ⟨-, -, rfl⟩ | ⟨-, hbuilt, -⟩ | ⟨hhalt, -⟩
      · exact ⟨2, runGen_of_noTree 0 htree⟩
      · simp [htree] at hbuilt
      · exact absurd hrun hhalt
    | true =>
      obtain ⟨as, has, rfl⟩ := assignments_of_exec_gen hrun htree h
      exact ⟨_, runGen_of_assignments htree has 0⟩
  · obtain ⟨has, hgood⟩ := Shape.assignments_eq hin hslot hnodup
    have hleaves : ((List.range 256).filter (fun k => (s.node.get? k).isSome)).length = t.assigned.length := by
      rw [t.assigned_length]
      refine length_filter_range (hnodup.sublist t.leaves_sublist) fun k => ?_
      rw [Shape.mem_leaves_iff hin, ← hused, and_comm]
    have hpos := List.length_pos_iff.2 hgood.ne
    refine ⟨_, exec_gen_of_assignments hrun htree has, ?_⟩
    rw [hleaves, show 3 * (2 * t.assigned.length - 1) + 3 = 2 * t.assigned.length + 4 * t.assigned.length by omega]
    exact runGen_of_assignments htree has _

end Sys2Proof.Machine
end

section
/-! PROOFS of the family 43_bit_packer.md: `PKS` appends a code or raises, `PKE` emits header, payload and pad as one
frame, and how many bytes that is (spec/43_bit_packer.md R170 to R177). -/

namespace Sys2Proof.Machine

/-! ### Packing one symbol (R171, R172) -/

theorem overPbuf_eq_decide {p : Config.Params} {cap : Nat} (h : p.pbufBits = some cap) (n : Nat) :
    overPbuf p n = decide (cap < n) := by
  rw [overPbuf, h]

/-- An infinite capacity is never passed (R172). -/
theorem overPbuf_of_infinite {p : Config.Params} (h : p.pbufBits = none) (n : Nat) : overPbuf p n = false := by
  rw [overPbuf, h]

section
variable {p : Config.Params} {a : Sym} {c : Bits} {s : State} (hrun : s.err = 0)
include hrun

theorem packSymbol_of_noCode (h : codeOf s.ct a = none) : packSymbol p a s = .next (raise .missingCode s) := by
  refine (haltGate_running _ hrun).trans ?_
  rw [h]

theorem packSymbol_of_over (h : codeOf s.ct a = some c) (hover : overPbuf p (s.pbuf.length + c.length) = true) :
    packSymbol p a s = .next (raise .bufferOverflow s) := by
  refine (haltGate_running _ hrun).trans ?_
  rw [h]
  exact if_pos hover

theorem packSymbol_of_fits (h : codeOf s.ct a = some c) (hfits : overPbuf p (s.pbuf.length + c.length) = false) :
    packSymbol p a s =
      .next (respond { d := BitVec.ofNat 40 (s.pbuf ++ c).length } (setPbuf (s.pbuf ++ c) s)) := by
  refine (haltGate_running _ hrun).trans ?_
  rw [h]
  exact if_neg (by simp [hfits])

end

/-- Settles O44: a code that fits this hardware's buffer is appended, and the answer's 40 bits hold the new length. -/
theorem pksAppendsCode : Obligations.PksAppendsCode := by
  intro s a c hrun hcode hle
  have hfits : overPbuf Config.thisHardware (s.pbuf.length + c.length) = false := by
    rw [overPbuf_eq_decide rfl]
    exact decide_eq_false (Nat.not_lt.2 hle)
  refine ⟨_, packSymbol_of_fits hrun hcode hfits, ?_⟩
  rw [BitVec.toNat_ofNat, List.length_append, Nat.mod_eq_of_lt (by omega)]

/-- Settles O45: the three cases of the code and the capacity, and `PKS` is the packer at this hardware's capacity. -/
theorem pksFaults : Obligations.PksFaults := by
  intro p s a hrun
  refine ⟨packSymbol_of_noCode hrun, fun c cap hcode hcap hover => ?_, fun c hcode hinf => ?_, rfl⟩
  · exact packSymbol_of_over hrun hcode ((overPbuf_eq_decide hcap _).trans (decide_eq_true hover))
  · exact ⟨_, packSymbol_of_fits hrun hcode (overPbuf_of_infinite hinf _), hrun, rfl⟩

/-! ### The stream of a payload (R173 to R177) -/

/-- The bytes of a stream hold exactly its header, payload and pad (R173, R175). -/
theorem bytesBits_packStream (m : Config.PadMode) (P : Bits) : bytesBits (packStream m P) = streamBits m P :=
  bytesBits_toBytes (streamBits_length m P).2

/-- One byte for the header, the rest for payload and pad (R173). -/
theorem packStream_length (m : Config.PadMode) (P : Bits) :
    (packStream m P).length = 1 + (P.length + padlen m P.length) / 8 := by
  rw [packStream, toBytes_length, (streamBits_length m P).1]
  omega

/-- A stream has a last byte: that of the header, if there is no other. -/
theorem exists_packStream_eq_concat (m : Config.PadMode) (P : Bits) : ∃ B b, packStream m P = B ++ [b] := by
  refine (List.eq_nil_or_concat' (packStream m P)).resolve_left (List.ne_nil_of_length_pos ?_)
  rw [packStream_length]
  omega

/-- Settles O47: the padded payload in whole bytes, in each mode; the two empty streams are evaluated. -/
theorem streamIsByteAligned : Obligations.StreamIsByteAligned := by
  refine fun P => ⟨?_, ?_, by decide, by decide⟩
  · rw [packStream_length, padlen]
    omega
  · rw [packStream_length, padlen]
    omega

/-- Settles O46: the frame is the stream cut at its last byte, and the answer's fields hold pad length and byte count. -/
theorem pkeEmitsStream : Obligations.PkeEmitsStream := by
  intro s hrun hle
  obtain ⟨B, b, hstream⟩ := exists_packStream_eq_concat .normalized s.pbuf
  have hpad := padlen_lt .normalized s.pbuf.length
  have hx : (BitVec.ofNat 9 (padlen .normalized s.pbuf.length)).toNat = padlen .normalized s.pbuf.length := by
    rw [BitVec.toNat_ofNat, Nat.mod_eq_of_lt (by omega)]
  have hlen : (packStream .normalized s.pbuf).length = B.length + 1 := by
    rw [hstream, List.length_append, List.length_singleton]
  refine ⟨B, b, _, BitVec.ofNat 40 (packStream .normalized s.pbuf).length, ?_, hx, ?_, ?_⟩
  · rw [← frame_concat, ← hstream]
    exact haltGate_running _ hrun
  · have hbytes := packStream_length .normalized s.pbuf
    rw [BitVec.toNat_ofNat, Nat.mod_eq_of_lt (by omega), hlen]
  · rw [← hstream, bytesBits_packStream, hx, streamBits]

end Sys2Proof.Machine
end

section
/-! PROOFS of the family 44_bit_unpacker.md: `UPB` appends a byte or raises, `UPE` strips header and pad, and the unpacker
inverts the packer (spec/44_bit_unpacker.md R190 to R196). -/

namespace Sys2Proof.Machine

/-! ### Taking one byte (R191) -/

theorem ubufFull_eq_beq {p : Config.Params} {cap : Nat} (h : p.ubufBytes = some cap) (n : Nat) :
    ubufFull p n = (n == cap) := by
  rw [ubufFull, h]

/-- An infinite buffer is never full (R191). -/
theorem ubufFull_of_infinite {p : Config.Params} (h : p.ubufBytes = none) (n : Nat) : ubufFull p n = false := by
  rw [ubufFull, h]

section
variable {p : Config.Params} {s : State} (hrun : s.err = 0)
include hrun

theorem giveByte_of_full (b : Byte) (hfull : ubufFull p s.ubuf.length = true) :
    giveByte p b s = .next (raise .bufferOverflow s) :=
  (haltGate_running _ hrun).trans (if_pos hfull)

theorem giveByte_of_room (b : Byte) (hroom : ubufFull p s.ubuf.length = false) :
    giveByte p b s =
      .next (respond { d := BitVec.ofNat 40 (s.ubuf ++ [b]).length } (setUbuf (s.ubuf ++ [b]) s)) :=
  (haltGate_running _ hrun).trans (if_neg (by simp [hroom]))

/-- Below this hardware's capacity `UPB` appends its byte (R191). -/
theorem execUpb_of_lt (b : Byte) (hlt : s.ubuf.length < 65538) :
    execUpb b s = .next (respond { d := BitVec.ofNat 40 (s.ubuf ++ [b]).length } (setUbuf (s.ubuf ++ [b]) s)) := by
  have hroom : ubufFull Config.thisHardware s.ubuf.length = false :=
    (ubufFull_eq_beq rfl _).trans (beq_false_of_ne (Nat.ne_of_lt hlt))
  exact giveByte_of_room hrun b hroom

end

/-- Settles O48: the byte is appended, and the answer's 40 bits hold the new length. -/
theorem upbAppendsByte : Obligations.UpbAppendsByte := by
  intro s b hrun hlt
  refine ⟨_, execUpb_of_lt hrun b hlt, ?_⟩
  rw [BitVec.toNat_ofNat, List.length_append, List.length_singleton, Nat.mod_eq_of_lt (by omega)]

/-- Settles O49: a full and an infinite buffer, and `UPB` is the unpacker at this hardware's capacity. -/
theorem upbOverflowFaults : Obligations.UpbOverflowFaults := by
  intro p s b hrun
  refine ⟨fun hcap => ?_, fun hinf => ?_, rfl⟩
  · exact giveByte_of_full hrun b ((ubufFull_eq_beq hcap _).trans (beq_self_eq_true _))
  · exact ⟨_, giveByte_of_room hrun b (ubufFull_of_infinite hinf _), hrun, rfl⟩

/-! ### Stripping header and pad (R192 to R195) -/

/-- On bytes that unpack, `UPE` replaces `EBITS` and empties `UBUF` (R192, R195). -/
theorem execUpe_of_ok {s : State} {pad : Nat} {bits : Bits} (hrun : s.err = 0)
    (hu : unpackStream s.ubuf = .ok (pad, bits)) :
    execUpe s =
      .next (respond { x := BitVec.ofNat 9 pad, d := BitVec.ofNat 40 bits.length } (setUbuf [] (setEbits bits s))) := by
  refine (haltGate_running _ hrun).trans ?_
  rw [hu]

/-- A header no greater than the number of bits behind it says how many last bits go (R193, R194). -/
theorem unpackStream_of_le {h : Byte} {B : List Byte} (hle : h.toNat ≤ 8 * B.length) :
    unpackStream (h :: B) = .ok (h.toNat, (bytesBits B).take (8 * B.length - h.toNat)) :=
  (unpackStream_cons h B).trans (if_neg (Nat.not_lt.2 hle))

/-- Settles O50: the bytes unpack, and the answer's fields hold the header and the length. -/
theorem upeStripsHeaderAndPadding : Obligations.UpeStripsHeaderAndPadding := by
  intro s h B hrun hubuf hle hlt
  have hu := unpackStream_of_le hle
  rw [← hubuf] at hu
  refine ⟨_, _, execUpe_of_ok hrun hu, ?_, ?_⟩
  · rw [BitVec.toNat_ofNat, Nat.mod_eq_of_lt (by omega)]
  · rw [BitVec.toNat_ofNat, List.length_take_of_le (by rw [bytesBits_length]; omega), Nat.mod_eq_of_lt (by omega)]

/-! ### The unpacker inverts the packer (R196) -/

theorem bits8_injective : Function.Injective bits8 := Function.LeftInverse.injective byteOf_bits8

/-- A stream is its header byte, the pad length, and bytes that hold payload and pad (43_bit_packer.md R173). -/
theorem exists_packStream_eq_cons (m : Config.PadMode) (P : Bits) :
    ∃ B, packStream m P = BitVec.ofNat 8 (padlen m P.length) :: B ∧ bytesBits B = P ++ zeros (padlen m P.length) := by
  obtain ⟨h, B, hstream⟩ := List.exists_cons_of_length_pos (l := packStream m P) (by rw [packStream_length]; omega)
  have hbits : bits8 h ++ bytesBits B = bits8 (BitVec.ofNat 8 (padlen m P.length)) ++ (P ++ zeros (padlen m P.length)) := by
    rw [← List.append_assoc, ← streamBits, ← bytesBits_packStream, hstream]
    rfl
  obtain ⟨hheader, hrest⟩ := List.append_inj hbits rfl
  exact ⟨B, bits8_injective hheader ▸ hstream, hrest⟩

/-- The bytes of a stream unpack to its payload (R196). -/
theorem unpackStream_packStream (m : Config.PadMode) (P : Bits) :
    unpackStream (packStream m P) = .ok (padlen m P.length, P) := by
  obtain ⟨B, hstream, hB⟩ := exists_packStream_eq_cons m P
  have hpad : (BitVec.ofNat 8 (padlen m P.length)).toNat = padlen m P.length := by
    have := padlen_lt m P.length
    rw [BitVec.toNat_ofNat, Nat.mod_eq_of_lt (by omega)]
  have hlen : 8 * B.length = P.length + padlen m P.length := by
    rw [← bytesBits_length, hB, List.length_append, zeros_length]
  rw [hstream, unpackStream_of_le (by omega), hpad, hB, hlen, Nat.add_sub_cancel, List.take_left]

/-- A payload that fits the packer gives a stream that fits the unpacker (R191). -/
theorem packStream_length_le (m : Config.PadMode) {P : Bits} (hP : P.length ≤ 524288) :
    (packStream m P).length ≤ 65538 := by
  have := padlen_lt m P.length
  rw [packStream_length]
  omega

/-- A run of `UPB` over bytes that fit appends them all, and but for the answers changes nothing else (R191). -/
theorem runInstrs_upb {s : State} {B : List Byte} (hrun : s.err = 0) (hfits : s.ubuf.length + B.length ≤ 65538) :
    ∃ r, runInstrs (B.map .upb) s = .next { s with ubuf := s.ubuf ++ B, rsps := r } := by
  induction B generalizing s with
  | nil => exact ⟨s.rsps, by simp [runInstrs]⟩
  | cons b B ih =>
    rw [List.length_cons] at hfits
    have hexec : exec (.upb b) s = _ := execUpb_of_lt hrun b (by omega)
    obtain ⟨r, hr⟩ := ih (s := respond { d := BitVec.ofNat 40 (s.ubuf ++ [b]).length } (setUbuf (s.ubuf ++ [b]) s))
      hrun (by rw [respond_ubuf, setUbuf_ubuf, List.length_append, List.length_singleton]; omega)
    refine ⟨r, ?_⟩
    rw [List.map_cons, runInstrs, hexec]
    refine hr.trans ?_
    rw [respond_ubuf, setUbuf_ubuf, List.append_assoc, List.singleton_append]
    rfl

/-- `UNPACK` of bytes that fit an empty buffer and unpack leaves their bits in `EBITS` (R192, 30_encoding.md R96). -/
theorem runInstrs_unpack {s : State} {B : List Byte} {pad : Nat} {bits : Bits} (hrun : s.err = 0) (hempty : s.ubuf = [])
    (hfits : B.length ≤ 65538) (hu : unpackStream B = .ok (pad, bits)) :
    ∃ r, runInstrs (expand (.unpack B)) s = .next { s with ebits := bits, rsps := r } := by
  obtain ⟨r, hgive⟩ := runInstrs_upb (s := s) (B := B) hrun (by rw [hempty, List.length_nil]; omega)
  rw [hempty, List.nil_append] at hgive
  have hend : exec .upe { s with ubuf := B, rsps := r } = _ :=
    execUpe_of_ok (s := { s with ubuf := B, rsps := r }) hrun hu
  refine ⟨r ++ [{ x := BitVec.ofNat 9 pad, d := BitVec.ofNat 40 bits.length }], ?_⟩
  rw [expand, runInstrs_append _ _ hgive, runInstrs, hend, ← hempty]
  rfl

/-- Settles O52: the bytes are the payload's stream, which fits the unpacker's buffer and unpacks to the payload. -/
theorem unpackInvertsPack : Obligations.UnpackInvertsPack := by
  intro m P hP
  refine ⟨packStream m P, fun u hu hpbuf => ?_, fun s hrun hempty => ?_⟩
  · refine ⟨_, haltGate_running _ hu, ?_⟩
    rw [← hpbuf]
    rfl
  · obtain ⟨r, hrest⟩ := runInstrs_unpack hrun hempty (packStream_length_le m hP) (unpackStream_packStream m P)
    exact ⟨_, hrest, rfl⟩

end Sys2Proof.Machine
end

section
/-! PROOFS of the family 45_symbol_decoder.md: `DEC` reads joined codes back and faults on all other bits, the matching
state machine does what `DEC` does, and `DECOMPRESS` gives back what was compressed (spec/45_symbol_decoder.md R211 to
R219, 30_encoding.md R96). -/

namespace Sys2Proof.Machine

/-! ### The outcome of `DEC` (R211, R213) -/

/-- The state `DEC` leaves after a scan: the symbols emitted when no candidate is left, else the fault (R211, R213). -/
def decEnd : Bits × List Sym → State → State
  | ([], out), s =>
    respond { d := BitVec.ofNat 40 out.length } (setEbits [] (setScan s.ebits.length (emitSyms out s)))
  | (_ :: _, _), s => raise .undecodableTail s

theorem exec_dec {s : State} (hrun : s.err = 0) : exec .dec s = .next (decEnd (scan s.ict s.ebits [] []) s) := by
  refine (haltGate_running _ hrun).trans ?_
  rcases scan s.ict s.ebits [] [] with ⟨_ | _, _⟩ <;> rfl

/-! ### Joined codes (R212) -/

/-- Joined codes, none of which begins another, are scanned to their symbols with nothing left. -/
theorem scan_payload {ct : Table Bits} {ict : List IctEntry} {S : List Sym} {P : Bits} (hfree : PrefixFree ct)
    (hinv : ExactInverse ct ict) (h : payloadOf ct S = some P) : scan ict P [] [] = ([], S) := by
  obtain ⟨cs, rfl, rfl, hcs⟩ := payloadOf_joined hinv S P h
  exact scan_joined (lookupFree_of_tables hfree hinv) cs [] hcs

/-- A code has at least one bit (10_state.md R31). -/
theorem length_le_of_payload {ct : Table Bits} {ict : List IctEntry} {S : List Sym} {P : Bits}
    (hinv : ExactInverse ct ict) (h : payloadOf ct S = some P) : S.length ≤ P.length := by
  obtain ⟨cs, rfl, rfl, hcs⟩ := payloadOf_joined hinv S P h
  have hpos : ∀ n ∈ cs.map (fun e => e.2.length), 1 ≤ n := by
    intro n hn
    obtain ⟨e, he, rfl⟩ := List.mem_map.1 hn
    exact List.length_pos_iff.2 (lookup_ne_nil (hcs e he))
  simpa [List.length_flatten, Function.comp_def] using List.length_le_sum_of_one_le _ hpos

/-- Entries of the inverse table, joined, are the codes of their symbols, joined. -/
theorem payloadOf_of_joined {ct : Table Bits} {ict : List IctEntry} (hinv : ExactInverse ct ict)
    {cs : List (Sym × Bits)} (hcs : ∀ e ∈ cs, lookup ict e.2 = some e.1) :
    payloadOf ct (cs.map Prod.fst) = some (cs.map Prod.snd).flatten := by
  induction cs with
  | nil => rfl
  | cons e cs ih =>
    have hcode : codeOf ct e.1 = some e.2 := (hinv _ _).1 (hcs e (by simp))
    rw [List.map_cons, payloadOf, hcode, ih fun x hx => hcs x (List.mem_cons_of_mem _ hx)]
    rfl

theorem exec_dec_of_payload {s : State} {S : List Sym} (hrun : s.err = 0) (hfree : PrefixFree s.ct)
    (hinv : ExactInverse s.ct s.ict) (hpay : payloadOf s.ct S = some s.ebits) :
    exec .dec s = .next (decEnd ([], S) s) := by
  rw [exec_dec hrun, scan_payload hfree hinv hpay]

/-- Settles O53: the scan gives the symbols, and these are no more than the bits, so the answer holds their number. -/
theorem decEmitsSymbols : Obligations.DecEmitsSymbols := by
  intro s S hrun hfree hinv hpay hlt
  refine ⟨BitVec.ofNat 40 S.length, exec_dec_of_payload hrun hfree hinv hpay, ?_⟩
  have hle := length_le_of_payload hinv hpay
  rw [BitVec.toNat_ofNat, Nat.mod_eq_of_lt (by omega)]

/-! ### Bits that are no joined codes (R213, R214, R219) -/

/-- `DEC` faults on bits that no entries of the inverse table make up: whatever the scan matched, a candidate is left. -/
theorem exec_dec_of_not_joined {s : State} (hrun : s.err = 0)
    (h : ∀ cs : List (Sym × Bits), (∀ e ∈ cs, lookup s.ict e.2 = some e.1) → (cs.map Prod.snd).flatten ≠ s.ebits) :
    exec .dec s = .next (raise .undecodableTail s) := by
  obtain ⟨cs, hcs, hbits, -⟩ := scan_sound s.ict s.ebits [] []
  rw [exec_dec hrun]
  generalize scan s.ict s.ebits [] [] = left at hbits ⊢
  obtain ⟨cand, out⟩ := left
  cases cand with
  | nil => exact absurd (by simpa using hbits.symm) (h cs hcs)
  | cons b cand => rfl

/-- Settles O54: entries of the inverse table that make up the bits would make them joined codes. -/
theorem decFaultsOnBadTail : Obligations.DecFaultsOnBadTail := by
  intro s hrun hinv hnone
  refine exec_dec_of_not_joined hrun fun cs hcs hbits => hnone (cs.map Prod.fst) ?_
  rw [payloadOf_of_joined hinv hcs, hbits]

theorem lookup_nil (c : Bits) : lookup [] c = none := by simp [lookup]

/-- Settles O55: of no bits nothing is scanned, and an empty table has no entry that could make up a bit. -/
theorem emptyDecodes : Obligations.EmptyDecodes := by
  refine fun s hrun => ⟨fun hempty => ⟨_, exec_dec hrun, ?_⟩, fun hict hne => ?_⟩
  · rw [hempty]
    exact ⟨List.append_nil _, hrun, rfl⟩
  · refine exec_dec_of_not_joined hrun fun cs hcs hbits => hne ?_
    cases cs with
    | nil => exact hbits.symm
    | cons e cs =>
      have he := hcs e (by simp)
      rw [hict, lookup_nil] at he
      cases he

/-! ### The matching state machine (R215, R216) -/

/-- A micro-step that does not end the run leaves the rest of it. -/
theorem runDec_succ_of_ne {k : Nat} {d d' : DecState} {s t : State} (h : decMicro d s = (d', t)) (hne : d' ≠ .idle) :
    runDec (k + 1) d s = runDec k d' t := by
  rw [runDec, h]
  cases d' with
  | idle => exact absurd rfl hne
  | _ => rfl

theorem runDec_succ_of_idle {k : Nat} {d : DecState} {s t : State} (h : decMicro d s = (.idle, t)) :
    runDec (k + 1) d s = some t := by
  rw [runDec, h]

/-- The machine's state in mid-scan, by the candidate the unbounded `DEC` holds there: its first `CODE_MAX` bits, and
`DEAD` when there are more (R216). -/
def midScan (c : Bits) (pos : Nat) (s : State) : State :=
  { s with cand := c.take 255, dead := decide (255 < c.length), dpos := pos }

/-- No code is longer than `CODE_MAX` (10_state.md R31). -/
theorem length_le_of_lookup {ict : List IctEntry} {c : Bits} {a : Sym} (h : lookup ict c = some a) : c.length ≤ 255 := by
  unfold lookup at h
  split at h
  · cases h
  · rename_i hbound
    exact Nat.not_lt.1 (not_or.1 hbound).2

section
variable {s : State} {c : Bits} {pos : Nat} {out : List Sym}

@[simp] theorem midScan_cand : (midScan c pos s).cand = c.take 255 := rfl

@[simp] theorem midScan_dead : (midScan c pos s).dead = decide (255 < c.length) := rfl

/-- The bounded candidate with `DEAD` matches what the unbounded one matches: a longer one matches nothing (R216). -/
theorem lookup_midScan :
    (if (midScan c pos s).dead then none else lookup (midScan c pos s).ict (midScan c pos s).cand) = lookup s.ict c := by
  by_cases hlong : 255 < c.length
  · have hnone : lookup s.ict c = none :=
      Option.eq_none_iff_forall_ne_some.2 fun _ ha => Nat.not_lt.2 (length_le_of_lookup ha) hlong
    rw [hnone]
    exact if_pos (decide_eq_true hlong)
  · refine (if_neg (by simpa using hlong)).trans ?_
    rw [midScan_cand, List.take_of_length_le (Nat.not_lt.1 hlong)]
    rfl

/-- Taking a bit keeps the bounded candidate in step with the unbounded one: a bit that arrives at a full candidate is
dropped (R216). -/
theorem shiftBit_midScan :
    shiftBit (midScan c pos s) = midScan (c ++ [s.ebits.getD pos false]) (pos + 1) s := by
  by_cases hfull : 255 ≤ c.length
  · have hdead : (midScan c pos s).dead = true ∨ 255 ≤ (midScan c pos s).cand.length := by
      simp [hfull]
    rw [shiftBit, if_pos hdead]
    simp [midScan, List.take_append_of_le_length hfull, Nat.lt_succ_of_le hfull]
  · have hopen : ¬ ((midScan c pos s).dead = true ∨ 255 ≤ (midScan c pos s).cand.length) := by
      rw [midScan_dead, midScan_cand, decide_eq_true_iff, List.length_take]
      omega
    have hold : c.take 255 = c := List.take_of_length_le (Nat.le_of_not_ge hfull)
    have hnew (b : Bool) : (c ++ [b]).take 255 = c ++ [b] :=
      List.take_of_length_le (by rw [List.length_append, List.length_singleton]; omega)
    have hshort : ¬ 255 < c.length := fun hlong => hfull hlong.le
    rw [shiftBit, if_neg hopen]
    simp [midScan, hold, hnew, hshort, hfull]

theorem decMicro_test {pre bits : Bits} {b : Bool} (h : s.ebits = pre ++ b :: bits) :
    decMicro (.test out) (midScan c pre.length s) = (.shift out, midScan c pre.length s) :=
  if_pos (show pre.length < s.ebits.length by simp [h])

theorem decMicro_test_end (h : pos = s.ebits.length) :
    decMicro (.test out) (midScan c pos s) = (.finish out, midScan c pos s) :=
  if_neg (show ¬ pos < s.ebits.length by omega)

theorem decMicro_shift {pre bits : Bits} {b : Bool} (h : s.ebits = pre ++ b :: bits) :
    decMicro (.shift out) (midScan c pre.length s) = (.matching out, midScan (c ++ [b]) (pre ++ [b]).length s) := by
  have hbit : s.ebits.getD pre.length false = b := by simp [h]
  rw [decMicro, shiftBit_midScan, hbit, List.length_append, List.length_singleton]

theorem decMicro_matching_none (h : lookup s.ict c = none) :
    decMicro (.matching out) (midScan c pos s) = (.test out, midScan c pos s) := by
  rw [decMicro, lookup_midScan, h]

theorem decMicro_matching_some {m : Sym} (h : lookup s.ict c = some m) :
    decMicro (.matching out) (midScan c pos s) = (.emit out m, midScan c pos s) := by
  rw [decMicro, lookup_midScan, h]

/-- After a match the candidate is empty again, and `DEAD` was 0 (R215). -/
theorem decMicro_emit {m : Sym} (h : lookup s.ict c = some m) :
    decMicro (.emit out m) (midScan c pos s) = (.test (out ++ [m]), midScan [] pos s) := by
  simp [decMicro, midScan, length_le_of_lookup h]

theorem decMicro_finish_nil : decMicro (.finish out) (midScan [] pos s) = (.flush out, midScan [] pos s) := rfl

theorem decMicro_finish_cons {b : Bool} :
    decMicro (.finish out) (midScan (b :: c) pos s) = (.fail, midScan (b :: c) pos s) := by
  rw [decMicro, if_neg (by simp)]

end

/-- From mid-scan the machine ends as `DEC` does on the bits not yet taken, after at most four micro-steps for each of
them and three more. -/
theorem runDec_scan {s : State} {bits pre c : Bits} {out : List Sym} (m : Nat) (h : s.ebits = pre ++ bits) :
    ∃ u, runDec (m + (4 * bits.length + 3)) (.test out) (midScan c pre.length s) = some u ∧
      clearScratch u = clearScratch (decEnd (scan s.ict bits c out) s) := by
  induction bits generalizing pre c out m with
  | nil =>
    rw [List.length_nil, runDec_succ_of_ne (decMicro_test_end (by simp [h])) (by simp)]
    cases c with
    | nil =>
      rw [runDec_succ_of_ne decMicro_finish_nil (by simp), runDec_succ_of_idle rfl]
      exact ⟨_, rfl, rfl⟩
    | cons b c =>
      rw [runDec_succ_of_ne decMicro_finish_cons (by simp), runDec_succ_of_idle rfl]
      exact ⟨_, rfl, rfl⟩
  | cons b bits ih =>
    have hnext : s.ebits = pre ++ [b] ++ bits := by simpa using h
    rw [List.length_cons, show m + (4 * (bits.length + 1) + 3) = m + (4 * bits.length + 3) + 1 + 1 + 1 + 1 by ring,
      runDec_succ_of_ne (decMicro_test h) (by simp), runDec_succ_of_ne (decMicro_shift h) (by simp), scan]
    cases hm : lookup s.ict (c ++ [b]) with
    | none =>
      rw [runDec_succ_of_ne (decMicro_matching_none hm) (by simp), Nat.add_right_comm]
      exact ih (m + 1) hnext
    | some a =>
      rw [runDec_succ_of_ne (decMicro_matching_some hm) (by simp), runDec_succ_of_ne (decMicro_emit hm) (by simp)]
      exact ih m hnext

/-- Settles O56: the machine's first micro-step begins the scan, and the rest of the run ends as the whole scan does. -/
theorem prefixFsmRefinesDec : Obligations.PrefixFsmRefinesDec := by
  intro s hrun
  obtain ⟨u, hu, hclear⟩ := runDec_scan (s := s) (bits := s.ebits) (pre := []) (c := []) (out := []) 1 rfl
  refine ⟨_, u, exec_dec hrun, ?_, hclear⟩
  have hidle : decMicro .idle s = (.test [], midScan [] 0 s) := rfl
  rw [show 4 * s.ebits.length + 5 = 1 + (4 * s.ebits.length + 3) + 1 by ring, runDec_succ_of_ne hidle (by simp)]
  exact hu

/-! ### `COMPRESS` and `DECOMPRESS` (R217, 30_encoding.md R96) -/

theorem runInstrs_singleton {i : Instr} {s t : State} (h : exec i s = .next t) : runInstrs [i] s = .next t := by
  rw [runInstrs, h]
  rfl

/-- A run of commands keeps the invariant. -/
theorem coreInv_runInstrs {l : List Instr} {s t : State} (hs : CoreInv s) (h : runInstrs l s = .next t) : CoreInv t := by
  induction l generalizing s with
  | nil =>
    cases h
    exact hs
  | cons i l ih =>
    rw [runInstrs] at h
    split at h
    · exact ih (coreInv_exec hs ‹_›) h
    · cases h
    · cases h

/-- In a whole build's tree every symbol with a count is assigned a code. -/
theorem Forest.mem_assigned_fst {ft : Table Count} {e : Engine} {t : Shape} (h : Forest ft e [t]) {a : Sym}
    (ha : count ft a ≠ 0) : a ∈ t.assigned.map Prod.fst := by
  obtain ⟨c, hc⟩ : ∃ c, ft.get? a.toNat = some c := by
    refine Option.ne_none_iff_exists'.1 fun hnone => ha ?_
    rw [count, hnone]
    rfl
  exact h.assigned_fst_perm.mem_iff.2 (List.mem_map.2 ⟨(a.toNat, c), Table.get?_mem hc, by simp⟩)

/-- `RST` and then `TABLE S`, from any state: tables that code every symbol of `S`, the buffers empty, and the sinks as
they were. -/
theorem runInstrs_rst_table (s : State) {S : List Sym} (hne : S ≠ []) (hfits : ∀ a, S.count a < 2 ^ 32) :
    ∃ t, runInstrs ([.rst] ++ expand (.table S)) s = .next t ∧ CoreInv t ∧ t.err = 0 ∧ t.pbuf = [] ∧ t.ubuf = [] ∧
      t.bout = s.bout ∧ t.sout = s.sout ∧ ∀ a ∈ S, (codeOf t.ct a).isSome := by
  have hreset : CoreInv (respond {} (toReset s)) := coreInv_respond _ (coreInv_toReset s)
  obtain ⟨u, hcnt, hcounts, hframe, -⟩ :=
    countingGivesOccurrences S (respond {} (toReset s)) rfl (fun _ => rfl) hfits
  obtain ⟨ft, r, rfl⟩ : ∃ ft r, u = { respond {} (toReset s) with ft := ft, rsps := r } := ⟨_, _, hframe⟩
  have hcounted (a : Sym) (ha : a ∈ S) : count ft a ≠ 0 := by
    intro hzero
    have hnone : 0 = S.count a := by simpa [hzero] using hcounts a
    exact absurd hnone.symm (List.count_pos_iff.2 ha).ne'
  have hcnted := coreInv_runInstrs hreset hcnt
  obtain ⟨a, ha⟩ := List.exists_mem_of_ne_nil S hne
  obtain ⟨shape, hforest, -, hgood, hbuild⟩ := runInstrs_bld_gen hcnted.ft rfl ⟨a, hcounted a ha⟩
  refine ⟨_, (runInstrs_append (S.map .cnt) [.bld, .gen] hcnt).trans hbuild, coreInv_runInstrs hcnted hbuild, rfl, rfl,
    rfl, rfl, rfl, fun b hb => ?_⟩
  rw [answerTables_ct, isSome_codeOf_tablesOf hgood]
  exact hforest.mem_assigned_fst (hcounted b hb)

theorem exists_payloadOf {ct : Table Bits} {S : List Sym} (h : ∀ a ∈ S, (codeOf ct a).isSome) :
    ∃ P, payloadOf ct S = some P := by
  induction S with
  | nil => exact ⟨[], rfl⟩
  | cons a S ih =>
    obtain ⟨c, hc⟩ := Option.isSome_iff_exists.1 (h a (by simp))
    obtain ⟨P, hP⟩ := ih fun b hb => h b (List.mem_cons_of_mem _ hb)
    exact ⟨c ++ P, by rw [payloadOf, hc, hP]⟩

/-- What the payload of a sequence with a first symbol is: that symbol's code, then the payload of the rest (R170). -/
theorem payloadOf_cons_eq_some {ct : Table Bits} {a : Sym} {S : List Sym} {P : Bits} (h : payloadOf ct (a :: S) = some P) :
    ∃ c Q, codeOf ct a = some c ∧ payloadOf ct S = some Q ∧ P = c ++ Q := by
  rw [payloadOf] at h
  split at h
  · cases h
    exact ⟨_, _, ‹_›, ‹_›, rfl⟩
  · cases h

/-- A run of `PKS` appends the payload that fits, and but for the answers changes nothing else (43_bit_packer.md R171). -/
theorem runInstrs_pks {s : State} {S : List Sym} {P : Bits} (hrun : s.err = 0) (hpay : payloadOf s.ct S = some P)
    (hfits : s.pbuf.length + P.length ≤ 524288) :
    ∃ r, runInstrs (S.map .pks) s = .next { s with pbuf := s.pbuf ++ P, rsps := r } := by
  induction S generalizing s P with
  | nil =>
    cases hpay
    exact ⟨s.rsps, by simp [runInstrs]⟩
  | cons a S ih =>
    obtain ⟨c, Q, hc, hQ, rfl⟩ := payloadOf_cons_eq_some hpay
    rw [List.length_append] at hfits
    obtain ⟨d, hexec, -⟩ := pksAppendsCode s a c hrun hc (by omega)
    obtain ⟨r, hr⟩ := ih (s := { s with pbuf := s.pbuf ++ c, rsps := s.rsps ++ [{ d := d }] }) hrun hQ
      (by rw [List.length_append]; omega)
    refine ⟨r, ?_⟩
    rw [List.map_cons, runInstrs, hexec, ← List.append_assoc]
    exact hr

/-- `PACK S` into an empty buffer emits the stream of the payload as one frame and empties the buffer again
(43_bit_packer.md R173). -/
theorem runInstrs_pack {s : State} {S : List Sym} {P : Bits} (hrun : s.err = 0) (hempty : s.pbuf = [])
    (hpay : payloadOf s.ct S = some P) (hfits : P.length ≤ 524288) :
    ∃ r, runInstrs (expand (.pack S)) s =
      .next { s with pbuf := [], bout := s.bout ++ frame (packStream .normalized P), rsps := r } := by
  obtain ⟨r, hpks⟩ := runInstrs_pks hrun hpay (by rw [hempty, List.length_nil]; omega)
  rw [hempty, List.nil_append] at hpks
  exact ⟨_, (runInstrs_append _ [.pke] hpks).trans (runInstrs_singleton (haltGate_running _ hrun))⟩

/-- `DECOMPRESS` of bytes that unpack to the payload of a sequence emits the sequence as one frame (R212). -/
theorem runInstrs_decompress {s : State} {S : List Sym} {B : List Byte} {pad : Nat} {P : Bits} (hrun : s.err = 0)
    (hempty : s.ubuf = []) (hfree : PrefixFree s.ct) (hinv : ExactInverse s.ct s.ict) (hpay : payloadOf s.ct S = some P)
    (hfits : B.length ≤ 65538) (hu : unpackStream B = .ok (pad, P)) :
    ∃ t, runInstrs (expand (.decompress B)) s = .next t ∧ t.err = 0 ∧ t.sout = s.sout ++ frame S ∧ t.bout = s.bout := by
  obtain ⟨r, hunpack⟩ := runInstrs_unpack hrun hempty hfits hu
  have hdec : exec .dec { s with ebits := P, rsps := r } = _ := exec_dec_of_payload hrun hfree hinv hpay
  exact ⟨_, (runInstrs_append _ [.dec] hunpack).trans (runInstrs_singleton hdec), hrun, rfl, rfl⟩

/-- Settles O57: the tables code every symbol of `S`, `PACK` emits the stream of the payload, which unpacks to the payload,
and `DEC` reads back its symbols. -/
theorem compressDecompressRoundTrip : Obligations.CompressDecompressRoundTrip := by
  intro s S hne hcounts
  obtain ⟨t, htable, hcore, hrun, hpbuf, hubuf, hbout, hsout, hcoded⟩ := runInstrs_rst_table s hne hcounts
  obtain ⟨P, hP⟩ := exists_payloadOf hcoded
  refine ⟨t, htable, hrun, P, hP, fun hfits => ?_⟩
  obtain ⟨r, hpack⟩ := runInstrs_pack hrun hpbuf hP hfits
  rw [hbout] at hpack
  refine ⟨_, packStream .normalized P, hpack, hrun, rfl, ?_⟩
  rw [← hsout]
  exact runInstrs_decompress hrun hubuf hcore.prefixFree hcore.inverse hP (packStream_length_le .normalized hfits)
    (unpackStream_packStream .normalized P)

end Sys2Proof.Machine
end

section
/-! PROOFS of the family 46_system.md: an accepted command word runs what the decoder says, and the three system commands,
which also run while halted (spec/46_system.md R230 to R233). -/

namespace Sys2Proof.Machine

/-! ### Dispatch of an accepted word (R230) -/

theorem runWord_of_decode_instr {w : CmdWord} {i : Instr} (h : decode w = .instr i) (s : State) :
    runWord w s = exec i s := by
  rw [runWord, h]

theorem runWord_of_decode_reserved {w : CmdWord} {op : BitVec 8} (h : decode w = .reserved op) (s : State) :
    runWord w s = execReserved op s := by
  rw [runWord, h]

/-- Settles O8: a core that is neither busy nor in reset accepts the word, and dispatch follows the decoder. -/
theorem stepRunsDecodedCommand : Obligations.StepRunsDecodedCommand := by
  intro s w rest hhost hbusy hreset
  have hstep : step s = runWord w (nextEvents rest s) := step_command (cmdReady_iff.2 ⟨hbusy, hreset⟩) hhost
  exact ⟨fun i hi => hstep.trans (runWord_of_decode_instr hi _),
    fun op hop => hstep.trans (runWord_of_decode_reserved hop _)⟩

/-! ### `NOP` and `RST` (R231, R232) -/

/-- Settles O15: the `op` is a row of the opcode map, and `NOP` only answers, with no halt gate before it. -/
theorem nopDoesNothing : Obligations.NopDoesNothing :=
  ⟨fun w hop => by rw [decode, hop]; rfl, fun _ => rfl⟩

/-- Settles O16: the `op` is a row of the opcode map, and `RST` answers from `toReset`, which keeps the sinks, the answers
and the host's events, with no halt gate before it. -/
theorem rstRestoresReset : Obligations.RstRestoresReset :=
  ⟨fun w hop => by rw [decode, hop]; rfl, fun _ => rfl⟩

/-! ### `STS` (R233) -/

/-- The parts of a concatenation add up, the low part staying below the high part's unit. -/
theorem toNat_append_eq_add {m n : Nat} (x : BitVec m) (y : BitVec n) :
    (x ++ y).toNat = x.toNat * 2 ^ n + y.toNat := by
  rw [BitVec.toNat_append, ← Nat.shiftLeft_add_eq_or_of_lt y.isLt, Nat.shiftLeft_eq]

/-- The status register as a number, each field at its bit position (10_state.md R39). -/
theorem toNat_statusReg (s : State) :
    (statusReg s).toNat = s.tblV.toNat * 32 + s.treeV.toNat * 16 + s.err.toNat := by
  simp only [statusReg, toNat_append_eq_add, BitVec.toNat_ofBool, BitVec.toNat_ofNat]
  omega

/-- Settles O17: the `op` is a row of the opcode map, and the answer is the status register, with no halt gate before
it. -/
theorem stsReadsStatus : Obligations.StsReadsStatus :=
  ⟨fun w hop => by rw [decode, hop]; rfl, fun s => ⟨statusReg s, rfl, toNat_statusReg s⟩⟩

end Sys2Proof.Machine
end

section
/-! PROOFS of the family 60_exceptions.md: a command that faults writes nothing but `ERR` and its answer, a halted core
refuses every command but three until a reset, the faults of `UPE` and `GEN`, and the steps that accept no command
(spec/60_exceptions.md R250 to R274). -/

namespace Sys2Proof.Machine

/-! ### The halted core (R257, R265, R266) -/

/-- Every command but the three that run while halted stands behind the halt gate. -/
theorem exec_of_halted {i : Instr} {s : State} (hhalt : s.err ≠ 0) (hi : runsHalted i = false) :
    exec i s = .next (refuseHalted s) := by
  cases i
  case nop | rst | sts => cases hi
  all_goals exact haltGate_halted _ hhalt

/-- Settles O18: the halt gate, which reserved words pass through too. -/
theorem haltedCommandsRefused : Obligations.HaltedCommandsRefused :=
  fun _ hhalt => ⟨fun _ hi => exec_of_halted hhalt hi, fun _ => haltGate_halted _ hhalt⟩

/-- Of the command words, only `RST` changes a latched error: at a halted core the others are refused or only answer. -/
theorem runWord_err_of_halted {w : CmdWord} {s t : State} (hhalt : s.err ≠ 0) (hw : decode w ≠ .instr .rst)
    (h : runWord w s = .next t) : t.err = s.err := by
  rcases runWord_cases h with ⟨i, hi, h⟩ | ⟨op, -, ⟨hrun, -⟩ | ⟨-, rfl⟩⟩
  · rcases exec_outcome h with ⟨-, -, rfl⟩ | ⟨hrun, -⟩ | ⟨rfl, -⟩ | ⟨-, -, r, u, -, rfl, hu⟩
    · rfl
    · exact absurd hrun hhalt
    · exact absurd hi hw
    · exact hu.err
  · exact absurd hrun hhalt
  · rfl

theorem decode_ne_rst_of_asksReset {s : State} {w : CmdWord} {rest : List HostEvent} (hready : cmdReady s = true)
    (hhost : s.host = .command w :: rest ∨ ∃ k, s.host = .commandHeld w k :: rest) (hask : asksReset s = false) :
    decode w ≠ .instr .rst := by
  rcases hhost with hhost | ⟨k, hhost⟩ <;> simpa [asksReset, hhost, hready] using hask

/-- Settles O21: by what a step can do. The input `rst` and an accepted `RST` are what `asksReset` rules out; another word
keeps the latch, held up or not, and so does a step that runs none. -/
theorem onlyResetClearsErr : Obligations.OnlyResetClearsErr := by
  intro s t h hhalt hask
  rcases step_cases h with ⟨-, rfl⟩ | ⟨-, rfl, -⟩ | ⟨hready, w, rest, u, hu, hhost⟩ | ⟨rest, -, rfl⟩ | ⟨rest, hhost, -⟩
  · rfl
  · obtain ⟨-, herr, -⟩ := becomeReady_keeps s
    exact herr
  · have hw : decode w ≠ .instr .rst :=
      decode_ne_rst_of_asksReset hready (hhost.imp And.left fun ⟨k, hk, _⟩ => ⟨k, hk⟩) hask
    have herr : u.err = s.err := runWord_err_of_halted (s := nextEvents rest s) hhalt hw hu
    rcases hhost with ⟨-, rfl⟩ | ⟨k, -, rfl⟩
    · exact herr
    · exact herr
  · rfl
  · simp [asksReset, hhost] at hask

/-! ### A command that faults (R250, R256) -/

/-- Settles O19: by what a command can do. A running core refuses none, and what resets or completes answers status 0. -/
theorem faultsWriteOnlyErr : Obligations.FaultsWriteOnlyErr := by
  intro i s t hrun h
  rcases exec_outcome h with ⟨hhalt, -⟩ | ⟨-, e, he, rfl⟩ | ⟨-, rfl⟩ | ⟨-, -, r, u, hr, rfl, hu⟩
  · exact absurd hrun hhalt
  · exact .inr ⟨e, he, rfl⟩
  · exact .inl ⟨rfl, _, rfl, rfl⟩
  · exact .inl ⟨hu.err.trans hrun, r, hr, by rw [respond_rsps, hu.rsps]⟩

/-! ### The faults of `UPE` (R253, R254) -/

theorem execUpe_of_error {s : State} {e : ErrorKind} (hrun : s.err = 0) (hu : unpackStream s.ubuf = .error e) :
    execUpe s = .next (raise e s) := by
  refine (haltGate_running _ hrun).trans ?_
  rw [hu]

/-- A header greater than the number of bits behind it is a corrupt padding (R254). -/
theorem unpackStream_of_lt {h : Byte} {B : List Byte} (hlt : 8 * B.length < h.toNat) :
    unpackStream (h :: B) = .error .corruptPadding :=
  (unpackStream_cons h B).trans (if_pos hlt)

/-- Settles O51: no byte, a header above the bits behind it, and a header equal to their number, which leaves none. -/
theorem upeFaults : Obligations.UpeFaults := by
  refine fun s hrun => ⟨fun hubuf => ?_, fun h B hubuf hlt => ?_, fun h B hubuf heq => ?_⟩
  · exact execUpe_of_error hrun (hubuf ▸ rfl : unpackStream s.ubuf = .error .corruptHeader)
  · exact execUpe_of_error hrun (hubuf ▸ unpackStream_of_lt hlt)
  · have hu := unpackStream_of_le heq.ge
    rw [← hubuf] at hu
    refine ⟨_, execUpe_of_ok hrun hu, hrun, ?_⟩
    simp [heq]

/-! ### The fault of `GEN` (R260) -/

theorem exec_gen_of_noTree {s : State} (hrun : s.err = 0) (htree : s.treeV = false) :
    exec .gen s = .next (raise .noTree s) :=
  (haltGate_running _ hrun).trans (if_pos htree)

/-- Settles O34: the gate is open and there is no tree. -/
theorem genNoTreeFaults : Obligations.GenNoTreeFaults := fun _ => exec_gen_of_noTree

/-! ### Steps that accept no command (R272, R274) -/

theorem step_noEvent {s : State} (h : s.host = []) : step s = .next (endReset s) := by
  simp [step, hostStep, h]

theorem cmdReady_of_busy {s : State} (h : s.busy = true) : cmdReady s = false := by simp [cmdReady, h]

theorem cmdReady_of_inReset {s : State} (h : s.inReset = true) : cmdReady s = false := by simp [cmdReady, h]

/-- Settles O9: with no event only a reset can end, and at a core that is not ready a command word waits while the core
becomes so. -/
theorem idleAndBusyKeepState : Obligations.IdleAndBusyKeepState := by
  refine fun s => ⟨fun hhost hrunning => ?_, fun w rest hhost hbusy hrunning => ?_, fun w rest hhost hreset => ?_⟩
  · rw [step_noEvent hhost, endReset_running hrunning]
  · rw [step_not_ready (cmdReady_of_busy hbusy) hhost, becomeReady_busy hrunning]
    rfl
  · rcases hhost with hhost | hhost
    · exact step_noEvent hhost
    · rw [step_not_ready (cmdReady_of_inReset hreset) hhost, becomeReady_inReset hreset]
      rfl

end Sys2Proof.Machine
end

section
/-! PROOFS of the family 70_reset_and_hazards.md: what the input `rst` does to a command in progress, that it resets like
the command `RST`, and that each of the three stores has its own writers (spec/70_reset_and_hazards.md R290 to R296). -/

namespace Sys2Proof.Machine

/-! ### The input `rst` (R290 to R292) -/

/-- A command word that a ready core runs to `t` stops short of `t` when it is held up, whatever events come after it
(30_encoding.md R93). -/
theorem step_commandHeld_of_command {s t : State} {w : CmdWord} {rest : List HostEvent} (hready : cmdReady s = true)
    (h : step (nextEvents (.command w :: rest) s) = .next t) (k : Nat) (more : List HostEvent) :
    step (nextEvents (.commandHeld w k :: more) s) =
      .next (holdBack (nextEvents more s) k (nextEvents more t)) := by
  have hrun : runWord w (nextEvents rest s) = .next t :=
    (step_command (s := nextEvents (.command w :: rest) s) hready rfl).symm.trans h
  calc step (nextEvents (.commandHeld w k :: more) s)
      = mapNext (holdBack (nextEvents more s) k) (runWord w (nextEvents more s)) :=
        step_commandHeld (s := nextEvents (.commandHeld w k :: more) s) hready rfl
    _ = .next (holdBack (nextEvents more s) k (nextEvents more t)) :=
        congrArg _ (runWord_other_events hrun more)

/-- Settles O13: the held word leaves the elements taken in the histories and the rest and its answer at the ports; the
input `rst` keeps the histories and clears the ports. -/
theorem resetAbandonsCommand : Obligations.ResetAbandonsCommand := fun _ _ k rest _ hbusy hreset h =>
  ⟨_, step_commandHeld_of_command (cmdReady_iff.2 ⟨hbusy, hreset⟩) h k (.rst :: rest), step_rst rfl⟩

/-- The command `RST` is the input `rst` with reset left at once, and answered (R291). -/
theorem exec_rst_eq_respond_resetInput (s : State) :
    exec .rst s = .next (respond {} (endReset (resetInput s))) := rfl

/-- Settles O11: the input `rst` is taken at once, and a core in reset becomes ready only by leaving it, in the state `RST`
answers from. -/
theorem rstInputEqualsRstCommand : Obligations.RstInputEqualsRstCommand := by
  intro s rest h
  refine ⟨_, step_rst h, rfl, rfl, cmdReady_of_inReset rfl, rfl, rfl, rfl, fun u hu hready => ?_⟩
  obtain rfl := eq_endReset_of_ready rfl hu hready
  exact ⟨hasResetValues_endReset_resetInput _, rfl, rfl, exec_rst_eq_respond_resetInput (nextEvents rest s)⟩

/-! ### Three separate stores (R296) -/

theorem exec_cnt_frame {a : Sym} {s t : State} (h : exec (.cnt a) s = .next t) :
    t = { s with ft := t.ft, err := t.err, rsps := t.rsps } := by
  rcases execCnt_next h with ⟨-, -, rfl⟩ | ⟨-, -, rfl⟩ | ⟨-, rfl⟩
  · rfl
  · rfl
  · rfl

/-- `FWR` raises no error, so it leaves `ERR` as well. -/
theorem exec_fwr_frame {a : Sym} {c : Count} {s t : State} (h : exec (.fwr a c) s = .next t) :
    t = { s with ft := t.ft, rsps := t.rsps } := by
  rcases execFwr_next h with ⟨-, rfl⟩ | ⟨-, rfl⟩
  · rfl
  · rfl

theorem exec_bld_frame {s t : State} (h : exec .bld s = .next t) :
    t = { s with
      node := t.node, inq := t.inq, root := t.root, nxt := t.nxt, treeV := t.treeV, err := t.err, rsps := t.rsps } := by
  rcases execBld_next h with ⟨-, -, rfl⟩ | ⟨-, -, rfl⟩ | ⟨-, rfl⟩
  · rfl
  · rfl
  · rfl

theorem exec_gen_frame {s t : State} (h : exec .gen s = .next t) :
    t = { s with
      ct := t.ct, ict := t.ict, tblV := t.tblV, stk := t.stk, path := t.path, err := t.err, rsps := t.rsps } := by
  rcases execGen_next h with ⟨-, -, rfl⟩ | ⟨-, -, as, -, rfl⟩ | ⟨-, rfl⟩
  · rfl
  · rfl
  · rfl

/-- Settles O22: each of the four writers has its own frame, in every outcome. -/
theorem storesAreIndependent : Obligations.StoresAreIndependent :=
  fun _ _ => ⟨fun _ => exec_cnt_frame, fun _ _ => exec_fwr_frame, exec_bld_frame, exec_gen_frame⟩

end Sys2Proof.Machine
end
